-- ==== Sys2Proof/Word.lean ====
section
/-! DEFINITION. The widths the spec names, each as a bit vector (R8, R9, R12). Every value is unsigned. -/

namespace Sys2Proof

/-- A 32-bit value: a command word, a register as the host reads it, and `ACC` (R8). -/
abbrev Word := BitVec 32

/-- An 8-bit value: an input element, an output element, a group-buffer entry (R8). -/
abbrev Byte := BitVec 8

/-- A 24-bit value: the length field, `REMAIN`, a Crc24 value, an encoder window (R8, R12, R39). -/
abbrev Word24 := BitVec 24

/-- A 6-bit index into the Radix-64 alphabet, in [0,63] (R12, R14). -/
abbrev Index := BitVec 6

end Sys2Proof
end

