-- ==== Sys2Proof/Syntax.lean ====
section
/-! DEFINITION. The four commands of spec/opcode_table.json, the registers of the window, and the assembler's
lines (R55 to R65). -/

namespace Sys2Proof

/-- One command, with its operand field at the width its format gives it (R56, R57). One constructor per row of
spec/opcode_table.json. The operand ranges of R58 and R59 are the types, so no `Instr` is ill formed. -/
inductive Instr where
  /-- ENC, format S: start an encode job over `n` bytes (R79). -/
  | enc (n : Word24)
  /-- DEC, format S: start a decode job over `n` characters (R92). -/
  | dec (n : Word24)
  /-- CRC, format S: start a checksum job over `n` bytes (R101). -/
  | crc (n : Word24)
  /-- DATA, format D: deliver one input element (R108). -/
  | data (b : Byte)
  deriving DecidableEq, Repr

/-- The four registers of the window (R37). -/
inductive Reg where
  | cmd
  | status
  | result
  | remain
  deriving DecidableEq, Repr

/-- Why a command word is Reserved: the three kinds R62 lists. -/
inductive Reserved where
  /-- Opcode 0x0 or 0x5 to 0xF. -/
  | opcode (op : BitVec 4)
  /-- A start opcode with any of bits 27:24 set. -/
  | startBits
  /-- DATA with any of bits 27:8 set. -/
  | dataBits
  deriving DecidableEq, Repr

/-- The result of decoding a command word: an instruction, or Reserved by name (R61). -/
inductive Decoded where
  | instr (i : Instr)
  | reserved (why : Reserved)
  deriving DecidableEq, Repr

/-- An operand of `data` as the assembler reads it: a number or a character literal (R63). -/
inductive AsmByte where
  | num (v : Nat)
  | chr (c : Char)
  deriving DecidableEq, Repr

/-- One assembler line (R63). Operands are unbounded numbers here; WellFormed checks their ranges. -/
inductive AsmLine where
  | enc (n : Nat)
  | dec (n : Nat)
  | crc (n : Nat)
  | data (b : AsmByte)
  | word (w : Nat)
  deriving DecidableEq, Repr

/-- The pseudo-instructions (R64). A string is the list of its characters. -/
inductive Pseudo where
  | bytes (bs : List AsmByte)
  | text (cs : List Char)
  | encode (bs : List AsmByte)
  | decode (cs : List Char)
  | crc24 (bs : List AsmByte)
  deriving DecidableEq, Repr

/-- One line of a host program (R65): `wr CMD, X`, or `rd` of a register. -/
inductive HostLine where
  | wrCmd (x : AsmLine)
  | rd (r : Reg)
  deriving DecidableEq, Repr

end Sys2Proof
end

