-- ==== Sys2Proof/Decode.lean ====
section
/-! DEFINITION. Decoding of command words, total over all 2^32 words (R55 to R62), and the encoder written from the
same formats. A command word is written whole as one 32-bit value, so no byte order enters (R42; log 24). -/

namespace Sys2Proof

/-- `OP = w[31:28]` (R56, R57, R60). -/
def opField (w : Word) : BitVec 4 := w.extractLsb' 28 4

/-- The reserved field of format S, `w[27:24]` (R56). -/
def startReservedField (w : Word) : BitVec 4 := w.extractLsb' 24 4

/-- The `LEN` operand of format S, `w[23:0]` (R56, R58). -/
def lenField (w : Word) : Word24 := w.extractLsb' 0 24

/-- The reserved field of format D, `w[27:8]` (R57). -/
def dataReservedField (w : Word) : BitVec 20 := w.extractLsb' 8 20

/-- The `BYTE` operand of format D, `w[7:0]` (R57, R59). -/
def byteField (w : Word) : Byte := w.extractLsb' 0 8

/-- A word whose opcode is a start opcode: `mk` of its length if bits 27:24 are zero, else Reserved (R61). -/
def decodeStart (mk : Word24 → Instr) (w : Word) : Decoded :=
  if startReservedField w = 0#4 then .instr (mk (lenField w)) else .reserved .startBits

/-- A word whose opcode is DATA: its byte if bits 27:8 are zero, else Reserved (R61). -/
def decodeData (w : Word) : Decoded :=
  if dataReservedField w = 0#20 then .instr (.data (byteField w)) else .reserved .dataBits

/-- `DecodeCmd` of R61. It depends on `w` alone. -/
def decode (w : Word) : Decoded :=
  if opField w = 0x1#4 then decodeStart .enc w
  else if opField w = 0x2#4 then decodeStart .dec w
  else if opField w = 0x3#4 then decodeStart .crc w
  else if opField w = 0x4#4 then decodeData w
  else .reserved (.opcode (opField w))

/-- The command word of an instruction: the opcode's match value, or-ed with the operand (R60, R63). -/
def encode : Instr → Word
  | .enc n => 0x10000000#32 ||| n.setWidth 32
  | .dec n => 0x20000000#32 ||| n.setWidth 32
  | .crc n => 0x30000000#32 ||| n.setWidth 32
  | .data b => 0x40000000#32 ||| b.setWidth 32

/-- The `match` column of the opcode map (R60). -/
def rowMatch : Instr → Word
  | .enc _ => 0x10000000#32
  | .dec _ => 0x20000000#32
  | .crc _ => 0x30000000#32
  | .data _ => 0x40000000#32

/-- The `mask` column of the opcode map (R60). -/
def rowMask : Instr → Word
  | .enc _ => 0xFF000000#32
  | .dec _ => 0xFF000000#32
  | .crc _ => 0xFF000000#32
  | .data _ => 0xFFFFFF00#32

/-- The instruction a decoding found, if it found one. -/
def Decoded.instr? : Decoded → Option Instr
  | .instr i => some i
  | .reserved _ => none

/-- The low `nbits` bits of `w`, bits above them zero, as one command word; none if they do not fit in 32 bits. -/
def tableWord (nbits w : Nat) : Option Word :=
  if w % 2 ^ nbits < 2 ^ 32 then some (BitVec.ofNat 32 (w % 2 ^ nbits)) else none

/-- The instruction the decoder reads from a word numbered as spec/opcode_table.json numbers it. Every row is one
32-bit word with bit 0 least significant (R9, R55), so the table's numbering is the word's own. -/
def decodeTableWord (nbits w : Nat) : Option Instr :=
  (tableWord nbits w).bind fun v => (decode v).instr?

end Sys2Proof
end

