-- ==== Sys2Proof/Config.lean ====
section
/-! DEFINITION. What a platform fixes (P_BASE, an OPEN parameter: R8, D2) and the free values the spec leaves
unspecified (R35, I7). -/

namespace Sys2Proof

/-- The platform's parameter. `P_BASE` must be a multiple of 16 (R37); holding the number of the 16-byte block
makes that true of every value. The parameter stands in State, so that a statement about every state is a statement
about every `P_BASE` (DESIGN CHOICE, log 5). It is a natural number of no fixed width (DESIGN CHOICE, log 26). -/
structure Platform where
  /-- `P_BASE / 16`. -/
  block : Nat
  deriving DecidableEq, Repr

/-- `P_BASE`, the bus address of the register window (R8, R37). -/
def Platform.pBase (p : Platform) : Nat := 16 * p.block

/-- Free value: what the reset input leaves in an 8-bit scratch register (`G[k]`, `PEND`: R35, R130, I7).
No body: nothing can be proved about its value (log 3). -/
opaque Config.freeByte : Nat → Byte

/-- Free value: what the reset input leaves in `ACC` (R35, R130, I7; log 3). -/
opaque Config.freeWord : Nat → Word

end Sys2Proof
end

