-- ==== Sys2Proof/Machine/State.lean ====
section
/-! DEFINITION. The machine's state as plain data (R15 to R35), the ways a step can stop, and the state after reset. -/

namespace Sys2Proof.Machine

/-- `STATUS.OP`: the operation of the current or last accepted job (R19, R22). -/
inductive JobOp where
  | none
  | enc
  | dec
  | crc
  deriving DecidableEq, Repr

/-- `STATUS.ERR`: the codec error of the current or last job (R19, R23). The reserved code 3 is never written
(R23, I8), so it has no constructor (log 16). -/
inductive CodecError where
  | none
  | invalidInputLength
  | invalidCharacter
  deriving DecidableEq, Repr

/-- The fields of `STATUS` (R19). Bits 31:7 are hardwired to zero; `Status.word` is the value read. -/
structure Status where
  busy   : Bool
  done   : Bool
  op     : JobOp
  err    : CodecError
  cmderr : Bool
  deriving DecidableEq, Repr

/-- The group buffer `G[0..3]` (R28). -/
structure GroupBuffer where
  g0 : Byte
  g1 : Byte
  g2 : Byte
  g3 : Byte
  deriving DecidableEq, Repr

/-- A host access to the bus (R11, R36): address and size in bytes, and for a write the 32-bit data. An access of
another size is refused whatever its data (R43), so a write carries 32 bits of data here (log 23). The width of a bus
address is the platform's and not fixed (R36); an address here is a natural number that does not wrap (DESIGN CHOICE,
log 26). -/
inductive Access where
  | read (addr size : Nat)
  | write (addr size : Nat) (v : Word)
  deriving DecidableEq, Repr

/-- What the sink is ready to take (R48): every element offered, or the next `n` elements and then none until its
readiness changes (log 7). -/
inductive SinkReady where
  | always
  | atMost (n : Nat)
  deriving DecidableEq, Repr

/-- What the outside world does (R104, R130, R48): a host access, the reset input, or a change of the sink's
readiness (log 6). -/
inductive Input where
  | access (a : Access)
  | reset
  | sinkReady (r : SinkReady)
  deriving DecidableEq, Repr

/-- A `CMD` write the sink is holding (R48): its word, and the elements the sink has not yet taken (log 8). -/
structure HeldWrite where
  word    : Word
  untaken : List Byte
  deriving DecidableEq, Repr

/-- The state. The first nine fields are R15's (with `CMD`, which keeps no value, left without a field: log 1);
`held` is the write in progress of R48; the last five are the model's own (INVENTORY.md, State). -/
structure State where
  /-- `STATUS` (R19). -/
  status   : Status
  /-- `RESULT[23:0]` (R25); bits 31:24 are hardwired to zero (log 17). -/
  result   : Word24
  /-- `REMAIN[23:0]` (R26); bits 31:24 are hardwired to zero (log 17). -/
  remain   : Word24
  /-- `LEN` (R27). -/
  len      : Word24
  /-- `G[0..3]` (R28). -/
  g        : GroupBuffer
  /-- `PEND` (R29). -/
  pend     : Byte
  /-- `ACC` (R30). -/
  acc      : Word
  /-- `OUT`, the elements the sink has taken, oldest first (R31). -/
  out      : List Byte
  /-- The `CMD` write held by the sink, if one is (R48, R130, R144). -/
  held     : Option HeldWrite
  /-- The sink's readiness (R48; the model's own field, log 7). -/
  sink     : SinkReady
  /-- What the outside world does next, in the order the core meets it (R49; the model's own field, log 6). -/
  inputs   : List Input
  /-- The read data the host has received, oldest first (R111; the model's own field, log 11). -/
  replies  : List Word
  /-- The parameter `P_BASE` (R8; the model's own field, log 5). -/
  platform : Platform
  /-- How many free values have been drawn (the model's own field, log 3). -/
  freeCtr  : Nat
  deriving DecidableEq, Repr

/-- The reasons the machine makes no step. -/
inductive Fault where
  /-- A `CMD` write is held and nothing makes the sink take its elements: the machine's only stuck condition
  (R48, R104, I3). Raised by a held step (`stepHeld`). Safe: the hardware waits there too. -/
  | sinkHold
  deriving DecidableEq, Repr

/-- The reasons the model gives a step no meaning. -/
inductive Refusal where
  /-- An instruction that has no meaning yet. Raised by no arm of `exec`. Safe. -/
  | notModelled (mnemonic : String)
  /-- An access narrower or wider than 32 bits (R43, I6). Raised by `admission`. Safe: no run is claimed for it. -/
  | accessSize
  /-- A 32-bit access at an address outside the window (R38, R43). Raised by `admission`. Safe. -/
  | accessOutsideWindow
  /-- A 32-bit access inside the window at an address that is not a multiple of 4 (R43, I6). Raised by `admission`. Safe. -/
  | accessMisaligned
  deriving DecidableEq, Repr

/-- `STATUS` after reset: 0x00000000 (R35). -/
def Status.reset : Status :=
  { busy := false, done := false, op := .none, err := .none, cmderr := false }

/-- The machine right after reset (R35, R132), idle, with a newly attached sink and nothing asked of it yet.
`G`, `PEND` and `ACC` are unspecified by R35: zero here is a DESIGN CHOICE (log 2, unsafe), as are `P_BASE = 0`
(log 5) and a sink that is always ready (log 7). -/
def State.reset : State where
  status := Status.reset
  result := 0#24
  remain := 0#24
  len := 0#24
  g := { g0 := 0#8, g1 := 0#8, g2 := 0#8, g3 := 0#8 }
  pend := 0#8
  acc := 0#32
  out := []
  held := Option.none
  sink := .always
  inputs := []
  replies := []
  platform := { block := 0 }
  freeCtr := 0

end Sys2Proof.Machine
end

