-- ==== Sys2Proof/Machine/Flags.lean ====
section
/-! DEFINITION. The flags of the core are the fields of `STATUS` (R32): their codes and places in the word the host
reads (R19, R111). -/

namespace Sys2Proof.Machine

/-- The code of `STATUS.OP` (R19, bits 3:2). -/
def JobOp.code : JobOp → BitVec 2
  | .none => 0#2
  | .enc => 1#2
  | .dec => 2#2
  | .crc => 3#2

/-- The code of `STATUS.ERR` (R19, R115, bits 5:4). -/
def CodecError.code : CodecError → BitVec 2
  | .none => 0#2
  | .invalidInputLength => 1#2
  | .invalidCharacter => 2#2

/-- The value read from `STATUS`: `zext_32({CMDERR, ERR[1:0], OP[1:0], DONE, BUSY})` (R19, R111). -/
def Status.word (st : Status) : Word :=
  (BitVec.ofBool st.cmderr ++ st.err.code ++ st.op.code ++ BitVec.ofBool st.done ++ BitVec.ofBool st.busy).setWidth 32

end Sys2Proof.Machine
end

