-- ==== Sys2Proof/Machine/Operands.lean ====
section
/-! DEFINITION. Where an input element stands in its job (R12, R17, R80, R93). The operand fields of a command word
(`LEN`, `BYTE`) are in Decode.lean. Positions are natural numbers: nothing wraps in a state a run reaches (log 15). -/

namespace Sys2Proof.Machine

/-- `POS = LEN - REMAIN`, the position of the next input element (R17). -/
def State.pos (s : State) : Nat := s.len.toNat - s.remain.toNat

/-- `last`, read on entry of DATA: `REMAIN == 1` (R80, R102, R108). -/
def State.isLast (s : State) : Bool := s.remain == 1#24

/-- The position inside the encoder's 3-byte group, `p mod 3` (R80), as an index of `G`. -/
def State.encSlot (s : State) : Fin 4 := ⟨s.pos % 3, by omega⟩

/-- The position inside the decoder's 4-character group, `p mod 4` (R93), as an index of `G`. -/
def State.decSlot (s : State) : Fin 4 := ⟨s.pos % 4, by omega⟩

/-- `F = LEN - 4`, the first position of a decode job's final group (R93). -/
def State.finalGroup (s : State) : Nat := s.len.toNat - 4

/-- `p < F`: the next element lies before the final group (R93). -/
def State.beforeFinalGroup (s : State) : Bool := s.pos < s.finalGroup

end Sys2Proof.Machine
end

