-- ==== Sys2Proof/Machine/Ops.lean ====
section
/-! DEFINITION. The operations the instructions share: the common start, completion, the two ways an error is
recorded (this core's whole form of an exception: R114), emission, the group buffer, register reads, and reset. -/

namespace Sys2Proof.Machine

/-- `G[k]` (R28). -/
def GroupBuffer.get (g : GroupBuffer) : Fin 4 → Byte
  | 0 => g.g0
  | 1 => g.g1
  | 2 => g.g2
  | 3 => g.g3

/-- `G[k] <- b` on the buffer (R28). -/
def GroupBuffer.set (g : GroupBuffer) (k : Fin 4) (b : Byte) : GroupBuffer :=
  match k with
  | 0 => { g with g0 := b }
  | 1 => { g with g1 := b }
  | 2 => { g with g2 := b }
  | 3 => { g with g3 := b }

/-- `G[k] <- b` (R80, R93). -/
def setGroup (k : Fin 4) (b : Byte) (s : State) : State := { s with g := s.g.set k b }

/-- `Emit` each element of `es` in order: `OUT <- OUT ++ es` (R11, R31, R41). -/
def emitAll (es : List Byte) (s : State) : State := { s with out := s.out ++ es }

/-- `StartCommon(op, n)` (R106). It writes neither `RESULT` nor the scratch registers (log 4). -/
def startCommon (op : JobOp) (n : Word24) (s : State) : State :=
  { s with
    status := { busy := true, done := false, op := op, err := .none, cmderr := false }
    len := n
    remain := n }

/-- `Complete()` (R107). -/
def complete (s : State) : State := { s with status := { s.status with busy := false, done := true } }

/-- `raise CodecError(code)`: `STATUS.ERR <- code` and nothing else (R116). -/
def raiseCodecError (e : CodecError) (s : State) : State := { s with status := { s.status with err := e } }

/-- `raise CommandRejected(w)`: `STATUS.CMDERR <- 1` and nothing else (R110). -/
def rejectCommand (s : State) : State := { s with status := { s.status with cmderr := true } }

/-- The end of every accepted DATA word: `REMAIN <- REMAIN - 1`, and completion when it reaches 0 (R108). -/
def countElement (s : State) : State :=
  let t := { s with remain := s.remain - 1#24 }
  if t.remain = 0#24 then complete t else t

/-- The value a read of a register of the window returns (R44, R111). -/
def readReg (r : Reg) (s : State) : Word :=
  match r with
  | .cmd => 0#32
  | .status => s.status.word
  | .result => s.result.setWidth 32
  | .remain => s.remain.setWidth 32

/-- The reset input (R130, R35): `STATUS`, `RESULT`, `REMAIN` and `LEN` become 0; `G`, `PEND` and `ACC` become
unspecified, here fresh free values (log 3); a held write is abandoned with the elements not yet taken; `OUT`, the
sink and the host's side are not touched. -/
def resetCore (s : State) : State :=
  { s with
    status := Status.reset
    result := 0#24
    remain := 0#24
    len := 0#24
    g := { g0 := Config.freeByte s.freeCtr
           g1 := Config.freeByte (s.freeCtr + 1)
           g2 := Config.freeByte (s.freeCtr + 2)
           g3 := Config.freeByte (s.freeCtr + 3) }
    pend := Config.freeByte (s.freeCtr + 4)
    acc := Config.freeWord (s.freeCtr + 5)
    held := Option.none
    freeCtr := s.freeCtr + 6 }

end Sys2Proof.Machine
end

