-- ==== Sys2Proof/Machine/Bus.lean ====
section
/-! DEFINITION. The register window on the bus: which accesses are admitted and which register each reaches (R36 to R46). -/

namespace Sys2Proof.Machine

/-- The offset of a register in the window (R37). -/
def regOffset : Reg → Nat
  | .cmd => 0x0
  | .status => 0x4
  | .result => 0x8
  | .remain => 0xC

/-- The bus address of a register: `P_BASE + offset(r)` (R37). -/
def regAddr (p : Platform) (r : Reg) : Nat := p.pBase + regOffset r

/-- The register a 32-bit access reaches, or why the access is not admitted (R43; log 10). -/
def admission (p : Platform) (addr size : Nat) : Except Refusal Reg :=
  if size ≠ 4 then .error .accessSize
  else if addr = regAddr p .cmd then .ok .cmd
  else if addr = regAddr p .status then .ok .status
  else if addr = regAddr p .result then .ok .result
  else if addr = regAddr p .remain then .ok .remain
  else if p.pBase ≤ addr ∧ addr < p.pBase + 16 then .error .accessMisaligned
  else .error .accessOutsideWindow

end Sys2Proof.Machine
end

