-- ==== Sys2Proof/Machine/Crc.lean ====
section
/-! DEFINITION. The CRC24 generator: the function `Crc24` (R95 to R99), CRC (R101) and the body of DATA in a CRC job (R102). -/

namespace Sys2Proof.Machine

/-- The initial value of the working register (R8, R95). -/
def crcInit : Word := 0x00B704CE#32

/-- The generator constant (R8, R96). -/
def crcGenerator : Word := 0x01864CFB#32

/-- One round: shift left by one modulo 2^32, and subtract the generator if bit 24 is set (R96). -/
def crcRound (acc : Word) : Word :=
  let a := acc <<< 1
  if a.getLsbD 24 then a ^^^ crcGenerator else a

/-- `n` rounds (R96). -/
def crcRounds : Nat → Word → Word
  | 0, acc => acc
  | n + 1, acc => crcRounds n (crcRound acc)

/-- `CrcByte(acc, x)`: the byte enters bits 23:16, then eight rounds (R40, R96). -/
def crcByte (acc : Word) (x : Byte) : Word := crcRounds 8 (acc ^^^ (x.setWidth 32 <<< 16))

/-- The Crc24 value of the working register, `acc[23:0]` (R95). -/
def crcValue (acc : Word) : Word24 := acc.extractLsb' 0 24

/-- `Crc24(b)` (R95, R98). -/
def crc24 (b : List Byte) : Word24 := crcValue (b.foldl crcByte crcInit)

/-- `CrcData(b)` (R102). -/
def crcData (b : Byte) (s : State) : State :=
  let t := { s with acc := crcByte s.acc b }
  if s.isLast then { t with result := crcValue t.acc } else t

/-- An accepted CRC (R101). -/
def startCrc (n : Word24) (s : State) : State :=
  let t := { startCommon .crc n s with acc := crcInit }
  if n = 0#24 then complete { t with result := crcValue crcInit } else t

/-- CRC: accepted only while no job runs (R101, R105); otherwise rejected (R110). -/
def execCrc (n : Word24) (s : State) : Host.Outcome State Fault Refusal :=
  if s.status.busy then .next (rejectCommand s) else .next (startCrc n s)

end Sys2Proof.Machine
end

