-- ==== Sys2Proof/Machine/Symbols.lean ====
section
/-! DEFINITION. The Symbol Table, a constant of the hardware (R66 to R71), by its ASCII codes (R67). -/

namespace Sys2Proof.Machine

/-- The pad character `=`; it has no index (R66, R67). -/
def padChar : Byte := 0x3D#8

/-- `IndexToChar` (R68): total over [0,63]. -/
def indexToChar (i : Index) : Byte :=
  let c : Byte := i.setWidth 8
  if c ≤ 25#8 then 0x41#8 + c
  else if c ≤ 51#8 then 0x61#8 + (c - 26#8)
  else if c ≤ 61#8 then 0x30#8 + (c - 52#8)
  else if c = 62#8 then 0x2B#8
  else 0x2F#8

/-- `CharToIndex` (R69); `none` is `INVALID`. -/
def charToIndex (c : Byte) : Option Index :=
  if 0x41#8 ≤ c ∧ c ≤ 0x5A#8 then some ((c - 0x41#8).setWidth 6)
  else if 0x61#8 ≤ c ∧ c ≤ 0x7A#8 then some ((c - 0x61#8 + 26#8).setWidth 6)
  else if 0x30#8 ≤ c ∧ c ≤ 0x39#8 then some ((c - 0x30#8 + 52#8).setWidth 6)
  else if c = 0x2B#8 then some 62#6
  else if c = 0x2F#8 then some 63#6
  else none

end Sys2Proof.Machine
end

