-- ==== Sys2Proof/Machine/Decoder.lean ====
section
/-! DEFINITION. The Decoder: the function `Decode` (R82 to R91), DEC (R92) and the body of DATA in a DEC job (R93). -/

namespace Sys2Proof.Machine

/-- `Reassemble`: four, three, two or one indices give three, two, one or one byte, most significant first; surplus low
bits are dropped unchecked (R87, R88, R90). Other lengths never occur (R89; log 20). -/
def reassemble : List Index → List Byte
  | [i0, i1, i2, i3] =>
    [i0 ++ i1.extractLsb' 4 2, i1.extractLsb' 0 4 ++ i2.extractLsb' 2 4, i2.extractLsb' 0 2 ++ i3]
  | [i0, i1, i2] => [i0 ++ i1.extractLsb' 4 2, i1.extractLsb' 0 4 ++ i2.extractLsb' 2 4]
  | [i0, i1] => [i0 ++ i1.extractLsb' 4 2]
  | [i0] => [i0 ++ 0#2]
  | _ => []

/-- `EffectiveLength(t)` (R85, C1): the number of leading characters that carry data, for a text whose length is a
non-zero multiple of 4. Only the last two characters are inspected. -/
def effectiveLength (t : List Byte) : Nat :=
  if t.getLast? = some padChar ∧ t.dropLast.getLast? = some padChar then t.length - 2
  else if t.getLast? = some padChar then t.length - 1
  else t.length

/-- The loop of R82 over the effective range, in groups of up to four characters (R86): the first invalid character
ends it, and its group gives no byte. -/
def decodeGroups : List Byte → List Byte × CodecError
  | c0 :: c1 :: c2 :: c3 :: rest =>
    match [c0, c1, c2, c3].mapM charToIndex with
    | Option.none => ([], .invalidCharacter)
    | some is => (reassemble is ++ (decodeGroups rest).1, (decodeGroups rest).2)
  | [] => ([], .none)
  | short =>
    match short.mapM charToIndex with
    | Option.none => ([], .invalidCharacter)
    | some is => (reassemble is, .none)

/-- `Decode(t)`: the bytes written and the error, `.none` for `Ok` (R82, R83, R84). -/
def radix64Decode (t : List Byte) : List Byte × CodecError :=
  if t.length % 4 ≠ 0 then ([], .invalidInputLength)
  else decodeGroups (t.take (effectiveLength t))

/-- `I[k]` as the core holds it: the 6-bit index in `G[k]` (R28, R93; log 18). -/
def groupIndex (k : Fin 4) (s : State) : Index := (s.g.get k).setWidth 6

/-- `G[k] <- zext_8(CharToIndex(c))`, or `none` where the character is INVALID (R93). -/
def storeIndex (k : Fin 4) (c : Byte) (s : State) : Option State :=
  (charToIndex c).map fun r => setGroup k (r.setWidth 8) s

/-- `Emit` the bytes of `Reassemble(G[0 .. m-1])`, for the list of the places `0 .. m-1` (R93). -/
def emitGroup (ks : List (Fin 4)) (s : State) : State := emitAll (reassemble (ks.map (groupIndex · s))) s

/-- `raise CodecError(INVALID_CHARACTER)` (R93, R116). -/
def invalidCharacter (s : State) : State := raiseCodecError .invalidCharacter s

/-- A character judged at its own word: before the final group, or at the final group's first two places (R93). -/
def decPlain (c : Byte) (s : State) : State :=
  match storeIndex s.decSlot c s with
  | Option.none => invalidCharacter s
  | some t => if s.beforeFinalGroup ∧ s.decSlot = 3 then emitGroup [0, 1, 2, 3] t else t

/-- The character at `LEN-1`, which decides whether it and `PEND` are pad or data (R93, D27). The deferred character is
judged first. -/
def decFinal (c : Byte) (s : State) : State :=
  if c = padChar ∧ s.pend = padChar then emitGroup [0, 1] s
  else match storeIndex 2 s.pend s with
    | Option.none => invalidCharacter s
    | some t =>
      if c = padChar then emitGroup [0, 1, 2] t
      else match storeIndex 3 c t with
        | Option.none => invalidCharacter t
        | some u => emitGroup [0, 1, 2, 3] u

/-- `DecData(c)` (R93). -/
def decData (c : Byte) (s : State) : State :=
  if s.beforeFinalGroup ∨ s.decSlot = 0 ∨ s.decSlot = 1 then decPlain c s
  else if s.decSlot = 2 then { s with pend := c }
  else decFinal c s

/-- An accepted DEC: a length that is no multiple of 4 is an error at once, and the job then drains (R83, R92). -/
def startDec (n : Word24) (s : State) : State :=
  let t := startCommon .dec n s
  if n.toNat % 4 ≠ 0 then raiseCodecError .invalidInputLength t
  else if n = 0#24 then complete t
  else t

/-- DEC: accepted only while no job runs (R92, R105); otherwise rejected (R110). -/
def execDec (n : Word24) (s : State) : Host.Outcome State Fault Refusal :=
  if s.status.busy then .next (rejectCommand s) else .next (startDec n s)

end Sys2Proof.Machine
end

