-- ==== Sys2Proof/Machine/Encoder.lean ====
section
/-! DEFINITION. The Encoder: the function `Encode` (R72 to R78), ENC (R79) and the body of DATA in an ENC job (R80). -/

namespace Sys2Proof.Machine

/-- `EncFull`: three bytes give four characters; the first byte is the most significant of the window (R39, R73). -/
def encFull (b0 b1 b2 : Byte) : List Byte :=
  let w : Word24 := b0 ++ b1 ++ b2
  [indexToChar (w.extractLsb' 18 6), indexToChar (w.extractLsb' 12 6),
   indexToChar (w.extractLsb' 6 6), indexToChar (w.extractLsb' 0 6)]

/-- `EncTail2`: a final group of two bytes, the missing bits zero at the low end of the third index (R74, C3). -/
def encTail2 (b0 b1 : Byte) : List Byte :=
  let w : Word24 := b0 ++ b1 ++ 0#8
  [indexToChar (w.extractLsb' 18 6), indexToChar (w.extractLsb' 12 6), indexToChar (w.extractLsb' 6 6), padChar]

/-- `EncTail1`: a final group of one byte, the missing bits zero at the low end of the second index (R75, C3). -/
def encTail1 (b0 : Byte) : List Byte :=
  let w : Word24 := b0 ++ 0#8 ++ 0#8
  [indexToChar (w.extractLsb' 18 6), indexToChar (w.extractLsb' 12 6), padChar, padChar]

/-- `Encode(b)`, group by group from position 0 (R72). -/
def radix64Encode : List Byte → List Byte
  | b0 :: b1 :: b2 :: rest => encFull b0 b1 b2 ++ radix64Encode rest
  | [b0, b1] => encTail2 b0 b1
  | [b0] => encTail1 b0
  | [] => []

/-- `EncData(b)` (R80): store the byte at its place in the group; emit at a group's third byte, and at the job's last. -/
def encData (b : Byte) (s : State) : State :=
  let t := setGroup s.encSlot b s
  if s.encSlot = 2 then emitAll (encFull t.g.g0 t.g.g1 t.g.g2) t
  else if s.isLast ∧ s.encSlot = 0 then emitAll (encTail1 t.g.g0) t
  else if s.isLast ∧ s.encSlot = 1 then emitAll (encTail2 t.g.g0 t.g.g1) t
  else t

/-- An accepted ENC (R79). -/
def startEnc (n : Word24) (s : State) : State :=
  let t := startCommon .enc n s
  if n = 0#24 then complete t else t

/-- ENC: accepted only while no job runs (R79, R105); otherwise rejected (R110). -/
def execEnc (n : Word24) (s : State) : Host.Outcome State Fault Refusal :=
  if s.status.busy then .next (rejectCommand s) else .next (startEnc n s)

end Sys2Proof.Machine
end

