-- ==== Sys2Proof/Machine/Data.lean ====
section
/-! DEFINITION. DATA: dispatch of one input element to the running job's body, and the drain (R108, R109). -/

namespace Sys2Proof.Machine

/-- The body for the running job. With `ERR` set the job drains: the element is ignored (R109). With `OP = NONE` R108
names no body; no run reaches that (log 15). -/
def dataBody (b : Byte) (s : State) : State :=
  match s.status.err, s.status.op with
  | .none, .enc => encData b s
  | .none, .dec => decData b s
  | .none, .crc => crcData b s
  | .none, .none => s
  | .invalidInputLength, _ => s
  | .invalidCharacter, _ => s

/-- DATA: accepted only while a job runs (R105, R108); otherwise rejected (R110). -/
def execData (b : Byte) (s : State) : Host.Outcome State Fault Refusal :=
  if s.status.busy then .next (countElement (dataBody b s)) else .next (rejectCommand s)

end Sys2Proof.Machine
end

