-- ==== Sys2Proof/Machine/Dispatch.lean ====
section
/-! DEFINITION. One arm per command (R105). Acceptance stands in each meaning. -/

namespace Sys2Proof.Machine

def exec (i : Instr) (s : State) : Host.Outcome State Fault Refusal :=
  match i with
  | .enc n => Sys2Proof.Machine.execEnc n s
  | .dec n => Sys2Proof.Machine.execDec n s
  | .crc n => Sys2Proof.Machine.execCrc n s
  | .data b => Sys2Proof.Machine.execData b s

end Sys2Proof.Machine
end

