-- ==== Sys2Proof/Machine/Sink.lean ====
section
/-! DEFINITION. What the sink does with elements offered to it (R48; log 7). -/

namespace Sys2Proof.Machine

/-- The elements the sink takes now, of those offered in order. -/
def SinkReady.taken : SinkReady → List Byte → List Byte
  | .always, es => es
  | .atMost n, es => es.take n

/-- The elements the sink leaves untaken, in order. -/
def SinkReady.untaken : SinkReady → List Byte → List Byte
  | .always, _ => []
  | .atMost n, es => es.drop n

/-- The sink's readiness after the offer. -/
def SinkReady.after : SinkReady → List Byte → SinkReady
  | .always, _ => .always
  | .atMost n, es => .atMost (n - es.length)

end Sys2Proof.Machine
end

