-- ==== Sys2Proof/Machine/Port.lean ====
section
/-! DEFINITION. The host port: what each input does (R104, R105, R130), and the hold of a `CMD` write by the sink
(R47, R48). -/

namespace Sys2Proof.Machine

/-- `OnWriteCMD(w)` (R105): the whole effect of a command word. A Reserved word is rejected (R62, R110). -/
def onWriteCmd (w : Word) (s : State) : Host.Outcome State Fault Refusal :=
  match decode w with
  | .instr i => exec i s
  | .reserved _ => .next (rejectCommand s)

/-- The elements a command word emits in a state, in order. -/
def emission (w : Word) (s : State) : List Byte :=
  match onWriteCmd w s with
  | .next t => t.out.drop s.out.length
  | .fault _ => []
  | .refused _ => []

/-- A `CMD` write completes once the sink has taken all it emits: only now does the core's state change (R47, R48).
`OUT` already holds what the sink took. -/
def commitCmd (w : Word) (s : State) : Host.Outcome State Fault Refusal :=
  match onWriteCmd w s with
  | .next t => .next { t with out := s.out, held := Option.none }
  | .fault r => .fault r
  | .refused r => .refused r

/-- Offer the elements `es` of a `CMD` write to the sink: if it takes all of them the write completes, else the write is
held with the rest (R48; log 8). -/
def offer (w : Word) (es : List Byte) (s : State) : Host.Outcome State Fault Refusal :=
  let t := { s with out := s.out ++ s.sink.taken es, sink := s.sink.after es }
  match s.sink.untaken es with
  | [] => commitCmd w t
  | e :: rest => .next { t with held := some { word := w, untaken := e :: rest } }

/-- A host write of `w` to `CMD` (R105, R48). -/
def writeCmd (w : Word) (s : State) : Host.Outcome State Fault Refusal := offer w (emission w s) s

/-- A host write to a register of the window: only `CMD` is writable; the others ignore it (R45). -/
def writeReg (r : Reg) (v : Word) (s : State) : Host.Outcome State Fault Refusal :=
  match r with
  | .cmd => writeCmd v s
  | .status => .next s
  | .result => .next s
  | .remain => .next s

/-- The core's response to a host access (R43 to R46, R104, R111): a read returns its value and changes nothing in the
core. -/
def respond (a : Access) (s : State) : Host.Outcome State Fault Refusal :=
  match a with
  | .read addr size =>
    match admission s.platform addr size with
    | .ok r => .next { s with replies := s.replies ++ [readReg r s] }
    | .error e => .refused e
  | .write addr size v =>
    match admission s.platform addr size with
    | .ok r => writeReg r v s
    | .error e => .refused e

/-- A step with no write held. With no input the core does nothing and all state persists (R104, R129; log 12). -/
def stepFree (s : State) : Host.Outcome State Fault Refusal :=
  match s.inputs with
  | [] => .next s
  | .access a :: rest => respond a { s with inputs := rest }
  | .reset :: rest => .next (resetCore { s with inputs := rest })
  | .sinkReady r :: rest => .next { s with inputs := rest, sink := r }

/-- A step while a write is held (R48, R130). Only the sink or reset can end the hold; the port serves no other access
before the write completes (R47, R49), so with neither the machine makes no step (log 6, log 9). -/
def stepHeld (h : HeldWrite) (s : State) : Host.Outcome State Fault Refusal :=
  match s.inputs with
  | [] => .fault .sinkHold
  | .access _ :: _ => .fault .sinkHold
  | .reset :: rest => .next (resetCore { s with inputs := rest })
  | .sinkReady r :: rest => offer h.word h.untaken { s with inputs := rest, sink := r }

/-- The host access that writes `w` to `CMD` (R11, R65). -/
def cmdWrite (p : Platform) (w : Word) : Input := .access (.write (regAddr p .cmd) 4 w)

/-- The state in which the next input is a write of `w` to `CMD` and no write is held. -/
def State.withCmdWrite (s : State) (w : Word) : State :=
  { s with inputs := cmdWrite s.platform w :: s.inputs, held := Option.none }

end Sys2Proof.Machine
end

