-- ==== Sys2Proof/Machine/Step.lean ====
section
/-! DEFINITION. One step of the machine (R104), and where a test places the next command word. -/

namespace Sys2Proof.Machine

/-- One atomic step (R47, R104). -/
def step (s : State) : Host.Outcome State Fault Refusal :=
  match s.held with
  | Option.none => stepFree s
  | some h => stepHeld h s

/-- The state in which the host's next access writes the table word `w` (bits above `nbits` zero) to `CMD`: the core
fetches nothing, so a command word comes to run by being written (R17, R52; log 13). -/
def State.withFetchWord (s : State) (nbits w : Nat) : State :=
  s.withCmdWrite (BitVec.ofNat 32 (w % 2 ^ nbits))

end Sys2Proof.Machine
end

