-- ==== Sys2Proof/WellFormed.lean ====
section
/-! DEFINITION. The checks the spec puts on written programs: operand ranges of the assembler (R63).
A decoded `Instr` needs no check: its operand ranges are the widths of its fields (R58, R59). -/

namespace Sys2Proof

/-- A `data` operand: 0 to 0xFF, or a character that has an ASCII code (R63; log 19). -/
def AsmByte.wellFormed : AsmByte → Bool
  | .num v => v ≤ 0xFF
  | .chr c => c.toNat ≤ 0x7F

/-- The operand ranges of R63; an operand out of range is an assembly error, not a word. -/
def AsmLine.wellFormed : AsmLine → Bool
  | .enc n => n ≤ 0xFFFFFF
  | .dec n => n ≤ 0xFFFFFF
  | .crc n => n ≤ 0xFFFFFF
  | .data b => b.wellFormed
  | .word w => w ≤ 0xFFFFFFFF

/-- A character that has an ASCII code (R63, R67; log 19). -/
def charWellFormed (c : Char) : Bool := c.toNat ≤ 0x7F

/-- A pseudo-instruction: every operand in range, and a length that fits the job-length field (R58, R64). -/
def Pseudo.wellFormed : Pseudo → Bool
  | .bytes bs => bs.all AsmByte.wellFormed
  | .text cs => cs.all charWellFormed
  | .encode bs => bs.length ≤ 0xFFFFFF && bs.all AsmByte.wellFormed
  | .decode cs => cs.length ≤ 0xFFFFFF && cs.all charWellFormed
  | .crc24 bs => bs.length ≤ 0xFFFFFF && bs.all AsmByte.wellFormed

/-- A line of a host program: `rd CMD` is not among R65's reads, but the read is admitted (R44), so every `rd` is. -/
def HostLine.wellFormed : HostLine → Bool
  | .wrCmd x => x.wellFormed
  | .rd _ => true

end Sys2Proof
end

