-- ==== Sys2Proof/Machine/Assembler.lean ====
section
/-! DEFINITION. The assembler: lines to words (R63), pseudo-instructions to lines (R64), and lines of a host program to
host accesses (R65). An operand out of range is an assembly error (`none`). -/

namespace Sys2Proof.Machine

/-- The value of a `data` operand: a number, or the ASCII code of a character literal (R63, R67). -/
def asmByteValue : AsmByte → Byte
  | .num v => BitVec.ofNat 8 v
  | .chr c => BitVec.ofNat 8 c.toNat

/-- The word of a line whose operand is in range (R63). -/
def asmWord (l : AsmLine) : Word :=
  match l with
  | .enc n => encode (.enc (BitVec.ofNat 24 n))
  | .dec n => encode (.dec (BitVec.ofNat 24 n))
  | .crc n => encode (.crc (BitVec.ofNat 24 n))
  | .data b => encode (.data (asmByteValue b))
  | .word w => BitVec.ofNat 32 w

/-- Assemble a line: its word, or an assembly error (R63). -/
def assemble (l : AsmLine) : Option Word := if l.wellFormed then some (asmWord l) else Option.none

/-- The expansion of a pseudo-instruction (R64). -/
def expand : Pseudo → List AsmLine
  | .bytes bs => bs.map .data
  | .text cs => cs.map fun c => .data (.chr c)
  | .encode bs => .enc bs.length :: bs.map .data
  | .decode cs => .dec cs.length :: cs.map fun c => .data (.chr c)
  | .crc24 bs => .crc bs.length :: bs.map .data

/-- The host access a line of a host program performs (R65). -/
def hostAccess (p : Platform) : HostLine → Option Input
  | .wrCmd x => (assemble x).map (cmdWrite p)
  | .rd r => some (.access (.read (regAddr p r) 4))

/-- The accesses of a host program, in program order (R65, R112), or an assembly error. -/
def hostProgram (p : Platform) (ls : List HostLine) : Option (List Input) := ls.mapM (hostAccess p)

end Sys2Proof.Machine
end

