-- ==== Sys2Proof/Safety.lean ====
section
/-! DEFINITION. The terms the claims use: runs, the invariant every step keeps, what is visible from outside, the
inputs of a whole job, and when a run is well ended. -/

namespace Sys2Proof.Machine

/-- `n` steps of the machine, stopping at the first fault or refusal. -/
def runSteps (n : Nat) (s : State) : Host.Outcome State Fault Refusal := Host.Core.run Sys2Proof.core n s

/-- The scratch registers hold what the running job needs of them (R28, R93): in a decode job that has met no error,
the entries the current group has stored are 6-bit indices, zero-extended. -/
def State.decodeScratch (s : State) : Prop :=
  (1 ≤ s.pos % 4 → s.g.g0.toNat < 64) ∧ (2 ≤ s.pos % 4 → s.g.g1.toNat < 64) ∧
    (s.pos % 4 = 3 → s.pos < s.len.toNat - 4 → s.g.g2.toNat < 64)

/-- The invariant of the core: what R17, R20 to R30 say of every state it can be in. -/
structure State.Inv (s : State) : Prop where
  /-- `BUSY = 1` exactly when `REMAIN > 0` (R20, R26). -/
  busy_iff : s.status.busy = true ↔ s.remain ≠ 0#24
  /-- `BUSY` and `DONE` are never both 1 (R21). -/
  not_both : ¬ (s.status.busy = true ∧ s.status.done = true)
  /-- (BUSY, DONE) = (0, 0) means idle since reset, and `OP = NONE` says the same (R21, R22). -/
  idle_iff : s.status.op = JobOp.none ↔ s.status.busy = false ∧ s.status.done = false
  /-- Idle since reset: no length, no error, no result (R22, R23, R25, R27, R35). -/
  fresh : s.status.op = JobOp.none → s.len = 0#24 ∧ s.status.err = CodecError.none ∧ s.result = 0#24
  /-- `POS = LEN - REMAIN` lies in [0, LEN] (R17). -/
  remain_le : s.remain.toNat ≤ s.len.toNat
  /-- Only a DEC job has a codec error (R23). -/
  err_dec : s.status.err ≠ CodecError.none → s.status.op = JobOp.dec
  /-- The length error is exactly that of a DEC job of bad length (R92, R118). -/
  err_length : s.status.op = JobOp.dec →
    (s.status.err = CodecError.invalidInputLength ↔ s.len.toNat % 4 ≠ 0)
  /-- In a CRC job `ACC` is below 2^24 between words (R30, R97). -/
  acc_bound : s.status.op = JobOp.crc → s.acc.toNat < 2 ^ 24
  /-- A completed CRC job has its value in `RESULT` (R25, R102). -/
  crc_result : s.status.op = JobOp.crc → s.status.done = true → s.result.toNat = s.acc.toNat
  /-- The group buffer of a decode job (R28). -/
  scratch : s.status.op = JobOp.dec → s.status.err = CodecError.none → s.status.busy = true → s.decodeScratch
  /-- A held write still has an element to hand over. What its word emits is what the sink has taken of it, which stands
  at the end of `OUT`, and then what is left (R48). -/
  held_tail : ∀ h, s.held = some h → h.untaken ≠ [] ∧
    ∃ before handed, s.out = before ++ handed ∧ emission h.word s = handed ++ h.untaken

/-- A state as the outside world can tell it from others: without the scratch registers `G`, `PEND`, `ACC` (R34). -/
def State.visible (s : State) : State :=
  { s with g := { g0 := 0#8, g1 := 0#8, g2 := 0#8, g3 := 0#8 }, pend := 0#8, acc := 0#32 }

/-- An outcome as the outside world can tell it from others. -/
def visibleOutcome : Host.Outcome State Fault Refusal → Host.Outcome State Fault Refusal
  | .next s => .next s.visible
  | .fault r => .fault r
  | .refused r => .refused r

/-- The state after one accepted element has been counted (R108): `REMAIN` one less, and at the last element `BUSY`
clear and `DONE` set (R107). -/
def State.counted (s : State) : State :=
  { s with
    remain := s.remain - 1#24
    status := if s.remain = 1#24 then { s.status with busy := false, done := true } else s.status }

/-- The inputs by which a host runs one whole job: a start command, then one DATA word per element (R135, R136). -/
def jobInputs (p : Platform) (start : Instr) (elements : List Byte) : List Input :=
  cmdWrite p (encode start) :: elements.map fun b => cmdWrite p (encode (.data b))

/-- A decoded word is a start command (R105). -/
def isStartWord : Decoded → Bool
  | .instr (.enc _) => true
  | .instr (.dec _) => true
  | .instr (.crc _) => true
  | .instr (.data _) => false
  | .reserved _ => false

/-- The next step performs an accepted start command: no write is held, no job runs, and the next input writes a start
word to `CMD` (R105). -/
def State.startsJob (s : State) : Bool :=
  match s.held, s.inputs with
  | Option.none, .access (.write addr size w) :: _ =>
    addr == regAddr s.platform .cmd && size == 4 && !s.status.busy && isStartWord (decode w)
  | _, _ => false

/-- The next step is the reset input (R130). -/
def State.resetsNext (s : State) : Bool := s.inputs.head? == some .reset

/-- A run is well ended: no job is running and no `CMD` write is held (R134). -/
def State.wellEnded (s : State) : Bool := !s.status.busy && s.held.isNone

end Sys2Proof.Machine
end

