-- ==== Sys2Proof/Certificates/Slice0/Obligations.lean ====
section
/-! DEFINITION. The statements about the model, for the provers. Each names the rule it formalises. -/

open Sys2Proof Sys2Proof.Machine

/-! ## Encoding -/

/-- Decoding an encoded instruction gives it back, for every operand; and a word that decodes to an instruction is that
instruction's encoding, so each instruction has exactly one word (R56, R57, R60, R61). -/
def Obligations.DecodeAndEncodeAgree : Prop :=
  (∀ i : Instr, decode (encode i) = .instr i) ∧
  (∀ (w : Word) (i : Instr), decode w = .instr i → encode i = w)

/-- R61 by arithmetic on the word's value: the opcode is `w / 2^28`, the start words' reserved field `w / 2^24 mod 16`,
the DATA word's reserved field `w / 2^8 mod 2^20`, the operands `w mod 2^24` (R58) and `w mod 2^8` (R59). -/
def Obligations.DecodingFollowsTheFields : Prop :=
  ∀ w : Word,
    let v := w.toNat
    let op := v / 2 ^ 28
    (op = 1 → v / 2 ^ 24 % 16 = 0 → decode w = .instr (.enc (BitVec.ofNat 24 v))) ∧
    (op = 2 → v / 2 ^ 24 % 16 = 0 → decode w = .instr (.dec (BitVec.ofNat 24 v))) ∧
    (op = 3 → v / 2 ^ 24 % 16 = 0 → decode w = .instr (.crc (BitVec.ofNat 24 v))) ∧
    (op = 1 ∨ op = 2 ∨ op = 3 → v / 2 ^ 24 % 16 ≠ 0 → decode w = .reserved .startBits) ∧
    (op = 4 → v / 2 ^ 8 % 2 ^ 20 = 0 → decode w = .instr (.data (BitVec.ofNat 8 v))) ∧
    (op = 4 → v / 2 ^ 8 % 2 ^ 20 ≠ 0 → decode w = .reserved .dataBits) ∧
    (op = 0 ∨ 5 ≤ op → decode w = .reserved (.opcode (BitVec.ofNat 4 op)))

/-- R60: a word selects an instruction's row when `(w and mask) == match`; no word matches two rows; a word that matches
none is rejected, with `CMDERR` set and nothing else changed (R110). -/
def Obligations.OpcodeMapSelectsByMaskAndMatch : Prop :=
  (∀ w : Word, ((∃ n, decode w = .instr (.enc n)) ↔ w &&& 0xFF000000#32 = 0x10000000#32)) ∧
  (∀ w : Word, ((∃ n, decode w = .instr (.dec n)) ↔ w &&& 0xFF000000#32 = 0x20000000#32)) ∧
  (∀ w : Word, ((∃ n, decode w = .instr (.crc n)) ↔ w &&& 0xFF000000#32 = 0x30000000#32)) ∧
  (∀ w : Word, ((∃ b, decode w = .instr (.data b)) ↔ w &&& 0xFFFFFF00#32 = 0x40000000#32)) ∧
  (∀ (w : Word) (i j : Instr), w &&& rowMask i = rowMatch i → w &&& rowMask j = rowMatch j →
    rowMatch i = rowMatch j) ∧
  (∀ (w : Word) (s : State), (∀ i : Instr, w &&& rowMask i ≠ rowMatch i) →
    onWriteCmd w s = .next { s with status := { s.status with cmderr := true } })

/-- R62: every Reserved word sets `CMDERR` and changes nothing else, in every state. The Reserved words of each kind are
those R62 lists, and the all-zero word is one. -/
def Obligations.ReservedWordsOnlySetCmderr : Prop :=
  (∀ (w : Word) (why : Reserved) (s : State), decode w = .reserved why →
    onWriteCmd w s = .next { s with status := { s.status with cmderr := true } }) ∧
  (∀ w : Word, w.toNat / 2 ^ 28 = 0 ∨ 5 ≤ w.toNat / 2 ^ 28 → ∃ op, decode w = .reserved (.opcode op)) ∧
  (∀ w : Word, 1 ≤ w.toNat / 2 ^ 28 → w.toNat / 2 ^ 28 ≤ 3 → w.toNat / 2 ^ 24 % 16 ≠ 0 →
    decode w = .reserved .startBits) ∧
  (∀ w : Word, w.toNat / 2 ^ 28 = 4 → w.toNat / 2 ^ 8 % 2 ^ 20 ≠ 0 → decode w = .reserved .dataBits) ∧
  decode 0x00000000#32 = .reserved (.opcode 0)

/-- Words written out from the formats of R56 and R57 decode to the instructions they stand for, through the host's
table numbering too. -/
def Obligations.SampleWordsDecode : Prop :=
  decode 0x10000005#32 = .instr (.enc 5) ∧ decode 0x20000008#32 = .instr (.dec 8) ∧
  decode 0x30000009#32 = .instr (.crc 9) ∧ decode 0x400000FB#32 = .instr (.data 0xFB) ∧
  decode 0x10FFFFFF#32 = .instr (.enc 0xFFFFFF) ∧ decode 0x11000000#32 = .reserved .startBits ∧
  decode 0x40000100#32 = .reserved .dataBits ∧ decode 0x50000000#32 = .reserved (.opcode 5) ∧
  decodeTableWord 32 0x20000005 = some (.dec 5) ∧ decodeTableWord 32 0x4000003D = some (.data 0x3D#8)

/-- R63: the word of each assembler line for operands in range, and an assembly error, not a word, out of range. -/
def Obligations.AssemblerLinesGiveTheirWords : Prop :=
  (∀ n : Nat, n ≤ 0xFFFFFF → assemble (.enc n) = some (BitVec.ofNat 32 (0x10000000 + n))) ∧
  (∀ n : Nat, n ≤ 0xFFFFFF → assemble (.dec n) = some (BitVec.ofNat 32 (0x20000000 + n))) ∧
  (∀ n : Nat, n ≤ 0xFFFFFF → assemble (.crc n) = some (BitVec.ofNat 32 (0x30000000 + n))) ∧
  (∀ v : Nat, v ≤ 0xFF → assemble (.data (.num v)) = some (BitVec.ofNat 32 (0x40000000 + v))) ∧
  (∀ c : Char, c.toNat ≤ 0x7F → assemble (.data (.chr c)) = some (BitVec.ofNat 32 (0x40000000 + c.toNat))) ∧
  (∀ w : Nat, w ≤ 0xFFFFFFFF → assemble (.word w) = some (BitVec.ofNat 32 w)) ∧
  (∀ n : Nat, 0xFFFFFF < n →
    assemble (.enc n) = none ∧ assemble (.dec n) = none ∧ assemble (.crc n) = none) ∧
  (∀ v : Nat, 0xFF < v → assemble (.data (.num v)) = none) ∧
  (∀ w : Nat, 0xFFFFFFFF < w → assemble (.word w) = none)

/-- R64: a well-formed pseudo-instruction assembles to the words of its expansion: `bytes` and `text` to one DATA word
per operand or character; `encode`, `decode` and `crc24` to exactly the words by which a host runs that whole job, the
start command with the number of elements and then one DATA word per element. -/
def Obligations.PseudoInstructionsExpandToJobs : Prop :=
  (∀ (p : Platform) (bs : List AsmByte), (Pseudo.bytes bs).wellFormed = true →
    hostProgram p ((expand (.bytes bs)).map .wrCmd) =
      some (bs.map fun b => cmdWrite p (encode (.data (asmByteValue b))))) ∧
  (∀ (p : Platform) (cs : List Char), (Pseudo.text cs).wellFormed = true →
    hostProgram p ((expand (.text cs)).map .wrCmd) =
      some (cs.map fun c => cmdWrite p (encode (.data (BitVec.ofNat 8 c.toNat))))) ∧
  (∀ (p : Platform) (bs : List AsmByte), (Pseudo.encode bs).wellFormed = true →
    hostProgram p ((expand (.encode bs)).map .wrCmd) =
      some (jobInputs p (.enc (BitVec.ofNat 24 bs.length)) (bs.map asmByteValue))) ∧
  (∀ (p : Platform) (cs : List Char), (Pseudo.decode cs).wellFormed = true →
    hostProgram p ((expand (.decode cs)).map .wrCmd) =
      some (jobInputs p (.dec (BitVec.ofNat 24 cs.length)) (cs.map fun c => BitVec.ofNat 8 c.toNat))) ∧
  (∀ (p : Platform) (bs : List AsmByte), (Pseudo.crc24 bs).wellFormed = true →
    hostProgram p ((expand (.crc24 bs)).map .wrCmd) =
      some (jobInputs p (.crc (BitVec.ofNat 24 bs.length)) (bs.map asmByteValue)))

/-! ## The step and the host port -/

/-- A step performs the command word that is written, and so runs the instruction the word decodes to. With no write held
and the next input a write of `w` to `CMD`: what the word does is `onWriteCmd w`, which is `exec i` where `w` decodes to
`i`. If the sink takes all that the word emits, the step answers the word's next state with only the sink's readiness
moved on; with a sink that is always ready the step IS `onWriteCmd w`, or `exec i`, on the state whose input has been
consumed. A Reserved word sets `CMDERR` whatever the sink does (R62, R105, R110). -/
def Obligations.StepRunsTheDecodedInstruction : Prop :=
  (∀ (s t : State) (w : Word) (rest : List Input),
    s.held = none → s.inputs = cmdWrite s.platform w :: rest → onWriteCmd w { s with inputs := rest } = .next t →
    s.sink.untaken (t.out.drop s.out.length) = [] →
    step s = .next { t with sink := s.sink.after (t.out.drop s.out.length) }) ∧
  (∀ (s : State) (w : Word) (rest : List Input),
    s.held = none → s.inputs = cmdWrite s.platform w :: rest → s.sink = .always →
    step s = onWriteCmd w { s with inputs := rest }) ∧
  (∀ (s t : State) (w : Word) (i : Instr) (rest : List Input),
    s.held = none → s.inputs = cmdWrite s.platform w :: rest → decode w = .instr i →
    exec i { s with inputs := rest } = .next t →
    s.sink.untaken (t.out.drop s.out.length) = [] →
    step s = .next { t with sink := s.sink.after (t.out.drop s.out.length) }) ∧
  (∀ (s : State) (w : Word) (i : Instr) (rest : List Input),
    s.held = none → s.inputs = cmdWrite s.platform w :: rest → decode w = .instr i → s.sink = .always →
    step s = exec i { s with inputs := rest }) ∧
  (∀ (s : State) (w : Word) (why : Reserved) (rest : List Input),
    s.held = none → s.inputs = cmdWrite s.platform w :: rest → decode w = .reserved why →
    step s = .next { s with inputs := rest, status := { s.status with cmderr := true } })

/-- R48: a write whose elements the sink does not all take is held. `OUT` has grown by what the sink took, the rest is
kept in order, and no register of the core has changed. -/
def Obligations.RefusedElementsHoldTheWrite : Prop :=
  ∀ (s t : State) (w : Word) (i : Instr) (rest : List Input) (n : Nat),
    s.held = none → s.inputs = cmdWrite s.platform w :: rest → decode w = .instr i →
    exec i { s with inputs := rest } = .next t →
    s.sink = .atMost n → n < (t.out.drop s.out.length).length →
    step s = .next
      { s with
        inputs := rest
        out := s.out ++ (t.out.drop s.out.length).take n
        sink := .atMost 0
        held := some { word := w, untaken := (t.out.drop s.out.length).drop n } }

/-- R47, R48: however the sink delays a write, the write has the effect it would have had at once.
A write to `CMD`, any number of changes of the sink to a limited readiness after it, and at last a sink that is always
ready: the state is that of the word's own effect.
And one step from any held state of the invariant: a readiness for fewer elements than are left hands over that many, in
order, and the hold goes on with no register changed; any other readiness ends it, with the word's effect, and `OUT` has
received exactly the word's elements since the write began. -/
def Obligations.DelayedWriteEndsAsUndelayed : Prop :=
  (∀ (s t : State) (w : Word) (ns : List Nat) (rest : List Input),
    s.held = none →
    s.inputs = cmdWrite s.platform w :: ns.map (fun n => .sinkReady (.atMost n)) ++ .sinkReady .always :: rest →
    onWriteCmd w { s with inputs := rest } = .next t →
    runSteps (ns.length + 2) s = .next { t with sink := .always }) ∧
  (∀ (s : State) (h : HeldWrite) (n : Nat) (rest : List Input),
    s.held = some h → s.inputs = .sinkReady (.atMost n) :: rest → n < h.untaken.length →
    step s = .next { s with
      inputs := rest
      out := s.out ++ h.untaken.take n
      sink := .atMost 0
      held := some { word := h.word, untaken := h.untaken.drop n } }) ∧
  (∀ (s : State) (h : HeldWrite) (r : SinkReady) (rest : List Input),
    s.Inv → s.held = some h → s.inputs = .sinkReady r :: rest →
    (r = .always ∨ ∃ n, r = .atMost n ∧ h.untaken.length ≤ n) →
    ∃ (t : State) (before handed : List Byte),
      onWriteCmd h.word s = .next t ∧
      s.out = before ++ handed ∧ t.out = s.out ++ (handed ++ h.untaken) ∧
      step s = .next { t with
        inputs := rest
        held := none
        out := before ++ (handed ++ h.untaken)
        sink := r.after h.untaken })

/-- R48, R104: the machine makes no step exactly when a `CMD` write is held and neither reset nor a change of the sink
comes next. There is no other stuck condition. -/
def Obligations.HoldIsTheOnlyStuckCondition : Prop :=
  ∀ (s : State) (r : Fault), step s = .fault r ↔
    r = .sinkHold ∧ s.held.isSome = true ∧
      (s.inputs = [] ∨ ∃ a rest, s.inputs = .access a :: rest)

/-- A step is refused exactly when no write is held and the next input is an access that is not a 32-bit access at one of
the four offsets. R43 is the source for an access to the window: of another size, or at an address that is not a multiple
of 4. The rest is the model's: that an access outside the window is refused too (log 10, DEDUCED); that addresses are
natural numbers of no fixed width, compared whole, so that no far address reaches a register (log 26, DESIGN CHOICE,
unsafe: a bus that drops high address bits could serve such an access); that an access behind a held write is not looked
at (log 6, DESIGN CHOICE). -/
def Obligations.RefusedExactlyWhenNotAdmitted : Prop :=
  ∀ s : State, (∃ r, step s = .refused r) ↔
    s.held = none ∧ ∃ rest addr size,
      (s.inputs = .access (.read addr size) :: rest ∨ ∃ v, s.inputs = .access (.write addr size v) :: rest) ∧
      ¬ (size = 4 ∧ (addr = s.platform.pBase ∨ addr = s.platform.pBase + 0x4 ∨
        addr = s.platform.pBase + 0x8 ∨ addr = s.platform.pBase + 0xC))

/-- R111: what each register reads as, the status fields at their bit positions with the codes of `OP` and `ERR` that
R19 and R115 give, and that a read changes nothing but the host's own record of replies. -/
def Obligations.ReadsReturnTheRegisterAndChangeNothing : Prop :=
  (JobOp.none.code = 0#2 ∧ JobOp.enc.code = 1#2 ∧ JobOp.dec.code = 2#2 ∧ JobOp.crc.code = 3#2) ∧
  (CodecError.none.code = 0#2 ∧ CodecError.invalidInputLength.code = 1#2 ∧
    CodecError.invalidCharacter.code = 2#2) ∧
  (∀ (s : State) (rest : List Input), s.held = none →
    (s.inputs = .access (.read (s.platform.pBase + 0x0) 4) :: rest →
      step s = .next { s with inputs := rest, replies := s.replies ++ [0#32] }) ∧
    (s.inputs = .access (.read (s.platform.pBase + 0x4) 4) :: rest →
      step s = .next { s with
        inputs := rest
        replies := s.replies ++ [BitVec.ofNat 32
          (s.status.busy.toNat + 2 * s.status.done.toNat + 4 * s.status.op.code.toNat
            + 16 * s.status.err.code.toNat + 64 * s.status.cmderr.toNat)] }) ∧
    (s.inputs = .access (.read (s.platform.pBase + 0x8) 4) :: rest →
      step s = .next { s with inputs := rest, replies := s.replies ++ [BitVec.ofNat 32 s.result.toNat] }) ∧
    (s.inputs = .access (.read (s.platform.pBase + 0xC) 4) :: rest →
      step s = .next { s with inputs := rest, replies := s.replies ++ [BitVec.ofNat 32 s.remain.toNat] }))

/-- R45: a write to `STATUS`, `RESULT` or `REMAIN` changes no state (only the input is consumed). -/
def Obligations.WritesToReadOnlyRegistersAreIgnored : Prop :=
  ∀ (s : State) (v : Word) (rest : List Input) (r : Reg), s.held = none →
    s.inputs = .access (.write (regAddr s.platform r) 4 v) :: rest → r ≠ .cmd →
    step s = .next { s with inputs := rest }

/-- R130, R35: the reset input, between accesses or during a held write. `STATUS`, `RESULT`, `REMAIN` and `LEN` become 0;
some values are left in `G`, `PEND` and `ACC`; what the sink has taken stays, what it has not is discarded with the held
write; nothing else changes (the count of free values drawn is the model's own, log 3). -/
def Obligations.ResetInputLeavesTheResetState : Prop :=
  ∀ (s : State) (rest : List Input), s.inputs = .reset :: rest →
    ∃ (g : GroupBuffer) (p : Byte) (a : Word) (k : Nat),
      step s = .next { s with
        status := { busy := false, done := false, op := .none, err := .none, cmderr := false }
        result := 0#24, remain := 0#24, len := 0#24, g := g, pend := p, acc := a
        held := none, inputs := rest, freeCtr := k } ∧
      Status.word { busy := false, done := false, op := .none, err := .none, cmderr := false } = 0#32

/-- R104, R129: with nothing asked of it the core does nothing, and a change of the sink while no write is held touches
nothing in the core. (That such a step answers the same state is the model's choice, log 12.) -/
def Obligations.NothingHappensBetweenAccesses : Prop :=
  (∀ s : State, s.held = none → s.inputs = [] → step s = .next s) ∧
  (∀ (s : State) (r : SinkReady) (rest : List Input), s.held = none → s.inputs = .sinkReady r :: rest →
    step s = .next { s with inputs := rest, sink := r })

/-! ## The instructions -/

/-- Every instruction, and every command word whether it decodes to one or not, answers a next state in every state: none
faults, traps or is refused (R105, R110, R114). -/
def Obligations.EveryInstructionCompletes : Prop :=
  (∀ (i : Instr) (s : State), ∃ t, exec i s = .next t) ∧
  (∀ (w : Word) (s : State), ∃ t, onWriteCmd w s = .next t)

/-- R79: ENC accepted, with all it writes and its frame: `RESULT`, the scratch registers, `OUT` and everything else are
unchanged. A zero-length job completes at once. While busy, or with a reserved bit set, it is rejected. (That `G`, `PEND`
and `ACC` keep what they hold is the model's choice, log 4: D30 and I7 call them unspecified at job start.) -/
def Obligations.EncStartsAnEncodeJob : Prop :=
  (∀ n : Word24, encode (.enc n) = 0x10000000#32 ||| n.setWidth 32) ∧
  (∀ (w : Word) (s : State), w.toNat / 2 ^ 28 = 1 → w.toNat / 2 ^ 24 % 16 ≠ 0 →
    onWriteCmd w s = .next { s with status := { s.status with cmderr := true } }) ∧
  (∀ (n : Word24) (s : State), s.status.busy = false →
    exec (.enc n) s = .next { s with
      status := { busy := decide (n ≠ 0#24), done := decide (n = 0#24), op := .enc, err := .none, cmderr := false }
      len := n, remain := n }) ∧
  (∀ (n : Word24) (s t : State), s.status.busy = false → exec (.enc n) s = .next t →
    t.status.word = if n = 0#24 then 0x06#32 else 0x05#32) ∧
  (∀ (n : Word24) (s : State), s.status.busy = true →
    exec (.enc n) s = .next { s with status := { s.status with cmderr := true } })

/-- R92: DEC accepted. A length that is no multiple of 4 sets `ERR = 1` and leaves the job running, to drain; length 0
completes at once; nothing else changes. While busy, or with a reserved bit set, it is rejected. (That `G`, `PEND` and
`ACC` keep what they hold is the model's choice, log 4: D30 and I7 call them unspecified at job start.) -/
def Obligations.DecStartsADecodeJob : Prop :=
  (∀ n : Word24, encode (.dec n) = 0x20000000#32 ||| n.setWidth 32) ∧
  (∀ (w : Word) (s : State), w.toNat / 2 ^ 28 = 2 → w.toNat / 2 ^ 24 % 16 ≠ 0 →
    onWriteCmd w s = .next { s with status := { s.status with cmderr := true } }) ∧
  (∀ (n : Word24) (s : State), s.status.busy = false → n.toNat % 4 ≠ 0 →
    exec (.dec n) s = .next { s with
      status := { busy := true, done := false, op := .dec, err := .invalidInputLength, cmderr := false }
      len := n, remain := n }) ∧
  (∀ (n : Word24) (s : State), s.status.busy = false → n.toNat % 4 = 0 →
    exec (.dec n) s = .next { s with
      status := { busy := decide (n ≠ 0#24), done := decide (n = 0#24), op := .dec, err := .none, cmderr := false }
      len := n, remain := n }) ∧
  (∀ (n : Word24) (s t : State), s.status.busy = false → exec (.dec n) s = .next t →
    t.status.word = if n.toNat % 4 ≠ 0 then 0x19#32 else if n = 0#24 then 0x0A#32 else 0x09#32) ∧
  (∀ (n : Word24) (s : State), s.status.busy = true →
    exec (.dec n) s = .next { s with status := { s.status with cmderr := true } })

/-- R101: CRC accepted. `ACC` takes the initial value; a zero-length job writes it to `RESULT` and completes at once;
otherwise `RESULT` keeps its value; nothing else changes. While busy, or with a reserved bit set, it is rejected. (That
`G` and `PEND` keep what they hold is the model's choice, log 4: D30 and I7 call them unspecified at job start.) -/
def Obligations.CrcStartsAChecksumJob : Prop :=
  (∀ n : Word24, encode (.crc n) = 0x30000000#32 ||| n.setWidth 32) ∧
  (∀ (w : Word) (s : State), w.toNat / 2 ^ 28 = 3 → w.toNat / 2 ^ 24 % 16 ≠ 0 →
    onWriteCmd w s = .next { s with status := { s.status with cmderr := true } }) ∧
  (∀ (n : Word24) (s : State), s.status.busy = false →
    exec (.crc n) s = .next { s with
      status := { busy := decide (n ≠ 0#24), done := decide (n = 0#24), op := .crc, err := .none, cmderr := false }
      len := n, remain := n, acc := 0x00B704CE#32
      result := if n = 0#24 then 0xB704CE#24 else s.result }) ∧
  (∀ (n : Word24) (s t : State), s.status.busy = false → exec (.crc n) s = .next t →
    t.status.word = if n = 0#24 then 0x0E#32 else 0x0D#32) ∧
  (∀ (n : Word24) (s : State), s.status.busy = true →
    exec (.crc n) s = .next { s with status := { s.status with cmderr := true } })

/-- R110: a rejected command word sets `CMDERR` and does nothing else, in exactly the three cases: a Reserved word, a
start while a job runs, a DATA word while none does. Any other word clears `CMDERR` (a start) or leaves it (DATA). -/
def Obligations.RejectionInExactlyThreeCases : Prop :=
  (∀ (w : Word) (s : State),
    ((∃ why, decode w = .reserved why) ∨
     (isStartWord (decode w) = true ∧ s.status.busy = true) ∨
     ((∃ b, decode w = .instr (.data b)) ∧ s.status.busy = false)) →
    onWriteCmd w s = .next { s with status := { s.status with cmderr := true } }) ∧
  (∀ (w : Word) (s t : State), onWriteCmd w s = .next t →
    (isStartWord (decode w) = true ∧ s.status.busy = false → t.status.cmderr = false) ∧
    ((∃ b, decode w = .instr (.data b)) ∧ s.status.busy = true → t.status.cmderr = s.status.cmderr))

/-- R80: DATA in an ENC job, by the position of the byte in its group and whether it is the job's last: what it stores
in `G` and emits. Nothing else changes but the count (R108). -/
def Obligations.DataInAnEncodeJob : Prop :=
  ∀ (b : Byte) (s : State), s.status.busy = true → s.status.op = .enc → s.status.err = .none →
    let p := s.len.toNat - s.remain.toNat
    (p % 3 = 2 → exec (.data b) s = .next
      { s with g := { s.g with g2 := b }, out := s.out ++ encFull s.g.g0 s.g.g1 b }.counted) ∧
    (p % 3 = 0 → s.remain = 1#24 → exec (.data b) s = .next
      { s with g := { s.g with g0 := b }, out := s.out ++ encTail1 b }.counted) ∧
    (p % 3 = 1 → s.remain = 1#24 → exec (.data b) s = .next
      { s with g := { s.g with g1 := b }, out := s.out ++ encTail2 s.g.g0 b }.counted) ∧
    (p % 3 = 0 → s.remain ≠ 1#24 → exec (.data b) s = .next { s with g := { s.g with g0 := b } }.counted) ∧
    (p % 3 = 1 → s.remain ≠ 1#24 → exec (.data b) s = .next { s with g := { s.g with g1 := b } }.counted)

/-- R93, the characters judged at their own word: those before the final group, and the final group's first two. An
invalid one sets `ERR = 2` and stores nothing; a valid one stores its index; the fourth of a group emits the group's three
bytes. Nothing else changes but the count. -/
def Obligations.DataInADecodeJobJudgedAtOnce : Prop :=
  ∀ (c : Byte) (s : State), s.status.busy = true → s.status.op = .dec → s.status.err = .none →
    let p := s.len.toNat - s.remain.toNat
    let final := s.len.toNat - 4
    p < final ∨ p % 4 ≤ 1 →
    (charToIndex c = none → exec (.data c) s = .next
      { s with status := { s.status with err := .invalidCharacter } }.counted) ∧
    (∀ r, charToIndex c = some r →
      (p % 4 = 0 → exec (.data c) s = .next { s with g := { s.g with g0 := r.setWidth 8 } }.counted) ∧
      (p % 4 = 1 → exec (.data c) s = .next { s with g := { s.g with g1 := r.setWidth 8 } }.counted) ∧
      (p % 4 = 2 → exec (.data c) s = .next { s with g := { s.g with g2 := r.setWidth 8 } }.counted) ∧
      (p % 4 = 3 → exec (.data c) s = .next
        { s with
          g := { s.g with g3 := r.setWidth 8 }
          out := s.out ++ reassemble [s.g.g0.setWidth 6, s.g.g1.setWidth 6, s.g.g2.setWidth 6, r] }.counted))

/-- R93, D27: the character at `LEN-2` is kept in `PEND` and not judged, whatever it is. -/
def Obligations.DataInADecodeJobDeferred : Prop :=
  ∀ (c : Byte) (s : State), s.status.busy = true → s.status.op = .dec → s.status.err = .none →
    s.len.toNat - 4 ≤ s.len.toNat - s.remain.toNat → (s.len.toNat - s.remain.toNat) % 4 = 2 →
    exec (.data c) s = .next { s with pend := c }.counted

/-- R93: the character at `LEN-1` decides the final group. Two pads give one byte; one pad gives two bytes if the
deferred character is in the alphabet; no pad gives three if both are. The deferred character is judged first, so an
invalid one ends the group before this character is looked at. -/
def Obligations.DataInADecodeJobDecidesTheFinalGroup : Prop :=
  ∀ (c : Byte) (s : State), s.status.busy = true → s.status.op = .dec → s.status.err = .none →
    s.len.toNat - 4 ≤ s.len.toNat - s.remain.toNat → (s.len.toNat - s.remain.toNat) % 4 = 3 →
    (c = 0x3D#8 → s.pend = 0x3D#8 → exec (.data c) s = .next
      { s with out := s.out ++ reassemble [s.g.g0.setWidth 6, s.g.g1.setWidth 6] }.counted) ∧
    (¬ (c = 0x3D#8 ∧ s.pend = 0x3D#8) → charToIndex s.pend = none → exec (.data c) s = .next
      { s with status := { s.status with err := .invalidCharacter } }.counted) ∧
    (∀ r, c = 0x3D#8 → charToIndex s.pend = some r → exec (.data c) s = .next
      { s with
        g := { s.g with g2 := r.setWidth 8 }
        out := s.out ++ reassemble [s.g.g0.setWidth 6, s.g.g1.setWidth 6, r] }.counted) ∧
    (∀ r, c ≠ 0x3D#8 → charToIndex s.pend = some r → charToIndex c = none → exec (.data c) s = .next
      { s with
        g := { s.g with g2 := r.setWidth 8 }
        status := { s.status with err := .invalidCharacter } }.counted) ∧
    (∀ r q, charToIndex s.pend = some r → charToIndex c = some q → exec (.data c) s = .next
      { s with
        g := { s.g with g2 := r.setWidth 8, g3 := q.setWidth 8 }
        out := s.out ++ reassemble [s.g.g0.setWidth 6, s.g.g1.setWidth 6, r, q] }.counted)

/-- R102: DATA in a CRC job updates `ACC` and, on the last byte, writes its low 24 bits to `RESULT`. Nothing else changes
but the count; in particular nothing is emitted. -/
def Obligations.DataInAChecksumJob : Prop :=
  ∀ (b : Byte) (s : State), s.status.busy = true → s.status.op = .crc → s.status.err = .none →
    exec (.data b) s = .next
      { s with
        acc := crcByte s.acc b
        result := if s.remain = 1#24 then BitVec.ofNat 24 (crcByte s.acc b).toNat else s.result }.counted

/-- R109: once `ERR` is set, a DATA word of the job is accepted, emits nothing and changes no state except `REMAIN`, and
completes the job when `REMAIN` reaches 0. -/
def Obligations.DrainingJobsOnlyCount : Prop :=
  ∀ (b : Byte) (s : State), s.status.busy = true → s.status.err ≠ .none →
    (s.remain ≠ 1#24 → exec (.data b) s = .next { s with remain := s.remain - 1#24 }) ∧
    (s.remain = 1#24 → exec (.data b) s = .next
      { s with remain := 0#24, status := { s.status with busy := false, done := true } })

/-- The frame of DATA in any state with a job running (R108): `LEN`, `OP`, `CMDERR` and everything outside the core stay;
`REMAIN` goes down by one; `OUT` only grows; and each job's body leaves alone what its rule does not name: ENC (R80) leaves
`ERR`, `PEND`, `ACC`, `RESULT` and `G[3]`; DEC (R93) leaves `ACC` and `RESULT`; CRC (R102) leaves `ERR`, `G`, `PEND` and
`OUT`. -/
def Obligations.DataFrame : Prop :=
  ∀ (b : Byte) (s t : State), s.status.busy = true → exec (.data b) s = .next t →
    (t.len = s.len ∧ t.status.op = s.status.op ∧ t.status.cmderr = s.status.cmderr ∧ t.remain = s.remain - 1#24 ∧
      t.held = s.held ∧ t.sink = s.sink ∧ t.inputs = s.inputs ∧ t.replies = s.replies ∧
      t.platform = s.platform ∧ t.freeCtr = s.freeCtr ∧ ∃ es, t.out = s.out ++ es) ∧
    (s.status.op = .enc → t.status.err = s.status.err ∧ t.pend = s.pend ∧ t.acc = s.acc ∧ t.result = s.result ∧
      t.g.g3 = s.g.g3) ∧
    (s.status.op = .dec → t.acc = s.acc ∧ t.result = s.result) ∧
    (s.status.op = .crc → t.status.err = s.status.err ∧ t.g = s.g ∧ t.pend = s.pend ∧ t.out = s.out)

/-! ## The functions -/

/-- R68, R69: both directions of the Symbol Table by its ranges of codes, and every other code INVALID. -/
def Obligations.SymbolTableByRanges : Prop :=
  (∀ i : Index,
    (i.toNat ≤ 25 → (indexToChar i).toNat = 0x41 + i.toNat) ∧
    (26 ≤ i.toNat → i.toNat ≤ 51 → (indexToChar i).toNat = 0x61 + (i.toNat - 26)) ∧
    (52 ≤ i.toNat → i.toNat ≤ 61 → (indexToChar i).toNat = 0x30 + (i.toNat - 52)) ∧
    (i.toNat = 62 → indexToChar i = 0x2B#8) ∧ (i.toNat = 63 → indexToChar i = 0x2F#8) ∧
    indexToChar i ≠ 0x3D#8) ∧
  (∀ c : Byte,
    (0x41 ≤ c.toNat → c.toNat ≤ 0x5A → charToIndex c = some (BitVec.ofNat 6 (c.toNat - 0x41))) ∧
    (0x61 ≤ c.toNat → c.toNat ≤ 0x7A → charToIndex c = some (BitVec.ofNat 6 (c.toNat - 0x61 + 26))) ∧
    (0x30 ≤ c.toNat → c.toNat ≤ 0x39 → charToIndex c = some (BitVec.ofNat 6 (c.toNat - 0x30 + 52))) ∧
    (c = 0x2B#8 → charToIndex c = some 62#6) ∧ (c = 0x2F#8 → charToIndex c = some 63#6) ∧
    (¬ (0x41 ≤ c.toNat ∧ c.toNat ≤ 0x5A) → ¬ (0x61 ≤ c.toNat ∧ c.toNat ≤ 0x7A) →
      ¬ (0x30 ≤ c.toNat ∧ c.toNat ≤ 0x39) → c ≠ 0x2B#8 → c ≠ 0x2F#8 → charToIndex c = none))

/-- R70: the two functions are inverse on the alphabet. -/
def Obligations.SymbolTableIsABijection : Prop :=
  (∀ i : Index, charToIndex (indexToChar i) = some i) ∧
  (∀ (c : Byte) (i : Index), charToIndex c = some i → indexToChar i = c)

/-- R39, R73, R74, R75 by arithmetic on the 24-bit window: a group's indices are the window's four base-64 digits, most
significant first; a short group's missing bytes are zeros at the low end, and `=` stands for each digit they leave
empty. -/
def Obligations.EncoderGroupsAreBase64Digits : Prop :=
  (∀ b0 b1 b2 : Byte,
    let w := b0.toNat * 2 ^ 16 + b1.toNat * 2 ^ 8 + b2.toNat
    encFull b0 b1 b2 = [indexToChar (BitVec.ofNat 6 (w / 2 ^ 18)), indexToChar (BitVec.ofNat 6 (w / 2 ^ 12)),
      indexToChar (BitVec.ofNat 6 (w / 2 ^ 6)), indexToChar (BitVec.ofNat 6 w)]) ∧
  (∀ b0 b1 : Byte,
    let w := b0.toNat * 2 ^ 16 + b1.toNat * 2 ^ 8
    encTail2 b0 b1 = [indexToChar (BitVec.ofNat 6 (w / 2 ^ 18)), indexToChar (BitVec.ofNat 6 (w / 2 ^ 12)),
      indexToChar (BitVec.ofNat 6 (w / 2 ^ 6)), 0x3D#8]) ∧
  (∀ b0 : Byte,
    let w := b0.toNat * 2 ^ 16
    encTail1 b0 = [indexToChar (BitVec.ofNat 6 (w / 2 ^ 18)), indexToChar (BitVec.ofNat 6 (w / 2 ^ 12)), 0x3D#8, 0x3D#8])

/-- R87: `Reassemble` by arithmetic on the indices as base-64 digits: the bytes are the base-256 digits of the value, and
the surplus low bits are discarded. The one-index branch is R88's. -/
def Obligations.ReassembledBytesAreBase256Digits : Prop :=
  ∀ i0 i1 i2 i3 : Index,
    let w := i0.toNat * 2 ^ 18 + i1.toNat * 2 ^ 12 + i2.toNat * 2 ^ 6 + i3.toNat
    reassemble [i0, i1, i2, i3] = [BitVec.ofNat 8 (w / 2 ^ 16), BitVec.ofNat 8 (w / 2 ^ 8), BitVec.ofNat 8 w] ∧
    reassemble [i0, i1, i2] = [BitVec.ofNat 8 (w / 2 ^ 16), BitVec.ofNat 8 (w / 2 ^ 8)] ∧
    reassemble [i0, i1] = [BitVec.ofNat 8 (w / 2 ^ 16)] ∧
    reassemble [i0] = [BitVec.ofNat 8 (i0.toNat * 4)]

/-- R77: `len(Encode(b)) = 4 * ceil(len(b)/3)`. -/
def Obligations.EncodeLengthLaw : Prop :=
  ∀ b : List Byte, (radix64Encode b).length = 4 * ((b.length + 2) / 3)

/-- R78: the output ends in 0, 1 or 2 pads as the length is 0, 2 or 1 modulo 3, every other character is in the
alphabet and is no pad, and the output's length is a multiple of 4. -/
def Obligations.EncodePaddingLaw : Prop :=
  ∀ b : List Byte, (radix64Encode b).length % 4 = 0 ∧ ∃ body : List Byte,
    radix64Encode b = body ++ List.replicate ((3 - b.length % 3) % 3) 0x3D#8 ∧
    ∀ c ∈ body, (charToIndex c).isSome = true ∧ c ≠ 0x3D#8

/-- R91: `Decode(Encode(b)) = (b, Ok)` for every byte sequence. -/
def Obligations.DecodeOfEncodeIsTheInput : Prop :=
  ∀ b : List Byte, radix64Decode (radix64Encode b) = (b, .none)

/-- R83, R84: a length that is no multiple of 4 fails before any character is examined, with no byte written; the empty
text decodes to nothing without error. -/
def Obligations.DecodeChecksTheLengthFirst : Prop :=
  (∀ t : List Byte, t.length % 4 ≠ 0 → radix64Decode t = ([], .invalidInputLength)) ∧
  radix64Decode [] = ([], .none)

/-- R85: the effective length inspects only the last two characters. -/
def Obligations.EffectiveLengthReadsTheLastTwo : Prop :=
  ∀ (pre : List Byte) (x y : Byte),
    (x = 0x3D#8 → y = 0x3D#8 → effectiveLength (pre ++ [x, y]) = pre.length) ∧
    (x ≠ 0x3D#8 → y = 0x3D#8 → effectiveLength (pre ++ [x, y]) = pre.length + 1) ∧
    (y ≠ 0x3D#8 → effectiveLength (pre ++ [x, y]) = pre.length + 2)

/-- R86, R119: text whose complete groups before some later group are those of the bytes `b`, and whose next group holds
an invalid character in the effective range, decodes to exactly `b` with `InvalidCharacter`. In a group that is not final
every character is in the effective range, and whatever follows is not examined; in the final group it is the characters
before the pads (R85). -/
def Obligations.InvalidCharacterEndsDecode : Prop :=
  (∀ b grp post : List Byte, b.length % 3 = 0 → grp.length = 4 → post ≠ [] → post.length % 4 = 0 →
    (∃ c ∈ grp, charToIndex c = none) →
    radix64Decode (radix64Encode b ++ grp ++ post) = (b, .invalidCharacter)) ∧
  (∀ (b : List Byte) (c0 c1 c2 c3 : Byte), b.length % 3 = 0 →
    (charToIndex c0 = none ∨ charToIndex c1 = none ∨
      (¬ (c2 = 0x3D#8 ∧ c3 = 0x3D#8) ∧ charToIndex c2 = none) ∨ (c3 ≠ 0x3D#8 ∧ charToIndex c3 = none)) →
    radix64Decode (radix64Encode b ++ [c0, c1, c2, c3]) = (b, .invalidCharacter))

/-- R90: the discarded low bits of the last index are not checked: two texts that differ only there decode alike. -/
def Obligations.DiscardedBitsAreNotChecked : Prop :=
  (∀ (pre : List Byte) (c0 c1 x y : Byte) (i j : Index), pre.length % 4 = 0 →
    charToIndex x = some i → charToIndex y = some j → i.toNat / 4 = j.toNat / 4 →
    radix64Decode (pre ++ [c0, c1, x, 0x3D#8]) = radix64Decode (pre ++ [c0, c1, y, 0x3D#8])) ∧
  (∀ (pre : List Byte) (c0 x y : Byte) (i j : Index), pre.length % 4 = 0 →
    charToIndex x = some i → charToIndex y = some j → i.toNat / 16 = j.toNat / 16 →
    radix64Decode (pre ++ [c0, x, 0x3D#8, 0x3D#8]) = radix64Decode (pre ++ [c0, y, 0x3D#8, 0x3D#8]))

/-- R89: the last group of the effective range holds 2, 3 or 4 characters, never 1. -/
def Obligations.LastGroupNeverHoldsOneCharacter : Prop :=
  ∀ t : List Byte, t ≠ [] → t.length % 4 = 0 →
    effectiveLength t % 4 ≠ 1 ∧ t.length - 4 + 2 ≤ effectiveLength t ∧ effectiveLength t ≤ t.length

/-- R141: a text that decodes without error gives three bytes for each group less one for each pad. -/
def Obligations.DecodedLengthCountsPads : Prop :=
  ∀ (t out : List Byte), radix64Decode t = (out, .none) →
    out.length + (t.length - effectiveLength t) = 3 * (t.length / 4)

/-- R97: from a value below 2^24 every round, and so every byte, leaves a value below 2^24, and the register then equals
its low 24 bits. The initial value is below 2^24. -/
def Obligations.CrcRegisterStaysBelowBit24 : Prop :=
  crcInit.toNat < 2 ^ 24 ∧
  (∀ acc : Word, acc.toNat < 2 ^ 24 → (crcRound acc).toNat < 2 ^ 24) ∧
  (∀ (acc : Word) (x : Byte), acc.toNat < 2 ^ 24 → (crcByte acc x).toNat < 2 ^ 24) ∧
  (∀ acc : Word, acc.toNat < 2 ^ 24 → (crcValue acc).toNat = acc.toNat)

/-- R98: `Crc24([]) = 0xB704CE`; with it the vectors CV-3 (one zero byte) and CV-2 ("123456789") of
95_test_vectors.md. -/
def Obligations.CrcOfTheEmptySequence : Prop :=
  crc24 [] = 0xB704CE#24 ∧ crc24 [0x00#8] = 0x6169D3#24 ∧
    crc24 [0x31#8, 0x32#8, 0x33#8, 0x34#8, 0x35#8, 0x36#8, 0x37#8, 0x38#8, 0x39#8] = 0x21CF02#24

/-- R95, R96: how one byte enters the register (bits 23:16) and the eight rounds that follow, for every register value and
every byte; and the checksum of a sequence, byte by byte from 0x00B704CE, as the register's low 24 bits. -/
def Obligations.CrcByteXorsTheByteAndRunsEightRounds : Prop :=
  (∀ (acc : Word) (x : Byte),
    crcByte acc x =
      (fun a : Word =>
        if (2 * a.toNat) / 2 ^ 24 % 2 = 1 then BitVec.ofNat 32 (2 * a.toNat) ^^^ 0x01864CFB#32
        else BitVec.ofNat 32 (2 * a.toNat))^[8] (acc ^^^ BitVec.ofNat 32 (x.toNat * 2 ^ 16))) ∧
  (∀ b : List Byte, (crc24 b).toNat = (b.foldl crcByte 0x00B704CE#32).toNat % 2 ^ 24)

/-- R100: changing any one byte of the input, so any single bit of it, changes the checksum. (R100 states this from
general knowledge; it is a consequence here, not built in.) -/
def Obligations.ChangingOneByteChangesTheChecksum : Prop :=
  ∀ (pre post : List Byte) (x y : Byte), x ≠ y → crc24 (pre ++ x :: post) ≠ crc24 (pre ++ y :: post)

/-! ## Whole jobs -/

/-- R81: an `enc n` accepted while no job runs, and then its n DATA words, append exactly `Encode` of the bytes to `OUT`
and end with `STATUS = 0x06`, `REMAIN = 0` and `RESULT` unchanged, one step a word, with a sink that takes every
element. -/
def Obligations.EncJobProducesEncode : Prop :=
  ∀ (s : State) (b : List Byte) (rest : List Input),
    s.held = none → s.sink = .always → s.status.busy = false → b.length < 2 ^ 24 →
    s.inputs = jobInputs s.platform (.enc (BitVec.ofNat 24 b.length)) b ++ rest →
    ∃ t, runSteps (b.length + 1) s = .next t ∧
      t.out = s.out ++ radix64Encode b ∧ t.status.word = 0x06#32 ∧ t.remain = 0#24 ∧ t.result = s.result ∧
      t.inputs = rest ∧ t.held = none

/-- R81, the prefix clause: after k of the n DATA words, k < n, the elements appended are `Encode` of the complete groups
among the k bytes. -/
def Obligations.EncJobLagsByAtMostTwoBytes : Prop :=
  ∀ (s : State) (b : List Byte) (rest : List Input) (k : Nat),
    s.held = none → s.sink = .always → s.status.busy = false → b.length < 2 ^ 24 → k < b.length →
    s.inputs = jobInputs s.platform (.enc (BitVec.ofNat 24 b.length)) b ++ rest →
    ∃ t, runSteps (k + 1) s = .next t ∧ t.out = s.out ++ radix64Encode (b.take (3 * (k / 3))) ∧
      t.status.word = 0x05#32 ∧ t.remain.toNat = b.length - k

/-- R94: a `dec n` accepted while no job runs, and then its n DATA words, append exactly the bytes of `Decode` to `OUT`
and end with its error in `ERR` (0, 1 or 2 as read), `BUSY = 0`, `DONE = 1`, `OP = 2` and `REMAIN = 0`, for every text,
valid or not. -/
def Obligations.DecJobProducesDecode : Prop :=
  ∀ (s : State) (txt : List Byte) (rest : List Input),
    s.held = none → s.sink = .always → s.status.busy = false → txt.length < 2 ^ 24 →
    s.inputs = jobInputs s.platform (.dec (BitVec.ofNat 24 txt.length)) txt ++ rest →
    ∃ t, runSteps (txt.length + 1) s = .next t ∧
      t.out = s.out ++ (radix64Decode txt).1 ∧
      t.status = { busy := false, done := true, op := .dec, err := (radix64Decode txt).2, cmderr := false } ∧
      ((radix64Decode txt).2 = .none → t.status.word = 0x0A#32) ∧
      ((radix64Decode txt).2 = .invalidInputLength → t.status.word = 0x1A#32) ∧
      ((radix64Decode txt).2 = .invalidCharacter → t.status.word = 0x2A#32) ∧
      t.remain = 0#24 ∧ t.result = s.result ∧ t.inputs = rest ∧ t.held = none

/-- R103: a `crc n` accepted while no job runs, and then its n DATA words, end with `Crc24` of the bytes in `RESULT`,
`STATUS = 0x0E` and `REMAIN = 0`, and append nothing to `OUT`. -/
def Obligations.CrcJobProducesCrc24 : Prop :=
  ∀ (s : State) (b : List Byte) (rest : List Input),
    s.held = none → s.status.busy = false → b.length < 2 ^ 24 →
    s.inputs = jobInputs s.platform (.crc (BitVec.ofNat 24 b.length)) b ++ rest →
    ∃ t, runSteps (b.length + 1) s = .next t ∧
      t.result = crc24 b ∧ readReg .result t = BitVec.ofNat 32 (crc24 b).toNat ∧ t.status.word = 0x0E#32 ∧
      t.remain = 0#24 ∧ t.out = s.out ∧
      t.inputs = rest ∧ t.held = none

/-- R136: a job of n elements takes exactly n DATA words, whatever they are and whether or not it fails: after k < n of
them it still runs and expects n - k; after all n it has completed; a further DATA word is rejected. -/
def Obligations.JobsTakeExactlyTheirWords : Prop :=
  ∀ (s : State) (b : List Byte) (start : Instr) (extra : Byte) (rest : List Input),
    s.held = none → s.sink = .always → s.status.busy = false → b.length < 2 ^ 24 →
    (start = .enc (BitVec.ofNat 24 b.length) ∨ start = .dec (BitVec.ofNat 24 b.length) ∨
      start = .crc (BitVec.ofNat 24 b.length)) →
    s.inputs = jobInputs s.platform start b ++ cmdWrite s.platform (encode (.data extra)) :: rest →
    (∀ k, k < b.length → ∃ t, runSteps (k + 1) s = .next t ∧ t.status.busy = true ∧ t.status.done = false ∧
      t.status.cmderr = false ∧ t.remain.toNat = b.length - k) ∧
    (∃ t, runSteps (b.length + 1) s = .next t ∧ t.status.busy = false ∧ t.status.done = true ∧
      t.status.cmderr = false ∧ t.remain = 0#24 ∧
      runSteps (b.length + 2) s = .next
        { t with status := { t.status with cmderr := true }, inputs := rest })

/-! ## The whole machine -/

/-- The invariant of the core (Safety.lean) is kept by every step, from every state that meets it. -/
def Obligations.StepKeepsTheInvariant : Prop :=
  ∀ s t : State, s.Inv → step s = .next t → t.Inv

/-- The state after reset meets the invariant. -/
def Obligations.ResetMeetsTheInvariant : Prop := State.reset.Inv

/-- R31, R41: a step only appends to `OUT`, and reset appends nothing. An ENC job appends alphabet characters and pads, a
CRC job nothing. No step moves `P_BASE` or forgets a reply already given (R8; the model's own fields). -/
def Obligations.OutOnlyGrows : Prop :=
  ∀ s t : State, s.Inv → step s = .next t →
    (∃ es, t.out = s.out ++ es ∧
      (s.resetsNext = true → es = []) ∧
      (s.status.op = .enc → ∀ c ∈ es, c = 0x3D#8 ∨ (charToIndex c).isSome = true) ∧
      (s.status.op = .crc ∨ s.status.op = .none → es = [])) ∧
    t.platform = s.platform ∧ ∃ vs, t.replies = s.replies ++ vs

/-- R25: only the completion of a CRC job and reset change `RESULT`. -/
def Obligations.ResultChangesOnlyAtCrcCompletion : Prop :=
  ∀ s t : State, step s = .next t → t.result ≠ s.result →
    (s.resetsNext = true ∧ t.result = 0#24) ∨
      (t.status.op = .crc ∧ t.status.busy = false ∧ t.status.done = true ∧ t.result = crcValue t.acc)

/-- R22, R23, R24, R27: outside an accepted start command and reset, `OP` and `LEN` keep their values; `ERR` changes only
from 0 to InvalidCharacter in a running DEC job, and never once non-zero; `CMDERR` is never cleared. And `CMDERR` rises
only at a step in which, with no write held, a rejected word is written to `CMD`: a Reserved word, a start word while a
job runs, or a DATA word while none does (R110). A write
to `CMD` is one at exactly `P_BASE`, an unbounded number (log 26, DESIGN CHOICE, unsafe). -/
def Obligations.StatusFieldsKeepTheirValues : Prop :=
  ∀ s t : State, s.Inv → step s = .next t →
    (s.resetsNext = false → s.startsJob = false →
      t.status.op = s.status.op ∧ t.len = s.len ∧
      (s.status.err ≠ .none → t.status.err = s.status.err) ∧
      (t.status.err ≠ s.status.err →
        t.status.err = .invalidCharacter ∧ s.status.op = .dec ∧ s.status.busy = true) ∧
      (s.status.cmderr = true → t.status.cmderr = true)) ∧
    (s.status.cmderr = false → t.status.cmderr = true →
      s.held = none ∧ ∃ w rest, s.inputs = cmdWrite s.platform w :: rest ∧
        ((∃ why, decode w = .reserved why) ∨
         (isStartWord (decode w) = true ∧ s.status.busy = true) ∨
         ((∃ b, decode w = .instr (.data b)) ∧ s.status.busy = false)))

/-- R20, R21: `BUSY` is raised only by an accepted start command, and then `DONE` falls; `BUSY` falls only at the job's
last word, with `DONE` raised, or at reset; `DONE` is raised only by a completion, and falls only at an accepted start
command or reset. A start is written at exactly `P_BASE`, an unbounded number (log 26, DESIGN CHOICE, unsafe). -/
def Obligations.BusyAndDoneFollowTheJob : Prop :=
  ∀ s t : State, s.Inv → step s = .next t →
    (s.status.busy = false → t.status.busy = true → s.startsJob = true ∧ t.status.done = false) ∧
    (s.status.busy = true → t.status.busy = false →
      (s.resetsNext = true ∧ t.status.done = false) ∨ (t.status.done = true ∧ s.remain = 1#24)) ∧
    (s.status.done = false → t.status.done = true → s.remain = 1#24 ∨ (s.startsJob = true ∧ t.len = 0#24)) ∧
    (s.status.done = true → t.status.done = false → s.resetsNext = true ∨ s.startsJob = true)

/-- R47, R49: while a write is held no other access is served, and no register of the core has changed until the write
completes: a later read sees all of a word's effects or none. -/
def Obligations.HeldWritesAreAtomic : Prop :=
  ∀ s t : State, step s = .next t →
    (s.held.isSome = true → t.replies = s.replies) ∧
    (t.held.isSome = true →
      t.status = s.status ∧ t.result = s.result ∧ t.remain = s.remain ∧ t.len = s.len ∧ t.g = s.g ∧
      t.pend = s.pend ∧ t.acc = s.acc)

/-- R117: the word at which `ERR` becomes InvalidCharacter stood at position `LEN - REMAIN - 1`, `REMAIN` read after it. -/
def Obligations.ErrorPositionFromRemain : Prop :=
  ∀ (s t : State) (c : Byte), s.Inv → s.status.busy = true → s.status.err = .none →
    exec (.data c) s = .next t → t.status.err = .invalidCharacter →
    t.len.toNat - t.remain.toNat - 1 = s.pos ∧ s.status.op = .dec ∧
      (charToIndex c = none ∨ (s.pos = s.len.toNat - 1 ∧ charToIndex s.pend = none))

/-- R28, R29, R30, D30: what the scratch registers hold while no job runs is never observed. Two idle states that differ
only there give, under the same inputs, the same outcome as far as anyone outside can see, however long they run. -/
def Obligations.ScratchIsNeverObserved : Prop :=
  ∀ (n : Nat) (s t : State), s.status.busy = false → s.held = none → s.visible = t.visible →
    visibleOutcome (runSteps n s) = visibleOutcome (runSteps n t)
end

