-- ==== Sys2Proof/Laws/State.lean ====
section
/-! SUPPORT. What each shared update of the state leaves in each field, so that no later proof unfolds a record. -/

namespace Sys2Proof.Machine

/-! ### setGroup -/

@[simp] theorem setGroup_status (k : Fin 4) (b : Byte) (s : State) : (setGroup k b s).status = s.status := rfl
@[simp] theorem setGroup_result (k : Fin 4) (b : Byte) (s : State) : (setGroup k b s).result = s.result := rfl
@[simp] theorem setGroup_remain (k : Fin 4) (b : Byte) (s : State) : (setGroup k b s).remain = s.remain := rfl
@[simp] theorem setGroup_len (k : Fin 4) (b : Byte) (s : State) : (setGroup k b s).len = s.len := rfl
@[simp] theorem setGroup_g (k : Fin 4) (b : Byte) (s : State) : (setGroup k b s).g = s.g.set k b := rfl
@[simp] theorem setGroup_pend (k : Fin 4) (b : Byte) (s : State) : (setGroup k b s).pend = s.pend := rfl
@[simp] theorem setGroup_acc (k : Fin 4) (b : Byte) (s : State) : (setGroup k b s).acc = s.acc := rfl
@[simp] theorem setGroup_out (k : Fin 4) (b : Byte) (s : State) : (setGroup k b s).out = s.out := rfl
@[simp] theorem setGroup_held (k : Fin 4) (b : Byte) (s : State) : (setGroup k b s).held = s.held := rfl
@[simp] theorem setGroup_sink (k : Fin 4) (b : Byte) (s : State) : (setGroup k b s).sink = s.sink := rfl
@[simp] theorem setGroup_inputs (k : Fin 4) (b : Byte) (s : State) : (setGroup k b s).inputs = s.inputs := rfl
@[simp] theorem setGroup_replies (k : Fin 4) (b : Byte) (s : State) : (setGroup k b s).replies = s.replies := rfl
@[simp] theorem setGroup_platform (k : Fin 4) (b : Byte) (s : State) : (setGroup k b s).platform = s.platform := rfl
@[simp] theorem setGroup_freeCtr (k : Fin 4) (b : Byte) (s : State) : (setGroup k b s).freeCtr = s.freeCtr := rfl

/-! ### emitAll -/

@[simp] theorem emitAll_status (es : List Byte) (s : State) : (emitAll es s).status = s.status := rfl
@[simp] theorem emitAll_result (es : List Byte) (s : State) : (emitAll es s).result = s.result := rfl
@[simp] theorem emitAll_remain (es : List Byte) (s : State) : (emitAll es s).remain = s.remain := rfl
@[simp] theorem emitAll_len (es : List Byte) (s : State) : (emitAll es s).len = s.len := rfl
@[simp] theorem emitAll_g (es : List Byte) (s : State) : (emitAll es s).g = s.g := rfl
@[simp] theorem emitAll_pend (es : List Byte) (s : State) : (emitAll es s).pend = s.pend := rfl
@[simp] theorem emitAll_acc (es : List Byte) (s : State) : (emitAll es s).acc = s.acc := rfl
@[simp] theorem emitAll_out (es : List Byte) (s : State) : (emitAll es s).out = s.out ++ es := rfl
@[simp] theorem emitAll_held (es : List Byte) (s : State) : (emitAll es s).held = s.held := rfl
@[simp] theorem emitAll_sink (es : List Byte) (s : State) : (emitAll es s).sink = s.sink := rfl
@[simp] theorem emitAll_inputs (es : List Byte) (s : State) : (emitAll es s).inputs = s.inputs := rfl
@[simp] theorem emitAll_replies (es : List Byte) (s : State) : (emitAll es s).replies = s.replies := rfl
@[simp] theorem emitAll_platform (es : List Byte) (s : State) : (emitAll es s).platform = s.platform := rfl
@[simp] theorem emitAll_freeCtr (es : List Byte) (s : State) : (emitAll es s).freeCtr = s.freeCtr := rfl

/-! ### startCommon -/

@[simp] theorem startCommon_status (op : JobOp) (n : Word24) (s : State) : (startCommon op n s).status = { busy := true, done := false, op := op, err := .none, cmderr := false } := rfl
@[simp] theorem startCommon_result (op : JobOp) (n : Word24) (s : State) : (startCommon op n s).result = s.result := rfl
@[simp] theorem startCommon_remain (op : JobOp) (n : Word24) (s : State) : (startCommon op n s).remain = n := rfl
@[simp] theorem startCommon_len (op : JobOp) (n : Word24) (s : State) : (startCommon op n s).len = n := rfl
@[simp] theorem startCommon_g (op : JobOp) (n : Word24) (s : State) : (startCommon op n s).g = s.g := rfl
@[simp] theorem startCommon_pend (op : JobOp) (n : Word24) (s : State) : (startCommon op n s).pend = s.pend := rfl
@[simp] theorem startCommon_acc (op : JobOp) (n : Word24) (s : State) : (startCommon op n s).acc = s.acc := rfl
@[simp] theorem startCommon_out (op : JobOp) (n : Word24) (s : State) : (startCommon op n s).out = s.out := rfl
@[simp] theorem startCommon_held (op : JobOp) (n : Word24) (s : State) : (startCommon op n s).held = s.held := rfl
@[simp] theorem startCommon_sink (op : JobOp) (n : Word24) (s : State) : (startCommon op n s).sink = s.sink := rfl
@[simp] theorem startCommon_inputs (op : JobOp) (n : Word24) (s : State) : (startCommon op n s).inputs = s.inputs := rfl
@[simp] theorem startCommon_replies (op : JobOp) (n : Word24) (s : State) : (startCommon op n s).replies = s.replies := rfl
@[simp] theorem startCommon_platform (op : JobOp) (n : Word24) (s : State) : (startCommon op n s).platform = s.platform := rfl
@[simp] theorem startCommon_freeCtr (op : JobOp) (n : Word24) (s : State) : (startCommon op n s).freeCtr = s.freeCtr := rfl

/-! ### complete -/

@[simp] theorem complete_status (s : State) : (complete s).status = { s.status with busy := false, done := true } := rfl
@[simp] theorem complete_result (s : State) : (complete s).result = s.result := rfl
@[simp] theorem complete_remain (s : State) : (complete s).remain = s.remain := rfl
@[simp] theorem complete_len (s : State) : (complete s).len = s.len := rfl
@[simp] theorem complete_g (s : State) : (complete s).g = s.g := rfl
@[simp] theorem complete_pend (s : State) : (complete s).pend = s.pend := rfl
@[simp] theorem complete_acc (s : State) : (complete s).acc = s.acc := rfl
@[simp] theorem complete_out (s : State) : (complete s).out = s.out := rfl
@[simp] theorem complete_held (s : State) : (complete s).held = s.held := rfl
@[simp] theorem complete_sink (s : State) : (complete s).sink = s.sink := rfl
@[simp] theorem complete_inputs (s : State) : (complete s).inputs = s.inputs := rfl
@[simp] theorem complete_replies (s : State) : (complete s).replies = s.replies := rfl
@[simp] theorem complete_platform (s : State) : (complete s).platform = s.platform := rfl
@[simp] theorem complete_freeCtr (s : State) : (complete s).freeCtr = s.freeCtr := rfl

/-! ### raiseCodecError -/

@[simp] theorem raiseCodecError_status (e : CodecError) (s : State) : (raiseCodecError e s).status = { s.status with err := e } := rfl
@[simp] theorem raiseCodecError_result (e : CodecError) (s : State) : (raiseCodecError e s).result = s.result := rfl
@[simp] theorem raiseCodecError_remain (e : CodecError) (s : State) : (raiseCodecError e s).remain = s.remain := rfl
@[simp] theorem raiseCodecError_len (e : CodecError) (s : State) : (raiseCodecError e s).len = s.len := rfl
@[simp] theorem raiseCodecError_g (e : CodecError) (s : State) : (raiseCodecError e s).g = s.g := rfl
@[simp] theorem raiseCodecError_pend (e : CodecError) (s : State) : (raiseCodecError e s).pend = s.pend := rfl
@[simp] theorem raiseCodecError_acc (e : CodecError) (s : State) : (raiseCodecError e s).acc = s.acc := rfl
@[simp] theorem raiseCodecError_out (e : CodecError) (s : State) : (raiseCodecError e s).out = s.out := rfl
@[simp] theorem raiseCodecError_held (e : CodecError) (s : State) : (raiseCodecError e s).held = s.held := rfl
@[simp] theorem raiseCodecError_sink (e : CodecError) (s : State) : (raiseCodecError e s).sink = s.sink := rfl
@[simp] theorem raiseCodecError_inputs (e : CodecError) (s : State) : (raiseCodecError e s).inputs = s.inputs := rfl
@[simp] theorem raiseCodecError_replies (e : CodecError) (s : State) : (raiseCodecError e s).replies = s.replies := rfl
@[simp] theorem raiseCodecError_platform (e : CodecError) (s : State) : (raiseCodecError e s).platform = s.platform := rfl
@[simp] theorem raiseCodecError_freeCtr (e : CodecError) (s : State) : (raiseCodecError e s).freeCtr = s.freeCtr := rfl

/-! ### rejectCommand -/

@[simp] theorem rejectCommand_status (s : State) : (rejectCommand s).status = { s.status with cmderr := true } := rfl
@[simp] theorem rejectCommand_result (s : State) : (rejectCommand s).result = s.result := rfl
@[simp] theorem rejectCommand_remain (s : State) : (rejectCommand s).remain = s.remain := rfl
@[simp] theorem rejectCommand_len (s : State) : (rejectCommand s).len = s.len := rfl
@[simp] theorem rejectCommand_g (s : State) : (rejectCommand s).g = s.g := rfl
@[simp] theorem rejectCommand_pend (s : State) : (rejectCommand s).pend = s.pend := rfl
@[simp] theorem rejectCommand_acc (s : State) : (rejectCommand s).acc = s.acc := rfl
@[simp] theorem rejectCommand_out (s : State) : (rejectCommand s).out = s.out := rfl
@[simp] theorem rejectCommand_held (s : State) : (rejectCommand s).held = s.held := rfl
@[simp] theorem rejectCommand_sink (s : State) : (rejectCommand s).sink = s.sink := rfl
@[simp] theorem rejectCommand_inputs (s : State) : (rejectCommand s).inputs = s.inputs := rfl
@[simp] theorem rejectCommand_replies (s : State) : (rejectCommand s).replies = s.replies := rfl
@[simp] theorem rejectCommand_platform (s : State) : (rejectCommand s).platform = s.platform := rfl
@[simp] theorem rejectCommand_freeCtr (s : State) : (rejectCommand s).freeCtr = s.freeCtr := rfl

/-! ### resetCore -/

@[simp] theorem resetCore_status (s : State) : (resetCore s).status = Status.reset := rfl
@[simp] theorem resetCore_result (s : State) : (resetCore s).result = 0#24 := rfl
@[simp] theorem resetCore_remain (s : State) : (resetCore s).remain = 0#24 := rfl
@[simp] theorem resetCore_len (s : State) : (resetCore s).len = 0#24 := rfl
@[simp] theorem resetCore_out (s : State) : (resetCore s).out = s.out := rfl
@[simp] theorem resetCore_held (s : State) : (resetCore s).held = Option.none := rfl
@[simp] theorem resetCore_sink (s : State) : (resetCore s).sink = s.sink := rfl
@[simp] theorem resetCore_inputs (s : State) : (resetCore s).inputs = s.inputs := rfl
@[simp] theorem resetCore_replies (s : State) : (resetCore s).replies = s.replies := rfl
@[simp] theorem resetCore_platform (s : State) : (resetCore s).platform = s.platform := rfl
@[simp] theorem resetCore_freeCtr (s : State) : (resetCore s).freeCtr = s.freeCtr + 6 := rfl

/-! ### counted -/

theorem counted_status (s : State) :
    s.counted.status = if s.remain = 1#24 then { s.status with busy := false, done := true } else s.status := rfl
@[simp] theorem counted_result (s : State) : s.counted.result = s.result := rfl
@[simp] theorem counted_remain (s : State) : s.counted.remain = s.remain - 1#24 := rfl
@[simp] theorem counted_len (s : State) : s.counted.len = s.len := rfl
@[simp] theorem counted_g (s : State) : s.counted.g = s.g := rfl
@[simp] theorem counted_pend (s : State) : s.counted.pend = s.pend := rfl
@[simp] theorem counted_acc (s : State) : s.counted.acc = s.acc := rfl
@[simp] theorem counted_out (s : State) : s.counted.out = s.out := rfl
@[simp] theorem counted_held (s : State) : s.counted.held = s.held := rfl
@[simp] theorem counted_sink (s : State) : s.counted.sink = s.sink := rfl
@[simp] theorem counted_inputs (s : State) : s.counted.inputs = s.inputs := rfl
@[simp] theorem counted_replies (s : State) : s.counted.replies = s.replies := rfl
@[simp] theorem counted_platform (s : State) : s.counted.platform = s.platform := rfl
@[simp] theorem counted_freeCtr (s : State) : s.counted.freeCtr = s.freeCtr := rfl

@[simp] theorem counted_busy (s : State) :
    s.counted.status.busy = if s.remain = 1#24 then false else s.status.busy := by
  rw [counted_status]; by_cases h : s.remain = 1#24 <;> simp only [h, if_true, if_false]

@[simp] theorem counted_done (s : State) :
    s.counted.status.done = if s.remain = 1#24 then true else s.status.done := by
  rw [counted_status]; by_cases h : s.remain = 1#24 <;> simp only [h, if_true, if_false]

@[simp] theorem counted_op (s : State) : s.counted.status.op = s.status.op := by
  rw [counted_status]; by_cases h : s.remain = 1#24 <;> simp only [h, if_true, if_false]

@[simp] theorem counted_err (s : State) : s.counted.status.err = s.status.err := by
  rw [counted_status]; by_cases h : s.remain = 1#24 <;> simp only [h, if_true, if_false]

@[simp] theorem counted_cmderr (s : State) : s.counted.status.cmderr = s.status.cmderr := by
  rw [counted_status]; by_cases h : s.remain = 1#24 <;> simp only [h, if_true, if_false]

/-! ### visible -/

@[simp] theorem visible_status (s : State) : s.visible.status = s.status := rfl
@[simp] theorem visible_result (s : State) : s.visible.result = s.result := rfl
@[simp] theorem visible_remain (s : State) : s.visible.remain = s.remain := rfl
@[simp] theorem visible_len (s : State) : s.visible.len = s.len := rfl
@[simp] theorem visible_out (s : State) : s.visible.out = s.out := rfl
@[simp] theorem visible_held (s : State) : s.visible.held = s.held := rfl
@[simp] theorem visible_sink (s : State) : s.visible.sink = s.sink := rfl
@[simp] theorem visible_inputs (s : State) : s.visible.inputs = s.inputs := rfl
@[simp] theorem visible_replies (s : State) : s.visible.replies = s.replies := rfl
@[simp] theorem visible_platform (s : State) : s.visible.platform = s.platform := rfl
@[simp] theorem visible_freeCtr (s : State) : s.visible.freeCtr = s.freeCtr := rfl

/-! ### The group buffer: a read after a write -/

@[simp] theorem GroupBuffer.get_set_self (g : GroupBuffer) (k : Fin 4) (b : Byte) : (g.set k b).get k = b := by
  match k with
  | 0 => rfl
  | 1 => rfl
  | 2 => rfl
  | 3 => rfl

theorem GroupBuffer.get_set_other (g : GroupBuffer) (j k : Fin 4) (b : Byte) (h : j ≠ k) :
    (g.set k b).get j = g.get j := by
  match j, k with
  | 0, 0 | 1, 1 | 2, 2 | 3, 3 => exact absurd rfl h
  | 0, 1 | 0, 2 | 0, 3 | 1, 0 | 1, 2 | 1, 3 | 2, 0 | 2, 1 | 2, 3 | 3, 0 | 3, 1 | 3, 2 => rfl

@[simp] theorem GroupBuffer.set_0 (g : GroupBuffer) (b : Byte) : g.set 0 b = { g with g0 := b } := rfl
@[simp] theorem GroupBuffer.set_1 (g : GroupBuffer) (b : Byte) : g.set 1 b = { g with g1 := b } := rfl
@[simp] theorem GroupBuffer.set_2 (g : GroupBuffer) (b : Byte) : g.set 2 b = { g with g2 := b } := rfl
@[simp] theorem GroupBuffer.set_3 (g : GroupBuffer) (b : Byte) : g.set 3 b = { g with g3 := b } := rfl

@[simp] theorem GroupBuffer.get_0 (g : GroupBuffer) : g.get 0 = g.g0 := rfl
@[simp] theorem GroupBuffer.get_1 (g : GroupBuffer) : g.get 1 = g.g1 := rfl
@[simp] theorem GroupBuffer.get_2 (g : GroupBuffer) : g.get 2 = g.g2 := rfl
@[simp] theorem GroupBuffer.get_3 (g : GroupBuffer) : g.get 3 = g.g3 := rfl

end Sys2Proof.Machine
end

