-- ==== Sys2Proof/Laws/Ops.lean ====
section
/-! SUPPORT. One lemma for each shared operation that says all it can do: counting an element, the sink, admission of an
access, the slots of a group. -/

namespace Sys2Proof.Machine

/-- `REMAIN - 1` is 0 exactly when `REMAIN` was 1. -/
theorem remain_sub_one_eq_zero (r : Word24) : r - 1#24 = 0#24 ↔ r = 1#24 := by
  constructor
  · intro h
    have := congrArg (· + 1) h
    simpa [BitVec.sub_add_cancel] using this
  · rintro rfl; rfl

/-- The end of an accepted DATA word, in the form that looks at `REMAIN` before it is decremented (R107, R108). -/
theorem countElement_eq (s : State) : countElement s = s.counted := by
  by_cases h : s.remain = 1#24
  · have h0 : s.remain - 1#24 = 0#24 := (remain_sub_one_eq_zero s.remain).mpr h
    simp only [countElement, State.counted, complete, if_pos h, if_pos h0]
  · have h0 : ¬ s.remain - 1#24 = 0#24 := fun e => h ((remain_sub_one_eq_zero s.remain).mp e)
    simp only [countElement, State.counted, if_neg h, if_neg h0]

/-- The sink splits what is offered: what it takes, then what it leaves, is the offer. -/
theorem SinkReady.taken_append_untaken (r : SinkReady) (es : List Byte) : r.taken es ++ r.untaken es = es := by
  cases r <;> simp [SinkReady.taken, SinkReady.untaken]

@[simp] theorem SinkReady.taken_always (es : List Byte) : SinkReady.always.taken es = es := rfl
@[simp] theorem SinkReady.untaken_always (es : List Byte) : SinkReady.always.untaken es = [] := rfl
@[simp] theorem SinkReady.after_always (es : List Byte) : SinkReady.always.after es = .always := rfl

/-- Nothing offered, nothing left. -/
@[simp] theorem SinkReady.untaken_nil (r : SinkReady) : r.untaken [] = [] := by
  cases r <;> simp [SinkReady.untaken]

@[simp] theorem SinkReady.taken_nil (r : SinkReady) : r.taken [] = [] := by
  cases r <;> simp [SinkReady.taken]

@[simp] theorem SinkReady.after_nil (r : SinkReady) : r.after [] = r := by
  cases r <;> simp [SinkReady.after]

/-- If nothing is left, all was taken. -/
theorem SinkReady.taken_of_untaken_nil {r : SinkReady} {es : List Byte} (h : r.untaken es = []) : r.taken es = es := by
  have := r.taken_append_untaken es
  rwa [h, List.append_nil] at this

/-- A 32-bit access at a register's own address is admitted and reaches that register (R37, R43). -/
@[simp] theorem admission_regAddr (p : Platform) (r : Reg) : admission p (regAddr p r) 4 = .ok r := by
  cases r <;> simp [admission, regAddr, regOffset]

/-- An admitted access is a 32-bit access at a register's address (R43). -/
theorem admission_ok {p : Platform} {addr size : Nat} {r : Reg} (h : admission p addr size = .ok r) :
    size = 4 ∧ addr = regAddr p r := by
  unfold admission at h
  split at h
  · cases h
  · rename_i hs
    have hs : size = 4 := by omega
    repeat' split at h
    all_goals first | cases h; exact ⟨hs, ‹_›⟩ | cases h

/-- An access is not admitted exactly when it is not a 32-bit access at one of the four addresses (R43). -/
theorem admission_error_iff (p : Platform) (addr size : Nat) :
    (∃ e, admission p addr size = .error e) ↔ ¬ (size = 4 ∧ ∃ r, addr = regAddr p r) := by
  constructor
  · rintro ⟨e, he⟩ ⟨rfl, r, rfl⟩
    simp at he
  · intro h
    cases hr : admission p addr size with
    | error e => exact ⟨e, rfl⟩
    | ok r => exact absurd ⟨(admission_ok hr).1, r, (admission_ok hr).2⟩ h

/-- The slot of a byte in its encoder group is 0, 1 or 2 (R80). -/
theorem encSlot_cases (s : State) :
    (s.pos % 3 = 0 ∧ s.encSlot = 0) ∨ (s.pos % 3 = 1 ∧ s.encSlot = 1) ∨ (s.pos % 3 = 2 ∧ s.encSlot = 2) := by
  have h : s.pos % 3 = 0 ∨ s.pos % 3 = 1 ∨ s.pos % 3 = 2 := by omega
  rcases h with h | h | h
  · exact .inl ⟨h, Fin.ext h⟩
  · exact .inr (.inl ⟨h, Fin.ext h⟩)
  · exact .inr (.inr ⟨h, Fin.ext h⟩)

/-- The slot of a character in its decoder group is 0, 1, 2 or 3 (R93). -/
theorem decSlot_cases (s : State) :
    (s.pos % 4 = 0 ∧ s.decSlot = 0) ∨ (s.pos % 4 = 1 ∧ s.decSlot = 1) ∨ (s.pos % 4 = 2 ∧ s.decSlot = 2) ∨
      (s.pos % 4 = 3 ∧ s.decSlot = 3) := by
  have h : s.pos % 4 = 0 ∨ s.pos % 4 = 1 ∨ s.pos % 4 = 2 ∨ s.pos % 4 = 3 := by omega
  rcases h with h | h | h | h
  · exact .inl ⟨h, Fin.ext h⟩
  · exact .inr (.inl ⟨h, Fin.ext h⟩)
  · exact .inr (.inr (.inl ⟨h, Fin.ext h⟩))
  · exact .inr (.inr (.inr ⟨h, Fin.ext h⟩))

theorem isLast_iff (s : State) : s.isLast = true ↔ s.remain = 1#24 := by simp [State.isLast]

theorem beforeFinalGroup_iff (s : State) : s.beforeFinalGroup = true ↔ s.pos < s.len.toNat - 4 :=
  decide_eq_true_iff

/-- A group-buffer entry holds the index stored in it, zero-extended (R28, R93). -/
@[simp] theorem index_of_entry (r : Index) : (r.setWidth 8 : Byte).setWidth 6 = r := by
  apply BitVec.eq_of_toNat_eq; simp

/-- The pad character has no index (R66, R69). -/
@[simp] theorem charToIndex_pad : charToIndex padChar = Option.none := by decide

end Sys2Proof.Machine
end

