-- ==== Sys2Proof/Laws/Exec.lean ====
section
/-! SUPPORT. What an instruction's own effect is and what it leaves alone, said once. Later proofs cite these and do not
unfold the meanings. -/

namespace Sys2Proof.Machine

/-- The state an instruction leaves: every meaning answers one. -/
def effect (i : Instr) (s : State) : State :=
  match i with
  | .enc n => if s.status.busy then rejectCommand s else startEnc n s
  | .dec n => if s.status.busy then rejectCommand s else startDec n s
  | .crc n => if s.status.busy then rejectCommand s else startCrc n s
  | .data b => if s.status.busy then (dataBody b s).counted else rejectCommand s

/-- `exec` answers the next state `effect`. -/
theorem exec_eq (i : Instr) (s : State) : exec i s = .next (effect i s) := by
  cases i <;> simp only [exec, execEnc, execDec, execCrc, execData, effect, countElement_eq] <;> split <;> rfl

/-- A DATA body in a job without error is its operation's body (R108). -/
theorem dataBody_enc {b : Byte} {s : State} (he : s.status.err = .none) (ho : s.status.op = .enc) :
    dataBody b s = encData b s := by simp only [dataBody, he, ho]

theorem dataBody_dec {b : Byte} {s : State} (he : s.status.err = .none) (ho : s.status.op = .dec) :
    dataBody b s = decData b s := by simp only [dataBody, he, ho]

theorem dataBody_crc {b : Byte} {s : State} (he : s.status.err = .none) (ho : s.status.op = .crc) :
    dataBody b s = crcData b s := by simp only [dataBody, he, ho]

/-- In a draining job the body does nothing (R109). -/
theorem dataBody_drain {b : Byte} {s : State} (he : s.status.err ≠ .none) : dataBody b s = s := by
  cases h : s.status.err <;> simp only [dataBody, h]
  exact absurd h he

/-- All that the body of DATA may change (R80, R93, R102): the scratch registers, `RESULT`, `ERR`, and `OUT` by
appending. -/
def BodyForm (s t : State) : Prop :=
  ∃ (g : GroupBuffer) (p : Byte) (a : Word) (r : Word24) (e : CodecError) (es : List Byte),
    t = { s with g := g, pend := p, acc := a, result := r, status := { s.status with err := e }, out := s.out ++ es }

theorem BodyForm.refl (s : State) : BodyForm s s :=
  ⟨s.g, s.pend, s.acc, s.result, s.status.err, [], by rw [List.append_nil]⟩

theorem BodyForm.trans {s t u : State} (h : BodyForm s t) (k : BodyForm t u) : BodyForm s u := by
  obtain ⟨_, _, _, _, _, es, rfl⟩ := h
  obtain ⟨g, p, a, r, e, es', rfl⟩ := k
  exact ⟨g, p, a, r, e, es ++ es', by rw [List.append_assoc]⟩

theorem bodyForm_setGroup (k : Fin 4) (b : Byte) (s : State) : BodyForm s (setGroup k b s) :=
  ⟨_, s.pend, s.acc, s.result, s.status.err, [], by rw [List.append_nil]; rfl⟩

theorem bodyForm_emitAll (es : List Byte) (s : State) : BodyForm s (emitAll es s) :=
  ⟨s.g, s.pend, s.acc, s.result, s.status.err, es, rfl⟩

theorem bodyForm_raise (e : CodecError) (s : State) : BodyForm s (raiseCodecError e s) :=
  ⟨s.g, s.pend, s.acc, s.result, e, [], by rw [List.append_nil]; rfl⟩

theorem bodyForm_storeIndex {k : Fin 4} {c : Byte} {s t : State} (h : storeIndex k c s = some t) : BodyForm s t := by
  obtain ⟨r, -, rfl⟩ := Option.map_eq_some_iff.mp h
  exact bodyForm_setGroup _ _ _

theorem bodyForm_encData (b : Byte) (s : State) : BodyForm s (encData b s) := by
  unfold encData
  dsimp only
  split
  · exact (bodyForm_setGroup _ _ _).trans (bodyForm_emitAll _ _)
  split
  · exact (bodyForm_setGroup _ _ _).trans (bodyForm_emitAll _ _)
  split
  · exact (bodyForm_setGroup _ _ _).trans (bodyForm_emitAll _ _)
  · exact bodyForm_setGroup _ _ _

theorem bodyForm_decPlain (c : Byte) (s : State) : BodyForm s (decPlain c s) := by
  unfold decPlain
  split
  · exact bodyForm_raise _ _
  · rename_i h
    split
    · exact (bodyForm_storeIndex h).trans (bodyForm_emitAll _ _)
    · exact bodyForm_storeIndex h

theorem bodyForm_decFinal (c : Byte) (s : State) : BodyForm s (decFinal c s) := by
  unfold decFinal
  split
  · exact bodyForm_emitAll _ _
  split
  · exact bodyForm_raise _ _
  rename_i h
  split
  · exact (bodyForm_storeIndex h).trans (bodyForm_emitAll _ _)
  split
  · exact (bodyForm_storeIndex h).trans (bodyForm_raise _ _)
  · rename_i h'
    exact ((bodyForm_storeIndex h).trans (bodyForm_storeIndex h')).trans (bodyForm_emitAll _ _)

theorem bodyForm_decData (c : Byte) (s : State) : BodyForm s (decData c s) := by
  unfold decData
  split
  · exact bodyForm_decPlain _ _
  split
  · exact ⟨s.g, c, s.acc, s.result, s.status.err, [], by rw [List.append_nil]⟩
  · exact bodyForm_decFinal _ _

theorem bodyForm_crcData (b : Byte) (s : State) : BodyForm s (crcData b s) := by
  unfold crcData
  dsimp only
  split
  · exact ⟨s.g, s.pend, _, _, s.status.err, [], by rw [List.append_nil]⟩
  · exact ⟨s.g, s.pend, _, s.result, s.status.err, [], by rw [List.append_nil]⟩

/-- What the body of DATA may change, whatever the job (R108). -/
theorem bodyForm_dataBody (b : Byte) (s : State) : BodyForm s (dataBody b s) := by
  unfold dataBody
  split
  · exact bodyForm_encData _ _
  · exact bodyForm_decData _ _
  · exact bodyForm_crcData _ _
  · exact .refl s
  · exact .refl s
  · exact .refl s

/-- All that an instruction may change: the core's registers, and `OUT` by appending. Everything outside the core
stays (R104). -/
def CoreForm (s t : State) : Prop :=
  ∃ (st : Status) (r m l : Word24) (g : GroupBuffer) (p : Byte) (a : Word) (es : List Byte),
    t = { s with
      status := st, result := r, remain := m, len := l, g := g, pend := p, acc := a, out := s.out ++ es }

theorem coreForm_startEnc (n : Word24) (s : State) : CoreForm s (startEnc n s) := by
  unfold startEnc
  dsimp only
  split <;> exact ⟨_, s.result, n, n, s.g, s.pend, s.acc, [], by rw [List.append_nil]; rfl⟩

theorem coreForm_startDec (n : Word24) (s : State) : CoreForm s (startDec n s) := by
  unfold startDec
  dsimp only
  split
  · exact ⟨_, s.result, n, n, s.g, s.pend, s.acc, [], by rw [List.append_nil]; rfl⟩
  split <;> exact ⟨_, s.result, n, n, s.g, s.pend, s.acc, [], by rw [List.append_nil]; rfl⟩

theorem coreForm_startCrc (n : Word24) (s : State) : CoreForm s (startCrc n s) := by
  unfold startCrc
  dsimp only
  split
  · exact ⟨_, _, n, n, s.g, s.pend, crcInit, [], by rw [List.append_nil]; rfl⟩
  · exact ⟨_, s.result, n, n, s.g, s.pend, crcInit, [], by rw [List.append_nil]; rfl⟩

theorem coreForm_rejectCommand (s : State) : CoreForm s (rejectCommand s) :=
  ⟨_, s.result, s.remain, s.len, s.g, s.pend, s.acc, [], by rw [List.append_nil]; rfl⟩

theorem coreForm_counted {s t : State} (h : BodyForm s t) : CoreForm s t.counted := by
  obtain ⟨g, p, a, r, e, es, rfl⟩ := h
  exact ⟨_, r, s.remain - 1#24, s.len, g, p, a, es, rfl⟩

/-- What any instruction may change. -/
theorem coreForm_effect (i : Instr) (s : State) : CoreForm s (effect i s) := by
  cases i <;> unfold effect <;> dsimp only <;> split
  · exact coreForm_rejectCommand s
  · exact coreForm_startEnc _ s
  · exact coreForm_rejectCommand s
  · exact coreForm_startDec _ s
  · exact coreForm_rejectCommand s
  · exact coreForm_startCrc _ s
  · exact coreForm_counted (bodyForm_dataBody _ s)
  · exact coreForm_rejectCommand s

end Sys2Proof.Machine
end

