-- ==== Sys2Proof/Laws/PerInstr.lean ====
section
/-! SUPPORT. Facts about every instruction as syntax, one lemma per constructor. -/

namespace Sys2Proof.Laws.TableRow

/-- The word of an instruction lies in its own row of the opcode map: `(w and mask) == match` (R60). -/
def Statement (i : Instr) : Prop := encode i &&& rowMask i = rowMatch i

/-- Bits 23:0 are outside the mask of a start row (R56, R60). -/
theorem startMask_low : ∀ i, i < 24 → (0xFF000000#32).getLsbD i = false := by decide

/-- A 24-bit operand leaves the top eight bits of a start word to the opcode (R56, R58). -/
theorem start_row (m : Word) (hm : m &&& 0xFF000000#32 = m) (n : Word24) :
    (m ||| n.setWidth 32) &&& 0xFF000000#32 = m := by
  apply BitVec.eq_of_getLsbD_eq
  intro i hi
  have h := congrArg (·.getLsbD i) hm
  simp only [BitVec.getLsbD_and] at h
  by_cases hb : i < 24
  · rw [← h]
    simp only [BitVec.getLsbD_and, startMask_low i hb, Bool.and_false]
  · have hn : n.getLsbD i = false := BitVec.getLsbD_of_ge n i (by omega)
    simpa [hn] using h

theorem enc (n : Word24) : Statement (.enc n) := start_row 0x10000000#32 (by decide) n

theorem dec (n : Word24) : Statement (.dec n) := start_row 0x20000000#32 (by decide) n

theorem crc (n : Word24) : Statement (.crc n) := start_row 0x30000000#32 (by decide) n

theorem data (b : Byte) : Statement (.data b) := by
  revert b
  unfold Statement
  decide

end Sys2Proof.Laws.TableRow
end

