-- ==== Sys2Proof/Laws/Uniform.lean ====
section
/-! SUPPORT. An instruction's effect does not depend on `OUT`, a held write, the sink or the pending inputs: with other
values there it does the same, and appends the same elements. So a held write, replayed when the sink has taken its
elements, has the effect it would have had at once (R47, R48). -/

namespace Sys2Proof.Machine

/-- The state with other contents outside the core's registers. -/
def State.reframe (s : State) (o : List Byte) (h : Option HeldWrite) (k : SinkReady) (is : List Input)
    (vs : List Word) : State :=
  { s with out := o, held := h, sink := k, inputs := is, replies := vs }

/-- `f` reads nothing outside the core's registers, and appends elements it alone decides. -/
def Uniform (f : State → State) : Prop :=
  ∀ s, ∃ es, ∀ o h k is vs, f (s.reframe o h k is vs) = (f s).reframe (o ++ es) h k is vs

theorem uniform_id : Uniform id := fun s => ⟨[], fun o h k is vs => by rw [List.append_nil]; rfl⟩

theorem Uniform.comp {f g : State → State} (hg : Uniform g) (hf : Uniform f) : Uniform (fun s => g (f s)) := by
  intro s
  obtain ⟨es, he⟩ := hf s
  obtain ⟨es', he'⟩ := hg (f s)
  exact ⟨es ++ es', fun o h k is vs => by dsimp only; rw [he, he', List.append_assoc]⟩

theorem Uniform.ite {f g : State → State} (p : State → Prop) [DecidablePred p]
    (hp : ∀ s o h k is vs, p (s.reframe o h k is vs) ↔ p s) (hf : Uniform f) (hg : Uniform g) :
    Uniform (fun s => if p s then f s else g s) := by
  intro s
  by_cases c : p s
  · obtain ⟨es, he⟩ := hf s
    refine ⟨es, fun o h k is vs => ?_⟩
    dsimp only
    rw [if_pos c, if_pos ((hp s o h k is vs).mpr c), he]
  · obtain ⟨es, he⟩ := hg s
    refine ⟨es, fun o h k is vs => ?_⟩
    dsimp only
    rw [if_neg c, if_neg (fun d => c ((hp s o h k is vs).mp d)), he]

/-- An update of registers alone. -/
theorem uniform_of_silent {f : State → State}
    (hf : ∀ s o h k is vs, f (s.reframe o h k is vs) = (f s).reframe o h k is vs) : Uniform f :=
  fun s => ⟨[], fun o h k is vs => by rw [List.append_nil]; exact hf s o h k is vs⟩

/-- Emission of elements computed from the registers. -/
theorem uniform_emit (F : State → List Byte) (hF : ∀ s o h k is vs, F (s.reframe o h k is vs) = F s) :
    Uniform (fun s => emitAll (F s) s) := by
  intro s
  refine ⟨F s, fun o h k is vs => ?_⟩
  simp only [hF]
  rfl

theorem uniform_setGroup (k : State → Fin 4) (hk : ∀ s o h q is vs, k (s.reframe o h q is vs) = k s) (b : Byte) :
    Uniform (fun s => setGroup (k s) b s) :=
  uniform_of_silent fun s o h q is vs => by simp only [hk]; rfl

theorem uniform_raise (e : CodecError) : Uniform (raiseCodecError e) :=
  uniform_of_silent fun _ _ _ _ _ _ => rfl

theorem uniform_reject : Uniform rejectCommand := uniform_of_silent fun _ _ _ _ _ _ => rfl

theorem uniform_counted : Uniform State.counted := uniform_of_silent fun _ _ _ _ _ _ => rfl

theorem uniform_encData (b : Byte) : Uniform (encData b) := by
  have hg : Uniform (fun s => setGroup s.encSlot b s) := uniform_setGroup _ (fun _ _ _ _ _ _ => rfl) b
  exact .ite (fun s => s.encSlot = 2) (fun _ _ _ _ _ _ => Iff.rfl)
    ((uniform_emit (fun t => encFull t.g.g0 t.g.g1 t.g.g2) fun _ _ _ _ _ _ => rfl).comp hg)
    (.ite (fun s => s.isLast ∧ s.encSlot = 0) (fun _ _ _ _ _ _ => Iff.rfl)
      ((uniform_emit (fun t => encTail1 t.g.g0) fun _ _ _ _ _ _ => rfl).comp hg)
      (.ite (fun s => s.isLast ∧ s.encSlot = 1) (fun _ _ _ _ _ _ => Iff.rfl)
        ((uniform_emit (fun t => encTail2 t.g.g0 t.g.g1) fun _ _ _ _ _ _ => rfl).comp hg) hg))

/-- `decPlain` by the character's index. -/
theorem decPlain_none {c : Byte} (hc : charToIndex c = Option.none) (s : State) :
    decPlain c s = invalidCharacter s := by simp only [decPlain, storeIndex, hc, Option.map_none]

theorem decPlain_some {c : Byte} {r : Index} (hc : charToIndex c = some r) (s : State) :
    decPlain c s =
      if s.beforeFinalGroup ∧ s.decSlot = 3 then emitGroup [0, 1, 2, 3] (setGroup s.decSlot (r.setWidth 8) s)
      else setGroup s.decSlot (r.setWidth 8) s := by
  simp only [decPlain, storeIndex, hc, Option.map_some]

theorem uniform_emitGroup (ks : List (Fin 4)) : Uniform (emitGroup ks) :=
  uniform_emit (fun s => reassemble (ks.map (groupIndex · s))) fun _ _ _ _ _ _ => rfl

theorem uniform_decPlain (c : Byte) : Uniform (decPlain c) := by
  cases hc : charToIndex c with
  | none => rw [funext (decPlain_none hc)]; exact uniform_raise _
  | some r =>
    rw [funext (decPlain_some hc)]
    have hg : Uniform (fun s => setGroup s.decSlot (r.setWidth 8) s) :=
      uniform_setGroup _ (fun _ _ _ _ _ _ => rfl) _
    exact .ite (fun s => s.beforeFinalGroup ∧ s.decSlot = 3) (fun _ _ _ _ _ _ => Iff.rfl)
      ((uniform_emitGroup _).comp hg) hg

theorem uniform_storePend (c : Byte) : Uniform (fun s => { s with pend := c }) :=
  uniform_of_silent fun _ _ _ _ _ _ => rfl

/-- `decFinal` reads `PEND`; with `PEND` named, what it does is a function of the characters. -/
theorem uniform_decFinal (c : Byte) : Uniform (decFinal c) := by
  intro s
  have key : ∀ p, Uniform (fun s =>
      if c = padChar ∧ p = padChar then emitGroup [0, 1] s
      else match storeIndex 2 p s with
        | Option.none => invalidCharacter s
        | some t =>
          if c = padChar then emitGroup [0, 1, 2] t
          else match storeIndex 3 c t with
            | Option.none => invalidCharacter t
            | some u => emitGroup [0, 1, 2, 3] u) := by
    intro p
    have hg : ∀ (k : Fin 4) (b : Byte), Uniform (setGroup k b) :=
      fun k b => uniform_setGroup (fun _ => k) (fun _ _ _ _ _ _ => rfl) b
    refine .ite (fun _ => c = padChar ∧ p = padChar) (fun _ _ _ _ _ _ => Iff.rfl) (uniform_emitGroup _) ?_
    cases hp : charToIndex p with
    | none => simp only [storeIndex, hp, Option.map_none]; exact uniform_raise _
    | some r =>
      simp only [storeIndex, hp, Option.map_some]
      refine .ite (fun _ => c = padChar) (fun _ _ _ _ _ _ => Iff.rfl) ((uniform_emitGroup _).comp (hg 2 _)) ?_
      cases hc : charToIndex c with
      | none => simp only [Option.map_none]; exact (uniform_raise _).comp (hg 2 _)
      | some q => simp only [Option.map_some]; exact (uniform_emitGroup _).comp ((hg 3 _).comp (hg 2 _))
  exact key s.pend s

theorem uniform_decData (c : Byte) : Uniform (decData c) :=
  .ite (fun s => s.beforeFinalGroup ∨ s.decSlot = 0 ∨ s.decSlot = 1) (fun _ _ _ _ _ _ => Iff.rfl)
    (uniform_decPlain c)
    (.ite (fun s => s.decSlot = 2) (fun _ _ _ _ _ _ => Iff.rfl) (uniform_storePend c) (uniform_decFinal c))

theorem uniform_crcData (b : Byte) : Uniform (crcData b) :=
  .ite (fun s => s.isLast = true) (fun _ _ _ _ _ _ => Iff.rfl)
    (uniform_of_silent fun _ _ _ _ _ _ => rfl) (uniform_of_silent fun _ _ _ _ _ _ => rfl)

theorem uniform_dataBody (b : Byte) : Uniform (dataBody b) := by
  intro s
  have pick : ∀ (e : CodecError) (o : JobOp), Uniform (fun s => match e, o with
      | .none, .enc => encData b s
      | .none, .dec => decData b s
      | .none, .crc => crcData b s
      | .none, .none => s
      | .invalidInputLength, _ => s
      | .invalidCharacter, _ => s) := by
    intro e o
    cases e with
    | none =>
      cases o with
      | none => exact uniform_id
      | enc => exact uniform_encData b
      | dec => exact uniform_decData b
      | crc => exact uniform_crcData b
    | invalidInputLength => exact uniform_id
    | invalidCharacter => exact uniform_id
  exact pick s.status.err s.status.op s

theorem uniform_startEnc (n : Word24) : Uniform (startEnc n) :=
  .ite (fun _ => n = 0) (fun _ _ _ _ _ _ => Iff.rfl)
    (uniform_of_silent fun _ _ _ _ _ _ => rfl) (uniform_of_silent fun _ _ _ _ _ _ => rfl)

theorem uniform_startDec (n : Word24) : Uniform (startDec n) :=
  .ite (fun _ => n.toNat % 4 ≠ 0) (fun _ _ _ _ _ _ => Iff.rfl) (uniform_of_silent fun _ _ _ _ _ _ => rfl)
    (.ite (fun _ => n = 0) (fun _ _ _ _ _ _ => Iff.rfl)
      (uniform_of_silent fun _ _ _ _ _ _ => rfl) (uniform_of_silent fun _ _ _ _ _ _ => rfl))

theorem uniform_startCrc (n : Word24) : Uniform (startCrc n) :=
  .ite (fun _ => n = 0) (fun _ _ _ _ _ _ => Iff.rfl)
    (uniform_of_silent fun _ _ _ _ _ _ => rfl) (uniform_of_silent fun _ _ _ _ _ _ => rfl)

/-- Every instruction's effect is uniform. -/
theorem uniform_effect (i : Instr) : Uniform (effect i) := by
  cases i with
  | enc n => exact .ite (fun s => s.status.busy = true) (fun _ _ _ _ _ _ => Iff.rfl) uniform_reject (uniform_startEnc n)
  | dec n => exact .ite (fun s => s.status.busy = true) (fun _ _ _ _ _ _ => Iff.rfl) uniform_reject (uniform_startDec n)
  | crc n => exact .ite (fun s => s.status.busy = true) (fun _ _ _ _ _ _ => Iff.rfl) uniform_reject (uniform_startCrc n)
  | data b =>
    exact .ite (fun s => s.status.busy = true) (fun _ _ _ _ _ _ => Iff.rfl)
      (uniform_counted.comp (uniform_dataBody b)) uniform_reject

end Sys2Proof.Machine
end

