-- ==== Sys2Proof/Laws/Port.lean ====
section
/-! SUPPORT. What a step can do, said once: a `CMD` write, the offer of its elements to the sink, and the inversion of a
step that answers a next state. -/

namespace Sys2Proof.Machine

/-- The whole effect of a command word (R105). -/
def wordEffect (w : Word) (s : State) : State :=
  match decode w with
  | .instr i => effect i s
  | .reserved _ => rejectCommand s

theorem onWriteCmd_eq (w : Word) (s : State) : onWriteCmd w s = .next (wordEffect w s) := by
  unfold onWriteCmd wordEffect
  cases decode w with
  | instr i => exact exec_eq i s
  | reserved _ => rfl

theorem wordEffect_instr {w : Word} {i : Instr} (h : decode w = .instr i) (s : State) :
    wordEffect w s = effect i s := by simp only [wordEffect, h]

theorem coreForm_wordEffect (w : Word) (s : State) : CoreForm s (wordEffect w s) := by
  unfold wordEffect
  cases decode w with
  | instr i => exact coreForm_effect i s
  | reserved _ => exact coreForm_rejectCommand s

theorem uniform_wordEffect (w : Word) : Uniform (wordEffect w) := by
  unfold wordEffect
  cases decode w with
  | instr i => exact uniform_effect i
  | reserved _ => exact uniform_reject

theorem emission_eq_drop (w : Word) (s : State) : emission w s = (wordEffect w s).out.drop s.out.length := by
  simp only [emission, onWriteCmd_eq]

/-- What a word emits is what it appends to `OUT`. -/
theorem wordEffect_out (w : Word) (s : State) : (wordEffect w s).out = s.out ++ emission w s := by
  obtain ⟨_, _, _, _, _, _, _, es, h⟩ := coreForm_wordEffect w s
  rw [emission_eq_drop, h]
  simp

/-- The outside of the core is not touched by a word. -/
theorem wordEffect_outside (w : Word) (s : State) :
    (wordEffect w s).held = s.held ∧ (wordEffect w s).sink = s.sink ∧ (wordEffect w s).inputs = s.inputs ∧
      (wordEffect w s).replies = s.replies ∧ (wordEffect w s).platform = s.platform ∧
      (wordEffect w s).freeCtr = s.freeCtr := by
  obtain ⟨_, _, _, _, _, _, _, _, h⟩ := coreForm_wordEffect w s
  rw [h]
  exact ⟨rfl, rfl, rfl, rfl, rfl, rfl⟩

/-- A word does the same whatever stands outside the core's registers, and appends the same elements. -/
theorem wordEffect_reframe (w : Word) (s : State) (o : List Byte) (h : Option HeldWrite) (k : SinkReady)
    (is : List Input) (vs : List Word) :
    wordEffect w (s.reframe o h k is vs) = (wordEffect w s).reframe (o ++ emission w s) h k is vs := by
  obtain ⟨es, he⟩ := uniform_wordEffect w s
  have h0 := congrArg State.out (he s.out s.held s.sink s.inputs s.replies)
  have h1 : (wordEffect w s).out = s.out ++ es := h0
  rw [wordEffect_out, List.append_cancel_left_eq] at h1
  rw [he, h1]

/-- What a word emits depends on the core's registers alone. -/
theorem emission_reframe (w : Word) (s : State) (o : List Byte) (h : Option HeldWrite) (k : SinkReady)
    (is : List Input) (vs : List Word) : emission w (s.reframe o h k is vs) = emission w s := by
  have h1 := wordEffect_out w (s.reframe o h k is vs)
  rw [wordEffect_reframe] at h1
  exact (List.append_cancel_left h1).symm

/-- A completing write: the word's effect, with `OUT` as the sink left it and nothing held (R47). -/
theorem commitCmd_eq (w : Word) (s : State) :
    commitCmd w s = .next { wordEffect w s with out := s.out, held := Option.none } := by
  simp only [commitCmd, onWriteCmd_eq]

/-- An offer the sink takes whole completes the write. -/
theorem offer_taken {w : Word} {es : List Byte} {s : State} (h : s.sink.untaken es = []) :
    offer w es s = .next
      { wordEffect w s with out := s.out ++ es, held := Option.none, sink := s.sink.after es } := by
  obtain ⟨-, -, h3, h4, -, -⟩ := wordEffect_outside w s
  have e : ({ s with out := s.out ++ s.sink.taken es, sink := s.sink.after es } : State) =
      s.reframe (s.out ++ es) s.held (s.sink.after es) s.inputs s.replies := by
    rw [SinkReady.taken_of_untaken_nil h]; rfl
  simp only [offer, h, e, commitCmd_eq, wordEffect_reframe]
  simp only [State.reframe, h3, h4]

/-- An offer the sink does not take whole is held: nothing but `OUT`, the sink and the held write changes (R48). -/
theorem offer_held {w : Word} {es : List Byte} {s : State} (h : s.sink.untaken es ≠ []) :
    offer w es s = .next
      { s with
        out := s.out ++ s.sink.taken es
        sink := s.sink.after es
        held := some { word := w, untaken := s.sink.untaken es } } := by
  unfold offer
  cases hu : s.sink.untaken es with
  | nil => exact absurd hu h
  | cons e rest => rfl

/-- The ways a step can answer a next state. -/
inductive StepNext (s : State) : State → Prop where
  /-- Nothing asked (R129). -/
  | idle (h0 : s.held = Option.none) (hi : s.inputs = []) : StepNext s s
  /-- The reset input (R130). -/
  | reset (rest : List Input) (hi : s.inputs = .reset :: rest) : StepNext s (resetCore { s with inputs := rest })
  /-- The sink's readiness changes while nothing is held. -/
  | sink (r : SinkReady) (rest : List Input) (h0 : s.held = Option.none) (hi : s.inputs = .sinkReady r :: rest) :
      StepNext s { s with inputs := rest, sink := r }
  /-- A read (R111). -/
  | read (r : Reg) (rest : List Input) (h0 : s.held = Option.none)
      (hi : s.inputs = .access (.read (regAddr s.platform r) 4) :: rest) :
      StepNext s { s with inputs := rest, replies := s.replies ++ [readReg r s] }
  /-- A write to a read-only register (R45). -/
  | ignored (r : Reg) (v : Word) (rest : List Input) (hr : r ≠ .cmd) (h0 : s.held = Option.none)
      (hi : s.inputs = .access (.write (regAddr s.platform r) 4 v) :: rest) : StepNext s { s with inputs := rest }
  /-- A `CMD` write whose elements the sink takes at once (R105). -/
  | write (w : Word) (rest : List Input) (h0 : s.held = Option.none) (hi : s.inputs = cmdWrite s.platform w :: rest)
      (hs : s.sink.untaken (emission w s) = []) :
      StepNext s { wordEffect w s with
        inputs := rest, held := Option.none, sink := s.sink.after (emission w s) }
  /-- A `CMD` write that the sink begins to hold (R48). -/
  | hold (w : Word) (rest : List Input) (h0 : s.held = Option.none) (hi : s.inputs = cmdWrite s.platform w :: rest)
      (hs : s.sink.untaken (emission w s) ≠ []) :
      StepNext s { s with
        inputs := rest
        out := s.out ++ s.sink.taken (emission w s)
        sink := s.sink.after (emission w s)
        held := some { word := w, untaken := s.sink.untaken (emission w s) } }
  /-- The sink takes the rest of a held write, which completes (R47). -/
  | resume (h : HeldWrite) (r : SinkReady) (rest : List Input) (h0 : s.held = some h)
      (hi : s.inputs = .sinkReady r :: rest) (hs : r.untaken h.untaken = []) :
      StepNext s { wordEffect h.word s with
        inputs := rest, held := Option.none, out := s.out ++ h.untaken, sink := r.after h.untaken }
  /-- The sink takes more of a held write, but not all. -/
  | stillHeld (h : HeldWrite) (r : SinkReady) (rest : List Input) (h0 : s.held = some h)
      (hi : s.inputs = .sinkReady r :: rest) (hs : r.untaken h.untaken ≠ []) :
      StepNext s { s with
        inputs := rest
        out := s.out ++ r.taken h.untaken
        sink := r.after h.untaken
        held := some { word := h.word, untaken := r.untaken h.untaken } }

/-- A word's effect on a state whose input has been consumed. -/
theorem wordEffect_inputs (w : Word) (s : State) (is : List Input) :
    wordEffect w { s with inputs := is } = { wordEffect w s with inputs := is } := by
  have h := wordEffect_reframe w s s.out s.held s.sink is s.replies
  obtain ⟨h1, h2, h3, h4, h5, h6⟩ := wordEffect_outside w s
  simp only [State.reframe, ← wordEffect_out] at h
  rw [h, ← h1, ← h2, ← h4]

theorem emission_inputs (w : Word) (s : State) (is : List Input) :
    emission w { s with inputs := is } = emission w s :=
  emission_reframe w s s.out s.held s.sink is s.replies

theorem wordEffect_inputs_sink (w : Word) (s : State) (is : List Input) (k : SinkReady) :
    wordEffect w { s with inputs := is, sink := k } = { wordEffect w s with inputs := is, sink := k } := by
  have h := wordEffect_reframe w s s.out s.held k is s.replies
  obtain ⟨h1, h2, h3, h4, h5, h6⟩ := wordEffect_outside w s
  simp only [State.reframe, ← wordEffect_out] at h
  rw [h, ← h1, ← h4]

/-- With nothing held a step serves the next input. -/
theorem step_free {s : State} (h0 : s.held = Option.none) : step s = stepFree s := by
  simp only [step, h0]

/-- With a write held a step can only end the hold. -/
theorem step_held {s : State} {h : HeldWrite} (h0 : s.held = some h) : step s = stepHeld h s := by
  simp only [step, h0]

/-- A step whose next input is a `CMD` write offers the word's elements to the sink. -/
theorem step_cmdWrite {s : State} {w : Word} {rest : List Input} (h0 : s.held = Option.none)
    (hi : s.inputs = cmdWrite s.platform w :: rest) :
    step s = offer w (emission w s) { s with inputs := rest } := by
  have e : respond (.write (regAddr s.platform .cmd) 4 w) { s with inputs := rest } =
      offer w (emission w s) { s with inputs := rest } := by
    simp only [respond, admission_regAddr, writeReg, writeCmd, emission_inputs]
  rw [step_free h0, ← e]
  unfold stepFree
  rw [hi]
  rfl

/-- Running no step. -/
theorem runSteps_zero (s : State) : runSteps 0 s = .next s := rfl

/-- Running one step and then the rest. -/
theorem runSteps_succ {s t : State} (n : Nat) (h : step s = .next t) : runSteps (n + 1) s = runSteps n t := by
  have h' : Sys2Proof.core.step s = .next t := h
  simp only [runSteps, Host.Core.run, h']
  rfl

theorem runSteps_fault {s : State} {r : Fault} (n : Nat) (h : step s = .fault r) : runSteps (n + 1) s = .fault r := by
  have h' : Sys2Proof.core.step s = .fault r := h
  simp only [runSteps, Host.Core.run, h']
  rfl

theorem runSteps_refused {s : State} {r : Refusal} (n : Nat) (h : step s = .refused r) :
    runSteps (n + 1) s = .refused r := by
  have h' : Sys2Proof.core.step s = .refused r := h
  simp only [runSteps, Host.Core.run, h']
  rfl

/-- Inversion of a step that answers a next state. -/
theorem step_next {s t : State} (h : step s = .next t) : StepNext s t := by
  unfold step at h
  split at h
  · rename_i h0
    unfold stepFree at h
    split at h
    · rename_i hi
      cases h
      exact .idle h0 hi
    · rename_i a rest hi
      unfold respond at h
      split at h
      · rename_i addr size
        split at h
        · rename_i r ha
          obtain ⟨rfl, rfl⟩ := admission_ok ha
          cases h
          exact .read r rest h0 hi
        · cases h
      · rename_i addr size v
        split at h
        · rename_i r ha
          obtain ⟨rfl, rfl⟩ := admission_ok ha
          cases r with
          | cmd =>
            simp only [writeReg, writeCmd, emission_inputs] at h
            by_cases hs : s.sink.untaken (emission v s) = []
            · rw [offer_taken (s := { s with inputs := rest }) hs] at h
              cases h
              have := StepNext.write v rest h0 hi hs
              rw [wordEffect_inputs]
              simpa only [wordEffect_out] using this
            · rw [offer_held (s := { s with inputs := rest }) hs] at h
              cases h
              exact .hold v rest h0 hi hs
          | status => cases h; exact .ignored .status v rest (by decide) h0 hi
          | result => cases h; exact .ignored .result v rest (by decide) h0 hi
          | remain => cases h; exact .ignored .remain v rest (by decide) h0 hi
        · cases h
    · rename_i rest hi
      cases h
      exact .reset rest hi
    · rename_i r rest hi
      cases h
      exact .sink r rest h0 hi
  · rename_i hw h0
    unfold stepHeld at h
    split at h
    · cases h
    · cases h
    · rename_i rest hi
      cases h
      exact .reset rest hi
    · rename_i r rest hi
      by_cases hs : r.untaken hw.untaken = []
      · rw [offer_taken (s := { s with inputs := rest, sink := r }) hs] at h
        cases h
        have := StepNext.resume hw r rest h0 hi hs
        rwa [wordEffect_inputs_sink]
      · rw [offer_held (s := { s with inputs := rest, sink := r }) hs] at h
        cases h
        exact .stillHeld hw r rest h0 hi hs

end Sys2Proof.Machine
end

