-- ==== Sys2Proof/Machine/AsmText.lean ====
section
/-! DEFINITION. The assembler's text (R63, R64, R65): a line's characters to its tokens, and its tokens to host lines.
Where the spec fixes no lexical rule (spacing, letter case, quotes in strings) the choices are those of log 25. -/

namespace Sys2Proof.Machine

/-- A token of a line. -/
inductive Token where
  | word (cs : List Char)
  | comma
  | chr (c : Char)
  | str (cs : List Char)
  deriving DecidableEq, Repr

/-- Where the lexer stands: between tokens, or inside a word or a string whose characters so far are given in reverse. -/
inductive LexMode where
  | between
  | inWord (acc : List Char)
  | inString (acc : List Char)
  deriving DecidableEq, Repr

/-- The first word of a line: the mnemonics of R63, the pseudo-instructions of R64, `wr` and `rd` of R65. -/
inductive Keyword where
  | enc
  | dec
  | crc
  | data
  | word
  | bytes
  | text
  | encode
  | decode
  | crc24
  | wr
  | rd
  deriving DecidableEq, Repr

/-- A space or a tab. -/
def isBlank (c : Char) : Bool := c == ' ' || c == '\t'

/-- The tokens of a line; `none` where a quote is not closed. A character literal is `'c'` (R63). -/
def lex : LexMode → List Char → Option (List Token)
  | .between, [] => some []
  | .between, '\'' :: c :: '\'' :: rest => (lex .between rest).map (.chr c :: ·)
  | .between, c :: rest =>
    if isBlank c then lex .between rest
    else if c = ',' then (lex .between rest).map (.comma :: ·)
    else if c = '"' then lex (.inString []) rest
    else if c = '\'' then Option.none
    else lex (.inWord [c]) rest
  | .inWord acc, [] => some [.word acc.reverse]
  | .inWord acc, c :: rest =>
    if isBlank c then (lex .between rest).map (.word acc.reverse :: ·)
    else if c = ',' then (lex .between rest).map (fun ts => .word acc.reverse :: .comma :: ts)
    else lex (.inWord (c :: acc)) rest
  | .inString _, [] => Option.none
  | .inString acc, c :: rest =>
    if c = '"' then (lex .between rest).map (.str acc.reverse :: ·) else lex (.inString (c :: acc)) rest

/-- The value of a digit below `base`, upper or lower case. -/
def digitValue (base : Nat) (c : Char) : Option Nat :=
  let v := if '0' ≤ c ∧ c ≤ '9' then c.toNat - 0x30
    else if 'a' ≤ c ∧ c ≤ 'f' then c.toNat - 0x61 + 10
    else if 'A' ≤ c ∧ c ≤ 'F' then c.toNat - 0x41 + 10
    else base
  if v < base then some v else Option.none

/-- The number a list of digits writes, most significant first, after the digits already read. -/
def digitsValue (base : Nat) : Nat → List Char → Option Nat
  | acc, [] => some acc
  | acc, c :: cs => (digitValue base c).bind fun v => digitsValue base (base * acc + v) cs

/-- A number: decimal, or hexadecimal with `0x` (R63). -/
def numberOf : List Char → Option Nat
  | [] => Option.none
  | ['0', 'x'] => Option.none
  | '0' :: 'x' :: ds => digitsValue 16 0 ds
  | ds => digitsValue 10 0 ds

/-- The keyword a word spells. -/
def keywordOf (cs : List Char) : Option Keyword :=
  if cs = ['e', 'n', 'c'] then some .enc
  else if cs = ['d', 'e', 'c'] then some .dec
  else if cs = ['c', 'r', 'c'] then some .crc
  else if cs = ['d', 'a', 't', 'a'] then some .data
  else if cs = ['.', 'w', 'o', 'r', 'd'] then some .word
  else if cs = ['b', 'y', 't', 'e', 's'] then some .bytes
  else if cs = ['t', 'e', 'x', 't'] then some .text
  else if cs = ['e', 'n', 'c', 'o', 'd', 'e'] then some .encode
  else if cs = ['d', 'e', 'c', 'o', 'd', 'e'] then some .decode
  else if cs = ['c', 'r', 'c', '2', '4'] then some .crc24
  else if cs = ['w', 'r'] then some .wr
  else if cs = ['r', 'd'] then some .rd
  else Option.none

/-- The register a word names (R37, R65). -/
def regOf (cs : List Char) : Option Reg :=
  if cs = ['C', 'M', 'D'] then some .cmd
  else if cs = ['S', 'T', 'A', 'T', 'U', 'S'] then some .status
  else if cs = ['R', 'E', 'S', 'U', 'L', 'T'] then some .result
  else if cs = ['R', 'E', 'M', 'A', 'I', 'N'] then some .remain
  else Option.none

/-- A `data` operand (R63). -/
def byteOperand : Token → Option AsmByte
  | .word ds => (numberOf ds).map .num
  | .chr c => some (.chr c)
  | .comma => Option.none
  | .str _ => Option.none

/-- Operands separated by commas (R64); none at all is the empty list. -/
def byteOperands : List Token → Option (List AsmByte)
  | [] => some []
  | [t] => (byteOperand t).map ([·])
  | t :: .comma :: u :: ts => (byteOperand t).bind fun b => (byteOperands (u :: ts)).map (b :: ·)
  | _ => Option.none

/-- A line whose operand is one number (R63). -/
def numberLine (mk : Nat → AsmLine) : List Token → Option AsmLine
  | [.word ds] => (numberOf ds).map mk
  | _ => Option.none

/-- A line whose operand is one string (R64). -/
def stringLine (mk : List Char → Pseudo) : List Token → Option Pseudo
  | [.str cs] => some (mk cs)
  | _ => Option.none

/-- A command line of R63, by its keyword and operands. -/
def commandLine (k : Keyword) (ts : List Token) : Option AsmLine :=
  match k with
  | .enc => numberLine .enc ts
  | .dec => numberLine .dec ts
  | .crc => numberLine .crc ts
  | .word => numberLine .word ts
  | .data => match ts with
    | [t] => (byteOperand t).map .data
    | _ => Option.none
  | _ => Option.none

/-- A pseudo-instruction line of R64, by its keyword and operands. -/
def pseudoLine (k : Keyword) (ts : List Token) : Option Pseudo :=
  match k with
  | .bytes => (byteOperands ts).map .bytes
  | .text => stringLine .text ts
  | .encode => (byteOperands ts).map .encode
  | .decode => stringLine .decode ts
  | .crc24 => (byteOperands ts).map .crc24
  | _ => Option.none

/-- The command lines a mnemonic line stands for: one for a command, the expansion for a pseudo-instruction. -/
def mnemonicLine (k : Keyword) (ts : List Token) : Option (List AsmLine) :=
  match commandLine k ts, pseudoLine k ts with
  | some l, _ => some [l]
  | Option.none, some p => some (expand p)
  | Option.none, Option.none => Option.none

/-- The `X` of `wr CMD, X`: a word, or an assembler line of R63 (R65). -/
def wrOperand : List Token → Option AsmLine
  | [.word cs] => (numberOf cs).map .word
  | .word cs :: ts => (keywordOf cs).bind fun k => commandLine k ts
  | _ => Option.none

/-- The host accesses one line of a host program stands for (R65). A mnemonic line on its own means `wr CMD` of its
word. -/
def hostLineOf : List Token → Option (List HostLine)
  | [] => some []
  | .word cs :: ts =>
    match keywordOf cs, ts with
    | some .wr, .word r :: .comma :: x =>
      if regOf r = some .cmd then (wrOperand x).map fun l => [.wrCmd l] else Option.none
    | some .rd, [.word r] => (regOf r).map fun q => [.rd q]
    | some k, _ => (mnemonicLine k ts).map (·.map .wrCmd)
    | Option.none, _ => Option.none
  | _ => Option.none

/-- The inputs a host program's text stands for, one line at a time (R65, R112), or an assembly error. -/
def assembleText (p : Platform) (lines : List (List Char)) : Option (List Input) :=
  (lines.mapM fun l => (lex .between l).bind hostLineOf).bind fun ls => hostProgram p ls.flatten

end Sys2Proof.Machine
end

