-- ==== Sys2Proof/Tests/Slice0.lean ====
section
/-! SUPPORT. The model's own tests: ill-formed terms refused, words and vectors of the spec, one step of each kind, and a
witness for the hypotheses of each statement. Expected values are those of 95_test_vectors.md or of the rule named. -/

namespace Sys2Proof.Tests

open Sys2Proof.Machine

/-! ## Ill-formed terms are refused (R58, R59, R63, R64) -/

theorem test_wf_enc_operand_too_large : (AsmLine.enc 0x1000000).wellFormed = false := by decide
theorem test_wf_dec_operand_too_large : (AsmLine.dec 0x1000000).wellFormed = false := by decide
theorem test_wf_crc_operand_too_large : (AsmLine.crc 0x1000000).wellFormed = false := by decide
theorem test_wf_data_operand_too_large : (AsmLine.data (.num 0x100)).wellFormed = false := by decide
theorem test_wf_character_not_ascii : (AsmLine.data (.chr 'é')).wellFormed = false := by decide
theorem test_wf_word_too_large : (AsmLine.word 0x100000000).wellFormed = false := by decide
theorem test_wf_text_character_not_ascii : (Pseudo.text ['A', 'é']).wellFormed = false := by decide
theorem test_wf_bytes_operand_too_large : (Pseudo.bytes [.num 0, .num 0x100]).wellFormed = false := by decide
theorem test_wf_encode_operand_too_large : (Pseudo.encode [.num 0x100]).wellFormed = false := by decide
theorem test_wf_decode_character_not_ascii : (Pseudo.decode ['é']).wellFormed = false := by decide
theorem test_wf_crc24_operand_too_large : (Pseudo.crc24 [.num 0x100]).wellFormed = false := by decide
theorem test_wf_host_line_operand_too_large : (HostLine.wrCmd (.enc 0x1000000)).wellFormed = false := by decide
theorem test_wf_largest_operands :
    (AsmLine.enc 0xFFFFFF).wellFormed = true ∧ (AsmLine.data (.num 0xFF)).wellFormed = true ∧
      (AsmLine.word 0xFFFFFFFF).wellFormed = true ∧ (AsmLine.data (.chr '=')).wellFormed = true := by decide

/-! ## Words written out from the formats (R56, R57, R60, R62; KV-5, KV-9 to KV-12, P1 to P4) -/

/-- ENC: 0001 0000 then LEN. -/
theorem test_decode_enc : decode (0b0001_0000_000000000000000000000101#32) = .instr (.enc 5) := by decide

/-- DEC: 0010 0000 then LEN. -/
theorem test_decode_dec : decode (0b0010_0000_000000000000000000001000#32) = .instr (.dec 8) := by decide

/-- CRC: 0011 0000 then LEN. -/
theorem test_decode_crc : decode (0b0011_0000_000000000000000000001001#32) = .instr (.crc 9) := by decide

/-- DATA: 0100, twenty zeros, then BYTE. -/
theorem test_decode_data : decode (0b0100_00000000000000000000_11111011#32) = .instr (.data 0xFB) := by decide

/-- Each reserved bit of a start word and of a DATA word refuses it (R61, R62). -/
theorem test_decode_reserved_bits :
    (∀ k : Fin 4, decode (0x10000005#32 ||| (1#32 <<< (24 + k.val))) = .reserved .startBits) ∧
      (∀ k : Fin 20, decode (0x40000041#32 ||| (1#32 <<< (8 + k.val))) = .reserved .dataBits) := by decide

/-- `enc 5`, `data 'A'`, `.word 0x50000000` (R63). -/
theorem test_assemble :
    assemble (.enc 5) = some 0x10000005#32 ∧ assemble (.data (.chr 'A')) = some 0x40000041#32 ∧
      assemble (.word 0x50000000) = some 0x50000000#32 ∧ assemble (.dec 0x1000000) = none := by decide

/-- `decode "FPs="` is `dec 4` and four DATA words (R64). -/
theorem test_expand_decode :
    (expand (.decode ['F', 'P', 's', '='])).mapM assemble =
      some [0x20000004#32, 0x40000046#32, 0x40000050#32, 0x40000073#32, 0x4000003D#32] := by decide

/-- `enc 5`, `wr CMD, 0x50000000`, `data 'A'` and `rd STATUS`, from their characters (R63, R65). -/
theorem test_text_lines :
    assembleText State.reset.platform
        [['e', 'n', 'c', ' ', '5'], ['w', 'r', ' ', 'C', 'M', 'D', ',', ' ', '0', 'x', '5', '0', '0', '0', '0', '0', '0', '0'],
          ['d', 'a', 't', 'a', ' ', '\'', 'A', '\''], ['r', 'd', ' ', 'S', 'T', 'A', 'T', 'U', 'S']] =
      some [cmdWrite State.reset.platform 0x10000005#32, cmdWrite State.reset.platform 0x50000000#32,
        cmdWrite State.reset.platform 0x40000041#32, .access (.read 4 4)] := by decide

/-- `crc24 0x00, 65`, `decode "FP"`, and an operand out of range, an unclosed quote and an unknown mnemonic (R63, R64). -/
theorem test_text_pseudo :
    assembleText State.reset.platform
        [['c', 'r', 'c', '2', '4', ' ', '0', 'x', '0', '0', ',', ' ', '6', '5'],
          ['d', 'e', 'c', 'o', 'd', 'e', ' ', '"', 'F', 'P', '"']] =
      some ([0x30000002#32, 0x40000000#32, 0x40000041#32, 0x20000002#32, 0x40000046#32, 0x40000050#32].map
        (cmdWrite State.reset.platform)) ∧
    assembleText State.reset.platform [['d', 'a', 't', 'a', ' ', '2', '5', '6']] = none ∧
    assembleText State.reset.platform [['t', 'e', 'x', 't', ' ', '"', 'F']] = none ∧
    assembleText State.reset.platform [['n', 'o', 'p']] = none := by decide

/-! ## The functions (SV-1 to SV-7, ST-1 to ST-9, DV-11, DV-15, DV-20, CV-3) -/

theorem test_symbols_out : [0#6, 25#6, 26#6, 51#6, 52#6, 61#6, 62#6, 63#6].map indexToChar =
    [0x41#8, 0x5A#8, 0x61#8, 0x7A#8, 0x30#8, 0x39#8, 0x2B#8, 0x2F#8] := by decide

theorem test_symbols_in : [0x41#8, 0x5A#8, 0x61#8, 0x7A#8, 0x30#8, 0x39#8, 0x2B#8, 0x2F#8].map charToIndex =
    [some 0#6, some 25#6, some 26#6, some 51#6, some 52#6, some 61#6, some 62#6, some 63#6] := by decide

/-- The neighbours of each range, `=`, `-`, `_`, white space and non-ASCII codes (ST-5 to ST-9). -/
theorem test_symbols_invalid :
    [0x3D#8, 0x2A#8, 0x2C#8, 0x2E#8, 0x3A#8, 0x40#8, 0x5B#8, 0x60#8, 0x7B#8, 0x2D#8, 0x5F#8, 0x00#8, 0x7F#8, 0x80#8,
      0xFF#8, 0x09#8, 0x0A#8, 0x0D#8, 0x20#8].all (fun c => charToIndex c == none) = true := by decide

/-- "FPucA9l+", "FPucA9k=", "FPucAw==" (SV-1 to SV-3). -/
theorem test_encode_vectors :
    radix64Encode [0x14#8, 0xFB#8, 0x9C#8, 0x03#8, 0xD9#8, 0x7E#8] =
      [0x46#8, 0x50#8, 0x75#8, 0x63#8, 0x41#8, 0x39#8, 0x6C#8, 0x2B#8] ∧
    radix64Encode [0x14#8, 0xFB#8, 0x9C#8, 0x03#8, 0xD9#8] =
      [0x46#8, 0x50#8, 0x75#8, 0x63#8, 0x41#8, 0x39#8, 0x6B#8, 0x3D#8] ∧
    radix64Encode [0x14#8, 0xFB#8, 0x9C#8, 0x03#8] =
      [0x46#8, 0x50#8, 0x75#8, 0x63#8, 0x41#8, 0x77#8, 0x3D#8, 0x3D#8] := by decide

/-- "FPucA9k=" (SV-5), "AA=A" (DV-11), "FPucA=k=" (DV-15), "FPucAw=A" (DV-20), "FPucA" (DV-6). -/
theorem test_decode_vectors :
    radix64Decode [0x46#8, 0x50#8, 0x75#8, 0x63#8, 0x41#8, 0x39#8, 0x6B#8, 0x3D#8] =
      ([0x14#8, 0xFB#8, 0x9C#8, 0x03#8, 0xD9#8], .none) ∧
    radix64Decode [0x41#8, 0x41#8, 0x3D#8, 0x41#8] = ([], .invalidCharacter) ∧
    radix64Decode [0x46#8, 0x50#8, 0x75#8, 0x63#8, 0x41#8, 0x3D#8, 0x6B#8, 0x3D#8] =
      ([0x14#8, 0xFB#8, 0x9C#8], .invalidCharacter) ∧
    radix64Decode [0x46#8, 0x50#8, 0x75#8, 0x63#8, 0x41#8, 0x77#8, 0x3D#8, 0x41#8] =
      ([0x14#8, 0xFB#8, 0x9C#8], .invalidCharacter) ∧
    radix64Decode [0x46#8, 0x50#8, 0x75#8, 0x63#8, 0x41#8] = ([], .invalidInputLength) := by decide

/-- The rounds of CV-3, and CV-4, CV-11. -/
theorem test_crc_vectors :
    crcRound 0x00B704CE#32 = 0x00E84567#32 ∧ crcRounds 3 0x00B704CE#32 = 0x00AD8C6A#32 ∧
      crc24 [0x00#8] = 0x6169D3#24 ∧ crc24 [0xFF#8] = 0xBCECEB#24 ∧ crc24 [0x01#8] = 0xE72528#24 := by decide

/-! ## One step -/

/-- A question about the next state of an outcome; `false` where there is none. -/
def answers (o : Host.Outcome State Fault Refusal) (q : State → Bool) : Bool :=
  match o with
  | .next t => q t
  | .fault _ => false
  | .refused _ => false

/-- A running job of operation `op`: `len` elements, `remain` of them still to come. -/
def running (op : JobOp) (len remain : Word24) : State :=
  { State.reset with
    status := { busy := true, done := false, op := op, err := .none, cmderr := false }, len := len, remain := remain }

/-- A running job that drains (R109). -/
def draining (len remain : Word24) : State :=
  { running .dec len remain with
    status := { busy := true, done := false, op := .dec, err := .invalidCharacter, cmderr := false } }

/-- The state in which the host writes `w` to `CMD` next. -/
def writing (w : Word) (s : State) : State := s.withCmdWrite w

/-- Everything a host sees: `STATUS`, `REMAIN`, `RESULT` as read, and `OUT`. -/
def sees (status remain result : Word) (out : List Byte) (t : State) : Bool :=
  readReg .status t == status && readReg .remain t == remain && readReg .result t == result && t.out == out

/-- `enc 5` from idle (R79). -/
theorem test_enc_starts : answers (step (writing 0x10000005#32 State.reset)) (sees 0x05#32 5#32 0#32 []) = true := by
  decide

/-- `enc 0` completes at once (KV-2). -/
theorem test_enc_empty : answers (step (writing 0x10000000#32 State.reset)) (sees 0x06#32 0#32 0#32 []) = true := by
  decide

/-- `dec 5` sets ERR = 1 and stays busy (KV-6). -/
theorem test_dec_bad_length : answers (step (writing 0x20000005#32 State.reset)) (sees 0x19#32 5#32 0#32 []) = true := by
  decide

/-- `dec 0` (KV-3). -/
theorem test_dec_empty : answers (step (writing 0x20000000#32 State.reset)) (sees 0x0A#32 0#32 0#32 []) = true := by
  decide

/-- `crc 0` writes the initial value to RESULT (KV-4). -/
theorem test_crc_empty :
    answers (step (writing 0x30000000#32 State.reset)) (sees 0x0E#32 0#32 0x00B704CE#32 []) = true := by decide

/-- `crc 9` sets ACC and leaves RESULT (R101). -/
theorem test_crc_starts : answers (step (writing 0x30000009#32 State.reset))
    (fun t => sees 0x0D#32 9#32 0#32 [] t && t.acc == 0x00B704CE#32) = true := by decide

/-- With `enc 1` running, `data 0x03` emits "Aw==" (R108). -/
theorem test_data_encodes_tail : answers (step (writing 0x40000003#32 (running .enc 1 1)))
    (sees 0x06#32 0#32 0#32 [0x41#8, 0x77#8, 0x3D#8, 0x3D#8]) = true := by decide

/-- The last word of "FPs=" decides that one pad is data's end: two bytes (R93, DV-12). -/
theorem test_data_decodes_final_group :
    answers (step (writing 0x4000003D#32
        { running .dec 4 1 with g := { g0 := 5#8, g1 := 15#8, g2 := 0xAA#8, g3 := 0xAA#8 }, pend := 0x73#8 }))
      (sees 0x0A#32 0#32 0#32 [0x14#8, 0xFB#8]) = true := by decide

/-- A start command while a job runs sets CMDERR and leaves the job (KV-13). -/
theorem test_start_while_busy_is_rejected :
    answers (step (writing 0x30000000#32 (running .enc 2 1))) (sees 0x45#32 1#32 0#32 []) = true := by decide

/-- `data 0` while idle, and the all-zero word (KV-8, KV-9). -/
theorem test_rejected_while_idle :
    answers (step (writing 0x40000000#32 State.reset)) (sees 0x40#32 0#32 0#32 []) = true ∧
      answers (step (writing 0x00000000#32 State.reset)) (sees 0x40#32 0#32 0#32 []) = true := by decide

/-- A 16-bit access at `CMD`, an access between registers, one outside the window (R43). -/
theorem test_refused_accesses :
    admission { block := 1 } 0x10 2 = .error .accessSize ∧ admission { block := 1 } 0x16 4 = .error .accessMisaligned ∧
      admission { block := 1 } 0x20 4 = .error .accessOutsideWindow ∧ admission { block := 1 } 0x1C 4 = .ok .remain := by
  decide

/-! ## Witnesses: the hypotheses of each statement can be met -/

/-- A job of three bytes at its last: "FPuc" comes out (EV-4). -/
def encLast : State := { running .enc 3 1 with g := { g0 := 0x14#8, g1 := 0xFB#8, g2 := 0#8, g3 := 0#8 } }

theorem witness_decodeAndEncode : decode 0x10FFFFFF#32 = .instr (.enc 0xFFFFFF) := by decide

/-- A word for each clause, at the edges of the fields. -/
theorem witness_decodingFollowsTheFields :
    (0x10FFFFFF / 2 ^ 28 = 1 ∧ 0x10FFFFFF / 2 ^ 24 % 16 = 0) ∧ (0x20000000 / 2 ^ 28 = 2 ∧ 0x20000000 / 2 ^ 24 % 16 = 0) ∧
    (0x30000001 / 2 ^ 28 = 3 ∧ 0x30000001 / 2 ^ 24 % 16 = 0) ∧ (0x31000000 / 2 ^ 28 = 3 ∧ 0x31000000 / 2 ^ 24 % 16 ≠ 0) ∧
    (0x400000FF / 2 ^ 28 = 4 ∧ 0x400000FF / 2 ^ 8 % 2 ^ 20 = 0) ∧
    (0x40000100 / 2 ^ 28 = 4 ∧ 0x40000100 / 2 ^ 8 % 2 ^ 20 ≠ 0) ∧ 0x0FFFFFFF / 2 ^ 28 = 0 ∧ 5 ≤ 0x50000000 / 2 ^ 28 := by
  decide

theorem witness_opcodeMap :
    0x10000005#32 &&& rowMask (.enc 0) = rowMatch (.enc 0) ∧ 0x10000005#32 &&& rowMask (.enc 1) = rowMatch (.enc 1) ∧
    ∀ i : Instr, 0x50000000#32 &&& rowMask i ≠ rowMatch i := by
  refine ⟨by decide, by decide, fun i => ?_⟩
  cases i <;> simp only [rowMask, rowMatch] <;> decide

theorem witness_reservedWords :
    decode 0x50000000#32 = .reserved (.opcode 5) ∧ decode 0x11000000#32 = .reserved .startBits ∧
      decode 0x40000100#32 = .reserved .dataBits := by decide

/-- Operands at the ends of their ranges (R63). -/
theorem witness_assembler :
    assemble (.enc 0xFFFFFF) = some 0x10FFFFFF#32 ∧ assemble (.dec 0xFFFFFF) = some 0x20FFFFFF#32 ∧
      assemble (.crc 0xFFFFFF) = some 0x30FFFFFF#32 ∧ assemble (.data (.num 0xFF)) = some 0x400000FF#32 ∧
      assemble (.data (.chr (Char.ofNat 0x7F))) = some 0x4000007F#32 ∧ assemble (.word 0xFFFFFFFF) = some 0xFFFFFFFF#32 ∧
      assemble (.enc 0x1000000) = none ∧ assemble (.data (.num 0x100)) = none ∧ assemble (.word 0x100000000) = none := by
  decide

theorem witness_pseudo :
    (Pseudo.bytes [.num 0xFF, .chr 'A']).wellFormed = true ∧ (Pseudo.text ['A', '=']).wellFormed = true ∧
      (Pseudo.encode [.num 0x14, .chr 'A']).wellFormed = true ∧ (Pseudo.decode ['A', '=']).wellFormed = true ∧
      (Pseudo.crc24 []).wellFormed = true := by decide

/-- A DATA word that emits four elements, all taken by a sink ready for exactly four, and by one always ready. -/
theorem witness_stepRuns :
    encLast.held = none ∧ (writing 0x4000009C#32 encLast).inputs = [cmdWrite encLast.platform 0x4000009C#32] ∧
    decode 0x4000009C#32 = .instr (.data 0x9C) ∧ encLast.sink = .always ∧
    answers (exec (.data 0x9C) encLast) (fun t => (SinkReady.atMost 4).untaken (t.out.drop encLast.out.length) == []) =
      true ∧
    decode 0x50000000#32 = .reserved (.opcode 5) ∧
    answers (step (writing 0x50000000#32 { encLast with sink := .atMost 0 })) (fun t => t.status.cmderr) = true := by
  decide

/-- The same word with a sink ready for three only: held, one element left (R48). -/
theorem witness_refusedElements :
    answers (exec (.data 0x9C) encLast) (fun t => decide (3 < (t.out.drop encLast.out.length).length)) = true ∧
    answers (step (writing 0x4000009C#32 { encLast with sink := .atMost 3 })) (fun t =>
      t.held == some { word := 0x4000009C#32, untaken := [0x63#8] } && t.out == [0x46#8, 0x50#8, 0x75#8] &&
      t.status == encLast.status && t.remain == 1#24) = true := by decide

/-- The write of a DATA word to a sink that takes one element, then none, then two, and then is always ready. -/
def delayed : State :=
  { encLast with
    sink := .atMost 1
    inputs := cmdWrite encLast.platform 0x4000009C#32 :: [0, 2].map (fun n => .sinkReady (.atMost n)) ++
      [.sinkReady .always] }

theorem witness_delayedWrite :
    delayed.held = none ∧
    answers (runSteps 3 delayed) (fun t => t.out == [0x46#8, 0x50#8, 0x75#8] && t.status.busy && t.held.isSome) = true ∧
    answers (runSteps 4 delayed) (fun t => t.out == [0x46#8, 0x50#8, 0x75#8, 0x63#8] && t.status.done &&
      t.held == none && t.sink == .always) = true := by decide

/-- A held write: one element of "FPuc" is left. -/
def holding : State :=
  { encLast with
    out := [0x46#8, 0x50#8, 0x75#8], sink := .atMost 0
    held := some { word := 0x4000009C#32, untaken := [0x63#8] } }

theorem witness_hold : (match step holding with | .fault .sinkHold => true | _ => false) = true := by decide

theorem witness_refused :
    (match step { State.reset with inputs := [.access (.read 0x4 2)] } with
      | .refused .accessSize => true | _ => false) = true := by decide

/-- A read of each register (R111): STATUS of a running ENC job with CMDERR reads 0x45 (KV-12). -/
theorem witness_reads :
    answers (step { running .enc 2 1 with
      status := { busy := true, done := false, op := .enc, err := .none, cmderr := true }
      inputs := [.access (.read 0x4 4)] }) (fun t => t.replies == [0x45#32]) = true ∧
    answers (step { State.reset with inputs := [.access (.read 0x0 4)] }) (fun t => t.replies == [0#32]) = true ∧
    answers (step { State.reset with result := 0x21CF02#24, inputs := [.access (.read 0x8 4)] })
      (fun t => t.replies == [0x0021CF02#32]) = true ∧
    answers (step { running .enc 2 1 with inputs := [.access (.read 0xC 4)] }) (fun t => t.replies == [1#32]) = true := by
  decide

/-- KV-19: a write of 0xFFFFFFFF to STATUS. -/
theorem witness_readOnlyWrite :
    Reg.status ≠ Reg.cmd ∧
    answers (step { State.reset with inputs := [.access (.write (regAddr State.reset.platform .status) 4 0xFFFFFFFF#32)] })
      (fun t => t == State.reset) = true := by decide

/-- Reset during a held write: what the sink took stays, the rest is gone (R130). -/
theorem witness_reset :
    answers (step { holding with inputs := [.reset] }) (fun t => t.out == [0x46#8, 0x50#8, 0x75#8] && t.held == none &&
      t.status == Status.reset && t.remain == 0#24) = true := by decide

theorem witness_nothingHappens :
    State.reset.held = none ∧ State.reset.inputs = [] ∧
    answers (step { State.reset with inputs := [.sinkReady (.atMost 2)] }) (fun t => t.sink == .atMost 2) = true := by
  decide

/-- Idle and busy states, lengths on both sides of R92's check, and start words with a reserved bit. -/
theorem witness_starts :
    State.reset.status.busy = false ∧ (running .enc 2 1).status.busy = true ∧
    (0x000003#24).toNat % 4 ≠ 0 ∧ (0x000000#24).toNat % 4 = 0 ∧ (0xFFFFFC#24).toNat % 4 = 0 ∧
    (0xFFFFFF#24).toNat % 4 ≠ 0 ∧
    (0x11000000#32).toNat / 2 ^ 28 = 1 ∧ (0x11000000#32).toNat / 2 ^ 24 % 16 ≠ 0 ∧
    (0x2F000000#32).toNat / 2 ^ 28 = 2 ∧ (0x2F000000#32).toNat / 2 ^ 24 % 16 ≠ 0 ∧
    (0x38000000#32).toNat / 2 ^ 28 = 3 ∧ (0x38000000#32).toNat / 2 ^ 24 % 16 ≠ 0 := by decide

theorem witness_rejection :
    isStartWord (decode 0x30000000#32) = true ∧ decode 0x40000000#32 = .instr (.data 0) ∧
      decode 0x00000000#32 = .reserved (.opcode 0) ∧
    answers (onWriteCmd 0x10000000#32 { State.reset with
      status := { busy := false, done := true, op := .enc, err := .none, cmderr := true } })
      (fun t => !t.status.cmderr) = true ∧
    answers (onWriteCmd 0x40000003#32 (running .enc 1 1)) (fun t => !t.status.cmderr) = true := by decide

/-- Places 0, 1, 2 of a group, each as the last byte and (0, 1) as one that is not. -/
theorem witness_dataEnc :
    ((running .enc 3 1).pos % 3 = 2) ∧ ((running .enc 1 1).pos % 3 = 0 ∧ (running .enc 1 1).remain = 1#24) ∧
    ((running .enc 2 1).pos % 3 = 1 ∧ (running .enc 2 1).remain = 1#24) ∧
    ((running .enc 2 2).pos % 3 = 0 ∧ (running .enc 2 2).remain ≠ 1#24) ∧
    ((running .enc 3 2).pos % 3 = 1 ∧ (running .enc 3 2).remain ≠ 1#24) ∧
    (running .enc 3 1).status.busy = true ∧ (running .enc 3 1).status.err = .none := by decide

/-- Places 0 to 3 before the final group, and places 0 and 1 of it; a valid and an invalid character. -/
theorem witness_dataDec :
    ((running .dec 8 8).pos % 4 = 0 ∧ (running .dec 8 7).pos % 4 = 1 ∧ (running .dec 8 6).pos % 4 = 2 ∧
      (running .dec 8 5).pos % 4 = 3) ∧ ((running .dec 8 5).pos < 4) ∧
    ((running .dec 4 4).pos % 4 ≤ 1 ∧ (running .dec 4 3).pos % 4 ≤ 1) ∧ charToIndex 0x21#8 = none ∧
    charToIndex 0x46#8 = some 5#6 ∧ (running .dec 8 8).status.op = .dec := by decide

theorem witness_dataDecDeferred : 4 ≤ (running .dec 8 2).pos ∧ (running .dec 8 2).pos % 4 = 2 := by decide

/-- The last place of the final group; `=`, a character of the alphabet and one outside it. -/
theorem witness_dataDecFinal :
    4 ≤ (running .dec 8 1).pos ∧ (running .dec 8 1).pos % 4 = 3 ∧ charToIndex 0x3D#8 = none ∧
      charToIndex 0x6B#8 = some 36#6 ∧ charToIndex 0x21#8 = none := by decide

theorem witness_dataCrc :
    (running .crc 2 1).status.busy = true ∧ (running .crc 2 1).status.op = .crc ∧ (running .crc 2 1).remain = 1#24 := by
  decide

theorem witness_draining :
    (draining 8 2).status.busy = true ∧ (draining 8 2).status.err ≠ .none ∧ (draining 8 2).remain ≠ 1#24 ∧
      (draining 8 1).remain = 1#24 := by decide

/-- A DATA word in each of the three jobs. -/
theorem witness_dataFrame :
    answers (exec (.data 0x9C) encLast) (fun t => t.remain == 0#24) = true ∧
      answers (exec (.data 0x46) (running .dec 4 4)) (fun t => t.remain == 3#24) = true ∧
      answers (exec (.data 0x00) (running .crc 2 2)) (fun t => t.remain == 1#24) = true := by decide

theorem witness_symbolTable :
    charToIndex (0x2F#8) = some 63#6 ∧ (25#6).toNat ≤ 25 ∧ 26 ≤ (26#6).toNat ∧ (51#6).toNat ≤ 51 ∧
      52 ≤ (52#6).toNat ∧ (61#6).toNat ≤ 61 := by decide

theorem witness_decodeLength : ([0x41#8] : List Byte).length % 4 ≠ 0 := by decide

/-- "FA==", "FPs=", "AA=A", "FPuc" (R85). -/
theorem witness_effectiveLength :
    effectiveLength [0x46#8, 0x41#8, 0x3D#8, 0x3D#8] = 2 ∧ effectiveLength [0x46#8, 0x50#8, 0x73#8, 0x3D#8] = 3 ∧
      effectiveLength [0x41#8, 0x41#8, 0x3D#8, 0x41#8] = 4 ∧ effectiveLength [0x46#8, 0x50#8, 0x75#8, 0x63#8] = 4 := by
  decide

/-- "FPuc!9k=": the bytes 14 FB 9C and the group "!9k=" are not final in "FPuc!9k=AAAA" (DV-8 with a group added). -/
theorem witness_invalidCharacter :
    ([0x14#8, 0xFB#8, 0x9C#8] : List Byte).length % 3 = 0 ∧ ([0x41#8, 0x41#8, 0x41#8, 0x41#8] : List Byte) ≠ [] ∧
      charToIndex 0x21#8 = none ∧
      radix64Decode ([0x46#8, 0x50#8, 0x75#8, 0x63#8] ++ [0x21#8, 0x39#8, 0x6B#8, 0x3D#8] ++
        [0x41#8, 0x41#8, 0x41#8, 0x41#8]) = ([0x14#8, 0xFB#8, 0x9C#8], .invalidCharacter) := by decide

/-- The final groups of DV-7 "FPu!", DV-10 "A===", DV-11 "AA=A" and "AA!=", after the bytes 14 FB 9C (DV-20 for the
third): an invalid character at each place of the effective range. -/
theorem witness_invalidCharacterFinal :
    charToIndex 0x21#8 = none ∧ charToIndex 0x3D#8 = none ∧
    radix64Decode ([0x46#8, 0x50#8, 0x75#8, 0x63#8] ++ [0x46#8, 0x50#8, 0x75#8, 0x21#8]) =
      ([0x14#8, 0xFB#8, 0x9C#8], .invalidCharacter) ∧
    radix64Decode ([0x46#8, 0x50#8, 0x75#8, 0x63#8] ++ [0x41#8, 0x3D#8, 0x3D#8, 0x3D#8]) =
      ([0x14#8, 0xFB#8, 0x9C#8], .invalidCharacter) ∧
    radix64Decode ([0x46#8, 0x50#8, 0x75#8, 0x63#8] ++ [0x41#8, 0x41#8, 0x3D#8, 0x41#8]) =
      ([0x14#8, 0xFB#8, 0x9C#8], .invalidCharacter) ∧
    radix64Decode ([0x46#8, 0x50#8, 0x75#8, 0x63#8] ++ [0x41#8, 0x41#8, 0x21#8, 0x3D#8]) =
      ([0x14#8, 0xFB#8, 0x9C#8], .invalidCharacter) := by decide

/-- `k` = 36 and `l` = 37 differ in the low two bits; `A` = 0 and `B` = 1 in the low four (DV-14, DV-24). -/
theorem witness_discardedBits :
    charToIndex 0x6B#8 = some 36#6 ∧ charToIndex 0x6C#8 = some 37#6 ∧ (36#6).toNat / 4 = (37#6).toNat / 4 ∧
      charToIndex 0x41#8 = some 0#6 ∧ charToIndex 0x42#8 = some 1#6 ∧ (0#6).toNat / 16 = (1#6).toNat / 16 := by decide

theorem witness_decodedLength : radix64Decode [0x46#8, 0x50#8, 0x73#8, 0x3D#8] = ([0x14#8, 0xFB#8], .none) := by decide

theorem witness_crcBound : (0x00FFFFFF#32).toNat < 2 ^ 24 := by decide

theorem witness_oneByteChanged : (0x00#8 : Byte) ≠ 0x01#8 := by decide

/-- A host about to run a whole job of one element and then one DATA word too many. -/
def jobOfOne (start : Instr) (b : Byte) : State :=
  { State.reset with
    inputs := jobInputs State.reset.platform start [b] ++ [cmdWrite State.reset.platform (encode (.data 0x41))] }

/-- `encode 0x03` (EV-16). -/
theorem witness_encJob : answers (runSteps 2 (jobOfOne (.enc 1) 0x03))
    (sees 0x06#32 0#32 0#32 [0x41#8, 0x77#8, 0x3D#8, 0x3D#8]) = true := by decide

/-- Before the only byte of the job: k = 0 < 1. -/
theorem witness_encJobLags : answers (runSteps 1 (jobOfOne (.enc 1) 0x03)) (sees 0x05#32 1#32 0#32 []) = true := by decide

/-- `decode "A"`: the length error, drained (DV-5). -/
theorem witness_decJob : answers (runSteps 2 (jobOfOne (.dec 1) 0x41)) (sees 0x1A#32 0#32 0#32 []) = true := by decide

/-- `crc24 0x00` (CV-3). -/
theorem witness_crcJob : answers (runSteps 2 (jobOfOne (.crc 1) 0x00)) (sees 0x0E#32 0#32 0x006169D3#32 []) = true := by
  decide

/-- The extra word is rejected (P4, step 11). -/
theorem witness_extraWord : answers (runSteps 3 (jobOfOne (.crc 1) 0x00)) (sees 0x4E#32 0#32 0x006169D3#32 []) = true := by
  decide

/-- The invariant holds of a state with a held write, far from reset, that a step leaves. -/
theorem witness_invariant : holding.Inv where
  busy_iff := by decide
  not_both := by decide
  idle_iff := by decide
  fresh := by decide
  remain_le := by decide
  err_dec := by decide
  err_length := by decide
  acc_bound := by decide
  crc_result := by decide
  scratch := by unfold State.decodeScratch; decide
  held_tail := by
    intro h e
    cases e
    exact ⟨by decide, [], [0x46#8, 0x50#8, 0x75#8], by decide⟩

/-- The invariant does not see the pending inputs. -/
theorem witness_invariant_step : ({ holding with inputs := [.sinkReady .always] } : State).Inv ∧
    answers (step { holding with inputs := [.sinkReady .always] })
      (fun t => t.status.done && t.out == [0x46#8, 0x50#8, 0x75#8, 0x63#8]) = true := by
  refine ⟨?_, by decide⟩
  have h := witness_invariant
  exact ⟨h.1, h.2, h.3, h.4, h.5, h.6, h.7, h.8, h.9, h.10, fun w e => by
    cases e
    exact ⟨by decide, [], [0x46#8, 0x50#8, 0x75#8], by decide⟩⟩

/-- From that held state: a readiness for none of the one element left holds on, for exactly one ends it (R48). -/
theorem witness_heldReadiness :
    holding.held = some { word := 0x4000009C#32, untaken := [0x63#8] } ∧
    answers (step { holding with inputs := [.sinkReady (.atMost 0)] })
      (fun t => t.held == holding.held && t.out == holding.out) = true ∧
    answers (step { holding with inputs := [.sinkReady (.atMost 1)] })
      (fun t => t.held == none && t.status.done && t.out == [0x46#8, 0x50#8, 0x75#8, 0x63#8] && t.sink == .atMost 0) =
        true := by decide

/-- The last byte of a checksum job changes RESULT. -/
theorem witness_resultChanges :
    answers (step (writing 0x40000000#32 { running .crc 1 1 with acc := 0x00B704CE#32 }))
      (fun t => t.result != 0#24 && t.status.done) = true := by decide

/-- A decode job in its last group, meeting the invariant, whose last character is judged with the deferred one. -/
def decLast : State := { running .dec 4 1 with pend := 0x3D#8 }

theorem witness_decLast_inv : decLast.Inv where
  busy_iff := by decide
  not_both := by decide
  idle_iff := by decide
  fresh := by decide
  remain_le := by decide
  err_dec := by decide
  err_length := by decide
  acc_bound := by decide
  crc_result := by decide
  scratch := by unfold State.decodeScratch; decide
  held_tail := by intro h e; cases e

/-- "AA=A" fails at its last word, for the deferred `=` (DV-11): `ERR` rises, `BUSY` falls, `DONE` rises. -/
theorem witness_statusFields :
    decLast.resetsNext = false ∧ (writing 0x40000041#32 decLast).startsJob = false ∧
    answers (exec (.data 0x41) decLast) (fun t => t.status.err == .invalidCharacter && t.status.done &&
      !t.status.busy) = true ∧ decLast.status.err = .none := by decide

/-- A step that raises `CMDERR` in each of the three ways: a Reserved word, a start while busy, DATA while idle. -/
theorem witness_cmderrRises :
    answers (step (writing 0x50000000#32 decLast)) (fun t => t.status.cmderr) = true ∧ decLast.held = none ∧
    answers (step (writing 0x10000000#32 decLast)) (fun t => t.status.cmderr) = true ∧
    isStartWord (decode 0x10000000#32) = true ∧ decLast.status.busy = true ∧ decLast.status.cmderr = false ∧
    answers (step (writing 0x40000000#32 State.reset)) (fun t => t.status.cmderr) = true := by decide

/-- `DONE` falls at a start of length 5 and at reset, from the state a completed job leaves. -/
theorem witness_doneFalls :
    answers (step (writing 0x10000005#32 { State.reset with
      status := { busy := false, done := true, op := .enc, err := .none, cmderr := false } }))
      (fun t => !t.status.done && t.status.busy) = true ∧
    answers (step { State.reset with
      status := { busy := false, done := true, op := .enc, err := .none, cmderr := false }, inputs := [.reset] })
      (fun t => !t.status.done && !t.status.busy) = true := by decide

/-- A step that raises `BUSY`, and reset that ends a job. -/
theorem witness_busyAndDone :
    (writing 0x10000005#32 State.reset).startsJob = true ∧
    answers (step (writing 0x10000005#32 State.reset)) (fun t => t.status.busy && !t.status.done) = true ∧
    ({ decLast with inputs := [.reset] } : State).resetsNext = true ∧
    answers (step { decLast with inputs := [.reset] }) (fun t => !t.status.busy && !t.status.done) = true := by decide

theorem witness_heldWrites :
    holding.held.isSome = true ∧
    answers (step { holding with inputs := [.sinkReady (.atMost 0)] }) (fun t => t.held.isSome) = true := by decide

/-- Two idle states that differ in the scratch registers alone. -/
theorem witness_scratch :
    State.reset.status.busy = false ∧ State.reset.held = none ∧
      State.reset.visible = ({ State.reset with pend := 0xFF#8, acc := 1#32 } : State).visible ∧
      State.reset ≠ { State.reset with pend := 0xFF#8, acc := 1#32 } := by decide

end Sys2Proof.Tests
end

section
/-! PROOFS. What a command word and a step do to the core's registers, said once for the statements about the
whole machine. -/

namespace Sys2Proof.Machine

/-! ### The body of DATA, field by field (R80, R93, R102, R108) -/

section DataBodyFields
variable (b : Byte) (s : State)

@[simp] theorem dataBody_busy : (dataBody b s).status.busy = s.status.busy := by
  obtain ⟨_, _, _, _, _, _, h⟩ := bodyForm_dataBody b s; rw [h]

@[simp] theorem dataBody_done : (dataBody b s).status.done = s.status.done := by
  obtain ⟨_, _, _, _, _, _, h⟩ := bodyForm_dataBody b s; rw [h]

@[simp] theorem dataBody_op : (dataBody b s).status.op = s.status.op := by
  obtain ⟨_, _, _, _, _, _, h⟩ := bodyForm_dataBody b s; rw [h]

@[simp] theorem dataBody_cmderr : (dataBody b s).status.cmderr = s.status.cmderr := by
  obtain ⟨_, _, _, _, _, _, h⟩ := bodyForm_dataBody b s; rw [h]

@[simp] theorem dataBody_remain : (dataBody b s).remain = s.remain := by
  obtain ⟨_, _, _, _, _, _, h⟩ := bodyForm_dataBody b s; rw [h]

@[simp] theorem dataBody_len : (dataBody b s).len = s.len := by
  obtain ⟨_, _, _, _, _, _, h⟩ := bodyForm_dataBody b s; rw [h]

@[simp] theorem dataBody_held : (dataBody b s).held = s.held := by
  obtain ⟨_, _, _, _, _, _, h⟩ := bodyForm_dataBody b s; rw [h]

end DataBodyFields

/-- With `OP = NONE` the body of DATA does nothing (log 15). -/
theorem dataBody_of_op_none {b : Byte} {s : State} (ho : s.status.op = .none) : dataBody b s = s := by
  cases he : s.status.err <;> simp only [dataBody, he, ho]

/-! ### The body of an encode job (R80) -/

/-- A character the encoder may emit: a pad, or one of the alphabet (R66, R77). -/
def IsEncoderChar (c : Byte) : Prop := c = 0x3D#8 ∨ (charToIndex c).isSome = true

theorem isEncoderChar_indexToChar (i : Index) : IsEncoderChar (indexToChar i) := by
  have h : ∀ i : Index, (charToIndex (indexToChar i)).isSome = true := by decide
  exact .inr (h i)

theorem isEncoderChar_padChar : IsEncoderChar padChar := .inl rfl

theorem isEncoderChar_of_mem_encFull {b0 b1 b2 c : Byte} (h : c ∈ encFull b0 b1 b2) : IsEncoderChar c := by
  simp only [encFull, List.mem_cons, List.not_mem_nil, or_false] at h
  rcases h with rfl | rfl | rfl | rfl <;> exact isEncoderChar_indexToChar _

theorem isEncoderChar_of_mem_encTail2 {b0 b1 c : Byte} (h : c ∈ encTail2 b0 b1) : IsEncoderChar c := by
  simp only [encTail2, List.mem_cons, List.not_mem_nil, or_false] at h
  rcases h with rfl | rfl | rfl | rfl
  · exact isEncoderChar_indexToChar _
  · exact isEncoderChar_indexToChar _
  · exact isEncoderChar_indexToChar _
  · exact isEncoderChar_padChar

theorem isEncoderChar_of_mem_encTail1 {b0 c : Byte} (h : c ∈ encTail1 b0) : IsEncoderChar c := by
  simp only [encTail1, List.mem_cons, List.not_mem_nil, or_false] at h
  rcases h with rfl | rfl | rfl | rfl
  · exact isEncoderChar_indexToChar _
  · exact isEncoderChar_indexToChar _
  · exact isEncoderChar_padChar
  · exact isEncoderChar_padChar

/-- The body of an encode job stores the byte at its slot, and appends alphabet characters and pads only. -/
theorem encData_form (b : Byte) (s : State) :
    ∃ es, encData b s = emitAll es (setGroup s.encSlot b s) ∧ ∀ c ∈ es, IsEncoderChar c := by
  unfold encData
  dsimp only
  split
  · exact ⟨_, rfl, fun _ => isEncoderChar_of_mem_encFull⟩
  split
  · exact ⟨_, rfl, fun _ => isEncoderChar_of_mem_encTail1⟩
  split
  · exact ⟨_, rfl, fun _ => isEncoderChar_of_mem_encTail2⟩
  · exact ⟨[], by rw [emitAll, List.append_nil], nofun⟩

@[simp] theorem encData_status (b : Byte) (s : State) : (encData b s).status = s.status := by
  obtain ⟨_, h, -⟩ := encData_form b s; rw [h]; rfl

@[simp] theorem encData_result (b : Byte) (s : State) : (encData b s).result = s.result := by
  obtain ⟨_, h, -⟩ := encData_form b s; rw [h]; rfl

@[simp] theorem encData_g (b : Byte) (s : State) : (encData b s).g = s.g.set s.encSlot b := by
  obtain ⟨_, h, -⟩ := encData_form b s; rw [h]; rfl

/-! ### The body of a checksum job (R102) -/

theorem crcData_of_last {b : Byte} {s : State} (h : s.remain = 1#24) :
    crcData b s = { s with acc := crcByte s.acc b, result := crcValue (crcByte s.acc b) } :=
  if_pos ((isLast_iff s).mpr h)

theorem crcData_of_not_last {b : Byte} {s : State} (h : s.remain ≠ 1#24) :
    crcData b s = { s with acc := crcByte s.acc b } :=
  if_neg (fun e => h ((isLast_iff s).mp e))

@[simp] theorem crcData_status (b : Byte) (s : State) : (crcData b s).status = s.status := by
  by_cases h : s.remain = 1#24
  · rw [crcData_of_last h]
  · rw [crcData_of_not_last h]

@[simp] theorem crcData_acc (b : Byte) (s : State) : (crcData b s).acc = crcByte s.acc b := by
  by_cases h : s.remain = 1#24
  · rw [crcData_of_last h]
  · rw [crcData_of_not_last h]

@[simp] theorem crcData_out (b : Byte) (s : State) : (crcData b s).out = s.out := by
  by_cases h : s.remain = 1#24
  · rw [crcData_of_last h]
  · rw [crcData_of_not_last h]

/-! ### The body of a decode job (R93): by the character's place, and the final group by its five ends -/

theorem decData_plain {s : State} (h : s.pos < s.len.toNat - 4 ∨ s.pos % 4 < 2) (c : Byte) :
    decData c s = decPlain c s := by
  refine if_pos ?_
  rcases h with h | h
  · exact .inl ((beforeFinalGroup_iff s).mpr h)
  · have h2 : s.pos % 4 = 0 ∨ s.pos % 4 = 1 := by omega
    exact .inr (h2.imp Fin.ext Fin.ext)

theorem decData_deferred {s : State} (hf : ¬ s.pos < s.len.toNat - 4) (hk : s.pos % 4 = 2) (c : Byte) :
    decData c s = { s with pend := c } := by
  have hd : s.decSlot = 2 := Fin.ext hk
  simp [decData, hd, beforeFinalGroup_iff, hf]

theorem decData_final {s : State} (hf : ¬ s.pos < s.len.toNat - 4) (hk : s.pos % 4 = 3) (c : Byte) :
    decData c s = decFinal c s := by
  have hd : s.decSlot = 3 := Fin.ext hk
  simp [decData, hd, beforeFinalGroup_iff, hf]

/-- A character's place, by the three cases of R93. -/
theorem decPlace_cases (s : State) :
    (s.pos < s.len.toNat - 4 ∨ s.pos % 4 < 2) ∨ (¬ s.pos < s.len.toNat - 4 ∧ s.pos % 4 = 2) ∨
      (¬ s.pos < s.len.toNat - 4 ∧ s.pos % 4 = 3) := by
  omega

/-- A valid character judged at once keeps `STATUS` and is stored in its slot. -/
theorem decPlain_some_status {c : Byte} {r : Index} (hc : charToIndex c = some r) (s : State) :
    (decPlain c s).status = s.status := by
  rw [decPlain_some hc]
  split <;> rfl

theorem decPlain_some_g {c : Byte} {r : Index} (hc : charToIndex c = some r) (s : State) :
    (decPlain c s).g = s.g.set s.decSlot (r.setWidth 8) := by
  rw [decPlain_some hc]
  split <;> rfl

theorem decPlain_err (c : Byte) (s : State) :
    (decPlain c s).status.err = s.status.err ∨ (decPlain c s).status.err = .invalidCharacter := by
  cases hc : charToIndex c with
  | none => rw [decPlain_none hc]; exact .inr rfl
  | some r => exact .inl (congrArg Status.err (decPlain_some_status hc s))

/-! The five ways the last character can end the final group (R93, D27): both pads; the deferred character invalid; it is
the last datum before a pad; the last character invalid; a full group. -/

theorem decFinal_twoPads {s : State} (hp : s.pend = padChar) : decFinal padChar s = emitGroup [0, 1] s := by
  simp [decFinal, hp]

theorem decFinal_badPend {c : Byte} {s : State} (h : ¬ (c = padChar ∧ s.pend = padChar))
    (hp : charToIndex s.pend = Option.none) : decFinal c s = invalidCharacter s := by
  simp [decFinal, h, storeIndex, hp]

theorem decFinal_onePad {r : Index} {s : State} (hp : charToIndex s.pend = some r) :
    decFinal padChar s = emitGroup [0, 1, 2] (setGroup 2 (r.setWidth 8) s) := by
  have hn : s.pend ≠ padChar := fun e => by simp [e] at hp
  simp [decFinal, hn, storeIndex, hp]

theorem decFinal_badChar {c : Byte} {r : Index} {s : State} (hc : c ≠ padChar) (hp : charToIndex s.pend = some r)
    (hn : charToIndex c = Option.none) : decFinal c s = invalidCharacter (setGroup 2 (r.setWidth 8) s) := by
  simp [decFinal, hc, storeIndex, hp, hn]

theorem decFinal_full {c : Byte} {r q : Index} {s : State} (hp : charToIndex s.pend = some r)
    (hq : charToIndex c = some q) :
    decFinal c s = emitGroup [0, 1, 2, 3] (setGroup 3 (q.setWidth 8) (setGroup 2 (r.setWidth 8) s)) := by
  have hc : c ≠ padChar := fun e => by simp [e] at hq
  simp [decFinal, hc, storeIndex, hp, hq]

/-- The five ways are all there are, and each property of `decFinal` need only be shown of them. -/
theorem decFinal_cases {P : State → Prop} (c : Byte) (s : State)
    (twoPads : c = padChar → s.pend = padChar → P (emitGroup [0, 1] s))
    (badPend : ¬ (c = padChar ∧ s.pend = padChar) → charToIndex s.pend = Option.none → P (invalidCharacter s))
    (onePad : ∀ r, c = padChar → charToIndex s.pend = some r →
      P (emitGroup [0, 1, 2] (setGroup 2 (r.setWidth 8) s)))
    (badChar : ∀ r, c ≠ padChar → charToIndex s.pend = some r → charToIndex c = Option.none →
      P (invalidCharacter (setGroup 2 (r.setWidth 8) s)))
    (full : ∀ r q, charToIndex s.pend = some r → charToIndex c = some q →
      P (emitGroup [0, 1, 2, 3] (setGroup 3 (q.setWidth 8) (setGroup 2 (r.setWidth 8) s)))) :
    P (decFinal c s) := by
  by_cases hpads : c = padChar ∧ s.pend = padChar
  · obtain ⟨rfl, hp⟩ := hpads
    rw [decFinal_twoPads hp]; exact twoPads rfl hp
  cases hp : charToIndex s.pend with
  | none => rw [decFinal_badPend hpads hp]; exact badPend hpads hp
  | some r =>
    by_cases hc : c = padChar
    · subst hc
      rw [decFinal_onePad hp]; exact onePad r rfl hp
    cases hq : charToIndex c with
    | none => rw [decFinal_badChar hc hp hq]; exact badChar r hc hp hq
    | some q => rw [decFinal_full hp hq]; exact full r q hp hq

theorem decFinal_err (c : Byte) (s : State) :
    (decFinal c s).status.err = s.status.err ∨ (decFinal c s).status.err = .invalidCharacter := by
  apply decFinal_cases (P := fun t => t.status.err = s.status.err ∨ t.status.err = .invalidCharacter) c s
  · exact fun _ _ => .inl rfl
  · exact fun _ _ => .inr rfl
  · exact fun _ _ _ => .inl rfl
  · exact fun _ _ _ _ => .inr rfl
  · exact fun _ _ _ _ => .inl rfl

theorem decFinal_result (c : Byte) (s : State) : (decFinal c s).result = s.result := by
  apply decFinal_cases (P := fun t => t.result = s.result) c s
  all_goals intros; rfl

theorem decPlain_result (c : Byte) (s : State) : (decPlain c s).result = s.result := by
  cases hc : charToIndex c with
  | none => rw [decPlain_none hc]; rfl
  | some r => rw [decPlain_some hc]; split <;> rfl

theorem decData_err (c : Byte) (s : State) :
    (decData c s).status.err = s.status.err ∨ (decData c s).status.err = .invalidCharacter := by
  rcases decPlace_cases s with h | ⟨hf, hk⟩ | ⟨hf, hk⟩
  · rw [decData_plain h]; exact decPlain_err c s
  · rw [decData_deferred hf hk]; exact .inl rfl
  · rw [decData_final hf hk]; exact decFinal_err c s

@[simp] theorem decData_result (c : Byte) (s : State) : (decData c s).result = s.result := by
  rcases decPlace_cases s with h | ⟨hf, hk⟩ | ⟨hf, hk⟩
  · rw [decData_plain h]; exact decPlain_result c s
  · rw [decData_deferred hf hk]
  · rw [decData_final hf hk]; exact decFinal_result c s

/-! ### What the body of DATA may do to `ERR` and `RESULT` -/

/-- The body of DATA raises an error only in a decode job that has met none, and then for a character (R93, R118). -/
theorem dataBody_err (b : Byte) (s : State) :
    (dataBody b s).status.err = s.status.err ∨
      (s.status.err = .none ∧ s.status.op = .dec ∧ (dataBody b s).status.err = .invalidCharacter) := by
  by_cases he : s.status.err = .none
  · cases ho : s.status.op with
    | none => rw [dataBody_of_op_none ho]; exact .inl rfl
    | enc => rw [dataBody_enc he ho, encData_status]; exact .inl rfl
    | dec =>
      rw [dataBody_dec he ho]
      exact (decData_err b s).imp_right fun h => ⟨he, rfl, h⟩
    | crc => rw [dataBody_crc he ho, crcData_status]; exact .inl rfl
  · rw [dataBody_drain he]; exact .inl rfl

/-- The body of DATA writes `RESULT` only at the last word of a checksum job (R102). -/
theorem dataBody_result (b : Byte) (s : State) :
    (dataBody b s).result = s.result ∨
      (s.status.op = .crc ∧ s.remain = 1#24 ∧ (dataBody b s).result = crcValue (dataBody b s).acc) := by
  by_cases he : s.status.err = .none
  · cases ho : s.status.op with
    | none => rw [dataBody_of_op_none ho]; exact .inl rfl
    | enc => rw [dataBody_enc he ho]; exact .inl (encData_result b s)
    | dec => rw [dataBody_dec he ho]; exact .inl (decData_result b s)
    | crc =>
      rw [dataBody_crc he ho]
      by_cases hl : s.remain = 1#24
      · rw [crcData_of_last hl]; exact .inr ⟨rfl, hl, rfl⟩
      · rw [crcData_of_not_last hl]; exact .inl rfl
  · rw [dataBody_drain he]; exact .inl rfl

/-! ### What a start command leaves (R79, R92, R101, R106) -/

/-- What an accepted start command of operation `op` and length `n` leaves in the registers the job's rules speak of:
a job of `n` elements runs, or has completed where `n` is 0. -/
structure Started (op : JobOp) (n : Word24) (t : State) : Prop where
  busy : t.status.busy = true ↔ n ≠ 0#24
  done : t.status.done = true ↔ n = 0#24
  op : t.status.op = op
  cmderr : t.status.cmderr = false
  len : t.len = n
  remain : t.remain = n

theorem started_startEnc (n : Word24) (s : State) : Started .enc n (startEnc n s) := by
  by_cases h : n = 0#24
  · simp only [startEnc, if_pos h]; constructor <;> simp [h]
  · simp only [startEnc, if_neg h]; constructor <;> simp [h]

theorem startDec_of_badLength {n : Word24} (h : n.toNat % 4 ≠ 0) (s : State) :
    startDec n s = raiseCodecError .invalidInputLength (startCommon .dec n s) := if_pos h

theorem startDec_of_wholeGroups {n : Word24} (h : n.toNat % 4 = 0) (s : State) :
    startDec n s = if n = 0#24 then complete (startCommon .dec n s) else startCommon .dec n s :=
  if_neg (not_not.mpr h)

theorem started_startDec (n : Word24) (s : State) : Started .dec n (startDec n s) := by
  by_cases hm : n.toNat % 4 = 0
  · rw [startDec_of_wholeGroups hm]
    by_cases h : n = 0#24
    · rw [if_pos h]; constructor <;> simp [h]
    · rw [if_neg h]; constructor <;> simp [h]
  · have h : n ≠ 0#24 := by rintro rfl; exact hm rfl
    rw [startDec_of_badLength hm]; constructor <;> simp [h]

theorem started_startCrc (n : Word24) (s : State) : Started .crc n (startCrc n s) := by
  by_cases h : n = 0#24
  · simp only [startCrc, if_pos h]; constructor <;> simp [h]
  · simp only [startCrc, if_neg h]; constructor <;> simp [h]

@[simp] theorem startEnc_result (n : Word24) (s : State) : (startEnc n s).result = s.result := by
  unfold startEnc; dsimp only; split <;> rfl

@[simp] theorem startEnc_err (n : Word24) (s : State) : (startEnc n s).status.err = .none := by
  unfold startEnc; dsimp only; split <;> rfl

@[simp] theorem startDec_result (n : Word24) (s : State) : (startDec n s).result = s.result := by
  unfold startDec; dsimp only; split
  · rfl
  · split <;> rfl

/-- A decode job starts with the length error exactly where its length is no multiple of 4 (R83, R92). -/
theorem startDec_err (n : Word24) (s : State) :
    (startDec n s).status.err = if n.toNat % 4 ≠ 0 then .invalidInputLength else .none := by
  unfold startDec; dsimp only; split
  · rfl
  · split <;> rfl

@[simp] theorem startCrc_acc (n : Word24) (s : State) : (startCrc n s).acc = crcInit := by
  unfold startCrc; dsimp only; split <;> rfl

@[simp] theorem startCrc_err (n : Word24) (s : State) : (startCrc n s).status.err = .none := by
  unfold startCrc; dsimp only; split <;> rfl

theorem startCrc_result (n : Word24) (s : State) :
    (startCrc n s).result = if n = 0#24 then crcValue crcInit else s.result := by
  unfold startCrc; dsimp only; split <;> rfl

/-! ### What a command word does (R105, R110) -/

/-- The three reasons a command word is rejected (R110). -/
def Rejects (w : Word) (s : State) : Prop :=
  (∃ why, decode w = .reserved why) ∨ (isStartWord (decode w) = true ∧ s.status.busy = true) ∨
    ((∃ b, decode w = .instr (.data b)) ∧ s.status.busy = false)

/-- The ways a command word can act: it is rejected, starts a job, or delivers an element to the running one. -/
inductive WordNext (w : Word) (s : State) : State → Prop where
  | rejected (h : Rejects w s) : WordNext w s (rejectCommand s)
  | enc (n : Word24) (hw : decode w = .instr (.enc n)) (hb : s.status.busy = false) : WordNext w s (startEnc n s)
  | dec (n : Word24) (hw : decode w = .instr (.dec n)) (hb : s.status.busy = false) : WordNext w s (startDec n s)
  | crc (n : Word24) (hw : decode w = .instr (.crc n)) (hb : s.status.busy = false) : WordNext w s (startCrc n s)
  | data (b : Byte) (hw : decode w = .instr (.data b)) (hb : s.status.busy = true) :
      WordNext w s (dataBody b s).counted

/-- Inversion of a command word's effect. -/
theorem wordNext (w : Word) (s : State) : WordNext w s (wordEffect w s) := by
  cases hw : decode w with
  | reserved why =>
    have e : wordEffect w s = rejectCommand s := by simp only [wordEffect, hw]
    rw [e]; exact .rejected (.inl ⟨why, hw⟩)
  | instr i =>
    rw [wordEffect_instr hw]
    cases hb : s.status.busy <;> cases i <;> simp only [effect, hb, Bool.false_eq_true, if_true, if_false]
    · exact .enc _ hw hb
    · exact .dec _ hw hb
    · exact .crc _ hw hb
    · exact .rejected (.inr (.inr ⟨⟨_, hw⟩, hb⟩))
    · exact .rejected (.inr (.inl ⟨by rw [hw]; rfl, hb⟩))
    · exact .rejected (.inr (.inl ⟨by rw [hw]; rfl, hb⟩))
    · exact .rejected (.inr (.inl ⟨by rw [hw]; rfl, hb⟩))
    · exact .data _ hw hb

/-- The same with the three start commands as one: whatever the operation, `Started` says what is left. -/
inductive WordKind (w : Word) (s : State) : State → Prop where
  | rejected (h : Rejects w s) : WordKind w s (rejectCommand s)
  | starts (op : JobOp) (n : Word24) (t : State) (hw : isStartWord (decode w) = true) (hb : s.status.busy = false)
      (ht : Started op n t) : WordKind w s t
  | data (b : Byte) (hw : decode w = .instr (.data b)) (hb : s.status.busy = true) :
      WordKind w s (dataBody b s).counted

theorem wordKind (w : Word) (s : State) : WordKind w s (wordEffect w s) := by
  have h := wordNext w s
  generalize wordEffect w s = t at h ⊢
  cases h with
  | rejected h => exact .rejected h
  | enc n hw hb => exact .starts .enc n _ (by rw [hw]; rfl) hb (started_startEnc n s)
  | dec n hw hb => exact .starts .dec n _ (by rw [hw]; rfl) hb (started_startDec n s)
  | crc n hw hb => exact .starts .crc n _ (by rw [hw]; rfl) hb (started_startCrc n s)
  | data b hw hb => exact .data b hw hb

/-! ### What a command word emits (R31, R41) -/

theorem startEnc_out (n : Word24) (s : State) : (startEnc n s).out = s.out := by
  unfold startEnc; dsimp only; split <;> rfl

theorem startDec_out (n : Word24) (s : State) : (startDec n s).out = s.out := by
  unfold startDec; dsimp only; split
  · rfl
  · split <;> rfl

theorem startCrc_out (n : Word24) (s : State) : (startCrc n s).out = s.out := by
  unfold startCrc; dsimp only; split <;> rfl

/-- Only an accepted DATA word emits, and what it emits is what its body appends to `OUT`. -/
theorem emission_cases (w : Word) (s : State) :
    emission w s = [] ∨ ∃ b, decode w = .instr (.data b) ∧ s.status.busy = true ∧
      (dataBody b s).out = s.out ++ emission w s := by
  have hout := wordEffect_out w s
  have h := wordNext w s
  generalize wordEffect w s = t at h hout
  cases h with
  | rejected h => exact .inl (List.self_eq_append_right.mp hout)
  | enc n hw hb => exact .inl (List.self_eq_append_right.mp ((startEnc_out n s).symm.trans hout))
  | dec n hw hb => exact .inl (List.self_eq_append_right.mp ((startDec_out n s).symm.trans hout))
  | crc n hw hb => exact .inl (List.self_eq_append_right.mp ((startCrc_out n s).symm.trans hout))
  | data b hw hb => exact .inr ⟨b, hw, hb, hout⟩

/-- In an encode job a word emits alphabet characters and pads only. -/
theorem isEncoderChar_of_mem_emission {w : Word} {s : State} (ho : s.status.op = .enc) {c : Byte}
    (hc : c ∈ emission w s) : IsEncoderChar c := by
  rcases emission_cases w s with h | ⟨b, -, -, hout⟩
  · rw [h] at hc; exact absurd hc List.not_mem_nil
  · by_cases he : s.status.err = .none
    · rw [dataBody_enc he ho] at hout
      obtain ⟨es, hes, hall⟩ := encData_form b s
      have heq : s.out ++ emission w s = s.out ++ es := hout.symm.trans (congrArg State.out hes)
      rw [List.append_cancel_left heq] at hc
      exact hall c hc
    · rw [dataBody_drain he] at hout
      rw [List.self_eq_append_right.mp hout] at hc
      exact absurd hc List.not_mem_nil

/-- In a checksum job, and before any job, no word emits. -/
theorem emission_eq_nil {w : Word} {s : State} (ho : s.status.op = .crc ∨ s.status.op = .none) :
    emission w s = [] := by
  rcases emission_cases w s with h | ⟨b, -, -, hout⟩
  · exact h
  · have keep : (dataBody b s).out = s.out := by
      by_cases he : s.status.err = .none
      · rcases ho with ho | ho
        · rw [dataBody_crc he ho, crcData_out]
        · rw [dataBody_of_op_none ho]
      · rw [dataBody_drain he]
    exact List.self_eq_append_right.mp (keep.symm.trans hout)

/-! ### What a step does to the core's registers -/

section ReframeFields
variable (s : State) (o : List Byte) (h : Option HeldWrite) (k : SinkReady) (is : List Input) (vs : List Word)

@[simp] theorem reframe_status : (s.reframe o h k is vs).status = s.status := rfl
@[simp] theorem reframe_result : (s.reframe o h k is vs).result = s.result := rfl
@[simp] theorem reframe_remain : (s.reframe o h k is vs).remain = s.remain := rfl
@[simp] theorem reframe_len : (s.reframe o h k is vs).len = s.len := rfl
@[simp] theorem reframe_acc : (s.reframe o h k is vs).acc = s.acc := rfl

end ReframeFields

/-- The next step serves a write of `w` to `CMD`. -/
def WritesNext (w : Word) (s : State) : Prop :=
  s.held = Option.none ∧ ∃ rest, s.inputs = cmdWrite s.platform w :: rest

/-- The ways a step can treat the core's registers: reset; none of them changes; or a word is performed, one that is
written now or one that has been held. -/
inductive StepKind (s : State) : State → Prop where
  | reset (rest : List Input) (hi : s.inputs = .reset :: rest) : StepKind s (resetCore { s with inputs := rest })
  | keeps (o : List Byte) (h : Option HeldWrite) (k : SinkReady) (is : List Input) (vs : List Word) :
      StepKind s (s.reframe o h k is vs)
  | performs (w : Word) (o : List Byte) (k : SinkReady) (is : List Input) (vs : List Word)
      (hw : WritesNext w s ∨ ∃ us, s.held = some ⟨w, us⟩) :
      StepKind s ((wordEffect w s).reframe o Option.none k is vs)

/-- Inversion of a step, as far as the core's registers go. -/
theorem stepKind {s t : State} (h : step s = .next t) : StepKind s t := by
  cases step_next h with
  | idle h0 hi => exact .keeps s.out s.held s.sink s.inputs s.replies
  | reset rest hi => exact .reset rest hi
  | sink r rest h0 hi => exact .keeps s.out s.held r rest s.replies
  | read r rest h0 hi => exact .keeps s.out s.held s.sink rest _
  | ignored r v rest hr h0 hi => exact .keeps s.out s.held s.sink rest s.replies
  | write w rest h0 hi hs => exact .performs w _ _ rest (wordEffect w s).replies (.inl ⟨h0, rest, hi⟩)
  | hold w rest h0 hi hs => exact .keeps _ _ _ rest s.replies
  | resume hd r rest h0 hi hs =>
    exact .performs hd.word _ _ rest (wordEffect hd.word s).replies (.inr ⟨hd.untaken, h0⟩)
  | stillHeld hd r rest h0 hi hs => exact .keeps _ _ _ rest s.replies

/-- Under the invariant a held word is a DATA word of a running job: no other word emits anything to be held. -/
theorem State.Inv.held_data {s : State} (hi : s.Inv) {w : Word} {us : List Byte} (hh : s.held = some ⟨w, us⟩) :
    ∃ b, decode w = .instr (.data b) ∧ s.status.busy = true := by
  obtain ⟨hne, -, handed, -, he⟩ := hi.held_tail _ hh
  rcases emission_cases w s with h | ⟨b, hw, hb, -⟩
  · exact absurd (List.append_eq_nil_iff.mp (he.symm.trans h)).2 hne
  · exact ⟨b, hw, hb⟩

/-- Under the invariant a word that starts a job or is rejected is written now, not one that was held. -/
theorem State.Inv.writesNext {s : State} (hi : s.Inv) {w : Word}
    (hw : WritesNext w s ∨ ∃ us, s.held = some ⟨w, us⟩)
    (hr : Rejects w s ∨ s.status.busy = false) : WritesNext w s := by
  refine hw.resolve_right fun ⟨us, hh⟩ => ?_
  obtain ⟨b, hd, hb⟩ := hi.held_data hh
  simp [Rejects, hd, hb, isStartWord] at hr

/-- A start word written while no job runs is an accepted start command. -/
theorem WritesNext.startsJob {w : Word} {s : State} (h : WritesNext w s) (hb : s.status.busy = false)
    (hw : isStartWord (decode w) = true) : s.startsJob = true := by
  obtain ⟨h0, rest, hi⟩ := h
  simp [State.startsJob, h0, hi, cmdWrite, hb, hw]

theorem resetsNext_of_reset {s : State} {rest : List Input} (hi : s.inputs = .reset :: rest) :
    s.resetsNext = true := by simp [State.resetsNext, hi]

/-! ### The statements -/

/-- Settles O51: every field of the reset state is at hand. -/
theorem resetMeetsTheInvariant : Obligations.ResetMeetsTheInvariant where
  busy_iff := by decide
  not_both := by decide
  idle_iff := by decide
  fresh := by decide
  remain_le := by decide
  err_dec := by decide
  err_length := by decide
  acc_bound := by decide
  crc_result := by decide
  scratch := nofun
  held_tail := nofun

/-- Settles O53: of the ways a step treats the registers, only reset, `crc 0` and the last word of a checksum job write
`RESULT`. -/
theorem resultChangesOnlyAtCrcCompletion : Obligations.ResultChangesOnlyAtCrcCompletion := by
  intro s t h hne
  cases stepKind h with
  | reset rest hi => exact .inl ⟨resetsNext_of_reset hi, rfl⟩
  | keeps => exact absurd rfl hne
  | performs w o k is vs hw =>
    right
    simp only [reframe_status, reframe_result, reframe_acc] at hne ⊢
    have hn := wordNext w s
    generalize wordEffect w s = u at hn hne ⊢
    cases hn with
    | rejected hr => exact absurd rfl hne
    | enc n hw hb => exact absurd (startEnc_result n s) hne
    | dec n hw hb => exact absurd (startDec_result n s) hne
    | crc n hw hb =>
      rw [startCrc_result] at hne ⊢
      split at hne
      · rename_i hn
        obtain ⟨hbusy, hdone, hop, -, -, -⟩ := started_startCrc n s
        rw [if_pos hn, startCrc_acc]
        exact ⟨hop, Bool.eq_false_iff.mpr fun hc => hbusy.mp hc hn, hdone.mpr hn, rfl⟩
      · exact absurd rfl hne
    | data b hw hb =>
      rcases dataBody_result b s with hk | ⟨ho, hl, hr⟩
      · exact absurd hk hne
      · simp [ho, hl, hr]

/-- What may stand in the elements a step appends to `OUT` (R31, R41). -/
def AppendAllowed (s : State) (es : List Byte) : Prop :=
  (s.resetsNext = true → es = []) ∧ (s.status.op = .enc → ∀ c ∈ es, IsEncoderChar c) ∧
    (s.status.op = .crc ∨ s.status.op = .none → es = [])

theorem appendAllowed_nil (s : State) : AppendAllowed s [] :=
  ⟨fun _ => rfl, fun _ _ h => absurd h List.not_mem_nil, fun _ => rfl⟩

/-- Elements a word emits in this state may be appended by a step that is not reset. -/
theorem appendAllowed_of_emission {s : State} {es : List Byte} (w : Word) (hr : s.resetsNext = false)
    (hs : es ⊆ emission w s) : AppendAllowed s es := by
  refine ⟨fun h => ?_, fun ho c hc => isEncoderChar_of_mem_emission ho (hs hc), fun ho => ?_⟩
  · rw [hr] at h; cases h
  · rw [emission_eq_nil ho] at hs; exact List.subset_nil.mp hs

theorem SinkReady.taken_subset (r : SinkReady) (es : List Byte) : r.taken es ⊆ es := by
  cases r with
  | always => exact List.Subset.refl es
  | atMost n => exact List.take_subset n es

/-- Under the invariant what is left of a held write is part of what its word emits. -/
theorem State.Inv.untaken_subset {s : State} (hi : s.Inv) {hd : HeldWrite} (hh : s.held = some hd) :
    hd.untaken ⊆ emission hd.word s := by
  obtain ⟨-, -, handed, -, he⟩ := hi.held_tail _ hh
  rw [he]; exact List.subset_append_right _ _

/-- Settles O52: what a step appends is part of what the word it performs, or has held, emits. -/
theorem outOnlyGrows : Obligations.OutOnlyGrows := by
  intro s t hi h
  have keep : ∃ es, s.out = s.out ++ es ∧ AppendAllowed s es := ⟨[], (List.append_nil _).symm, appendAllowed_nil s⟩
  have same : ∃ vs, s.replies = s.replies ++ vs := ⟨[], (List.append_nil _).symm⟩
  cases step_next h with
  | idle h0 hin => exact ⟨keep, rfl, same⟩
  | reset rest hin => exact ⟨keep, rfl, same⟩
  | sink r rest h0 hin => exact ⟨keep, rfl, same⟩
  | read r rest h0 hin => exact ⟨keep, rfl, _, rfl⟩
  | ignored r v rest hr h0 hin => exact ⟨keep, rfl, same⟩
  | write w rest h0 hin hs =>
    obtain ⟨-, -, -, hrep, hplat, -⟩ := wordEffect_outside w s
    have hr : s.resetsNext = false := by simp [State.resetsNext, hin, cmdWrite]
    refine ⟨⟨_, wordEffect_out w s, appendAllowed_of_emission w hr (List.Subset.refl _)⟩, hplat, [], ?_⟩
    rw [List.append_nil]; exact hrep
  | hold w rest h0 hin hs =>
    have hr : s.resetsNext = false := by simp [State.resetsNext, hin, cmdWrite]
    exact ⟨⟨_, rfl, appendAllowed_of_emission w hr (SinkReady.taken_subset _ _)⟩, rfl, same⟩
  | resume hd r rest h0 hin hs =>
    obtain ⟨-, -, -, hrep, hplat, -⟩ := wordEffect_outside hd.word s
    have hr : s.resetsNext = false := by simp [State.resetsNext, hin]
    refine ⟨⟨_, rfl, appendAllowed_of_emission hd.word hr (hi.untaken_subset h0)⟩, hplat, [], ?_⟩
    rw [List.append_nil]; exact hrep
  | stillHeld hd r rest h0 hin hs =>
    have hr : s.resetsNext = false := by simp [State.resetsNext, hin]
    exact ⟨⟨_, rfl, appendAllowed_of_emission hd.word hr
      fun _ hc => hi.untaken_subset h0 (SinkReady.taken_subset _ _ hc)⟩, rfl, same⟩

/-- Settles O54, by what a word that is performed does to `STATUS` and `LEN`. -/
theorem statusFieldsKeepTheirValues : Obligations.StatusFieldsKeepTheirValues := by
  intro s t hi h
  cases stepKind h with
  | reset rest hin => exact ⟨fun hr => by simp [resetsNext_of_reset hin] at hr, fun _ hc => by cases hc⟩
  | keeps o hd k is vs =>
    refine ⟨fun _ _ => ⟨rfl, rfl, fun _ => rfl, fun hne => absurd rfl hne, id⟩, fun hc hc' => ?_⟩
    exact absurd (hc.symm.trans hc') Bool.false_ne_true
  | performs w o k is vs hw =>
    simp only [reframe_status, reframe_len]
    have hk := wordKind w s
    generalize wordEffect w s = u at hk ⊢
    cases hk with
    | rejected hr =>
      refine ⟨fun _ _ => ⟨rfl, rfl, fun _ => rfl, fun hne => absurd rfl hne, fun _ => rfl⟩, fun _ _ => ?_⟩
      obtain ⟨h0, rest, hin⟩ := hi.writesNext hw (.inl hr)
      exact ⟨h0, w, rest, hin, hr⟩
    | starts op n _ hsw hb ht =>
      refine ⟨fun _ hns => ?_, fun _ hc => ?_⟩
      · rw [(hi.writesNext hw (.inr hb)).startsJob hb hsw] at hns; cases hns
      · rw [ht.cmderr] at hc; cases hc
    | data b hd hb =>
      simp only [counted_op, counted_err, counted_cmderr, counted_len, dataBody_op, dataBody_cmderr, dataBody_len]
      refine ⟨fun _ _ => ⟨trivial, trivial, fun hne => ?_, fun hne => ?_, id⟩, fun hc hc' => ?_⟩
      · exact (dataBody_err b s).resolve_right fun ⟨he, _⟩ => hne he
      · obtain ⟨-, hop, herr⟩ := (dataBody_err b s).resolve_left hne
        exact ⟨herr, hop, hb⟩
      · exact absurd (hc.symm.trans hc') Bool.false_ne_true

/-- Settles O55, by what a word that is performed does to `BUSY` and `DONE`. -/
theorem busyAndDoneFollowTheJob : Obligations.BusyAndDoneFollowTheJob := by
  intro s t hi h
  cases stepKind h with
  | reset rest hin =>
    have hr := resetsNext_of_reset hin
    exact ⟨fun _ hc => absurd hc Bool.false_ne_true, fun _ _ => .inl ⟨hr, rfl⟩,
      fun _ hc => absurd hc Bool.false_ne_true, fun _ _ => .inl hr⟩
  | keeps o hd k is vs => simp +contextual
  | performs w o k is vs hw =>
    simp only [reframe_status, reframe_len]
    have hk := wordKind w s
    generalize wordEffect w s = u at hk ⊢
    cases hk with
    | rejected hr => simp +contextual
    | starts op n _ hsw hb ht =>
      have hj := (hi.writesNext hw (.inr hb)).startsJob hb hsw
      obtain ⟨hbusy, hdone, -, -, hlen, -⟩ := ht
      refine ⟨fun _ hc => ⟨hj, ?_⟩, fun hc => ?_, fun _ hc => .inr ⟨hj, ?_⟩, fun _ _ => .inr hj⟩
      · exact Bool.eq_false_iff.mpr fun hd => hbusy.mp hc (hdone.mp hd)
      · rw [hb] at hc; cases hc
      · rw [hlen]; exact hdone.mp hc
    | data b hd hb =>
      have hnd : s.status.done = false := Bool.eq_false_iff.mpr fun hdn => hi.not_both ⟨hb, hdn⟩
      by_cases hl : s.remain = 1#24 <;> simp [hl, hb, hnd]

end Sys2Proof.Machine
end

section
/-! PROOFS. Every step keeps the core's invariant: the bound of the CRC register, the decoder's group buffer, and then
the invariant through each kind of step. -/

namespace Sys2Proof.Machine

/-! ### The CRC register stays below bit 24 (R96, R97) -/

/-- A number below 2^(n+1) with bit `n` clear is below 2^n. -/
theorem lt_two_pow_of_testBit_clear {x n : Nat} (h : x < 2 ^ (n + 1)) (hb : x.testBit n = false) : x < 2 ^ n := by
  refine Nat.lt_pow_two_of_testBit x fun i hi => ?_
  rcases Nat.eq_or_lt_of_le hi with rfl | hlt
  · exact hb
  · exact Nat.testBit_lt_two_pow (h.trans_le (Nat.pow_le_pow_right (by decide) hlt))

/-- A round clears bit 24, which the shift may have set, by the generator's own bit 24. -/
theorem crcRound_lt {a : Word} (h : a.toNat < 2 ^ 24) : (crcRound a).toNat < 2 ^ 24 := by
  have hs : (a <<< 1).toNat < 2 ^ 25 := by
    rw [BitVec.toNat_shiftLeft, Nat.shiftLeft_eq]; omega
  unfold crcRound
  dsimp only
  split
  · rename_i hb
    have hb' : (a <<< 1).toNat.testBit 24 = true := hb
    refine lt_two_pow_of_testBit_clear ?_ ?_
    · rw [BitVec.toNat_xor]; exact Nat.xor_lt_two_pow hs (by decide)
    · have hg : crcGenerator.toNat.testBit 24 = true := by decide
      rw [BitVec.toNat_xor, Nat.testBit_xor, hb', hg]; rfl
  · rename_i hb
    exact lt_two_pow_of_testBit_clear hs (Bool.eq_false_iff.mpr hb)

theorem crcRounds_lt (n : Nat) {a : Word} (h : a.toNat < 2 ^ 24) : (crcRounds n a).toNat < 2 ^ 24 := by
  induction n generalizing a with
  | zero => exact h
  | succ n ih => exact ih (crcRound_lt h)

/-- `CrcByte` keeps the register below bit 24 (R97). -/
theorem crcByte_lt {a : Word} (x : Byte) (h : a.toNat < 2 ^ 24) : (crcByte a x).toNat < 2 ^ 24 := by
  refine crcRounds_lt 8 ?_
  rw [BitVec.toNat_xor]
  refine Nat.xor_lt_two_pow h ?_
  have hx := x.isLt
  rw [BitVec.toNat_shiftLeft, Nat.shiftLeft_eq, BitVec.toNat_setWidth]
  omega

/-- The Crc24 value of a register below bit 24 is the whole register (R95, R97). -/
theorem crcValue_toNat {a : Word} (h : a.toNat < 2 ^ 24) : (crcValue a).toNat = a.toNat := by
  simp only [crcValue, BitVec.extractLsb'_toNat, Nat.shiftRight_zero]
  exact Nat.mod_eq_of_lt h

theorem crcInit_lt : crcInit.toNat < 2 ^ 24 := by decide

/-! ### Counting an element moves the position by one (R17, R108) -/

theorem remain_pred_toNat {r : Word24} (h : r ≠ 0#24) : (r - 1#24).toNat = r.toNat - 1 := by
  have h0 : r.toNat ≠ 0 := fun e => h (BitVec.eq_of_toNat_eq e)
  have hr := r.isLt
  rw [BitVec.toNat_sub, BitVec.toNat_ofNat]
  omega

theorem counted_pos {s : State} (h : s.remain ≠ 0#24) (hle : s.remain.toNat ≤ s.len.toNat) :
    s.counted.pos = s.pos + 1 := by
  have h0 : s.remain.toNat ≠ 0 := fun e => h (BitVec.eq_of_toNat_eq e)
  simp only [State.pos, counted_len, counted_remain, remain_pred_toNat h]
  omega

@[simp] theorem dataBody_pos (b : Byte) (s : State) : (dataBody b s).pos = s.pos := by
  simp only [State.pos, dataBody_len, dataBody_remain]

/-! ### The invariant and the parts of a step -/

/-- The invariant's clauses but the last speak of registers that `reframe` does not touch; the last is about the held
write. -/
theorem State.Inv.reframe {s : State} (hi : s.Inv) {o : List Byte} {hd : Option HeldWrite} (k : SinkReady)
    (is : List Input) (vs : List Word)
    (ht : ∀ h, hd = some h → h.untaken ≠ [] ∧
      ∃ before handed, o = before ++ handed ∧ emission h.word s = handed ++ h.untaken) :
    (s.reframe o hd k is vs).Inv :=
  { hi with
    held_tail := fun h e => by
      rw [emission_reframe]; exact ht h e }

theorem State.Inv.rejectCommand {s : State} (hi : s.Inv) (hh : s.held = none) : (rejectCommand s).Inv :=
  { hi with held_tail := fun h e => by rw [rejectCommand_held, hh] at e; cases e }

/-- The state an accepted start command leaves meets the invariant, given what the command leaves in `ERR`, `ACC` and
`RESULT`: its position is 0, so nothing is asked of the group buffer. -/
theorem Started.inv {op : JobOp} {n : Word24} {t : State} (h : Started op n t) (hop : op ≠ .none)
    (hed : t.status.err ≠ .none → op = .dec)
    (hel : op = .dec → (t.status.err = .invalidInputLength ↔ n.toNat % 4 ≠ 0))
    (hacc : op = .crc → t.acc.toNat < 2 ^ 24)
    (hres : op = .crc → n = 0#24 → t.result.toNat = t.acc.toNat)
    (hh : t.held = none) : t.Inv := by
  obtain ⟨hbusy, hdone, rfl, -, rfl, hremain⟩ := h
  have hpos : t.pos = 0 := by simp [State.pos, hremain]
  constructor
  case busy_iff => rw [hremain]; exact hbusy
  case not_both => exact fun ⟨hb, hd⟩ => hbusy.mp hb (hdone.mp hd)
  case idle_iff =>
    refine ⟨fun e => absurd e hop, fun ⟨hb, hd⟩ => ?_⟩
    rw [← Bool.not_eq_true, hbusy, not_not, ← hdone, hd] at hb; cases hb
  case fresh => exact fun e => absurd e hop
  case remain_le => rw [hremain]
  case err_dec => exact hed
  case err_length => exact hel
  case acc_bound => exact hacc
  case crc_result => exact fun ho hd => hres ho (hdone.mp hd)
  case scratch =>
    intro _ _ _
    simp [State.decodeScratch, hpos]
  case held_tail =>
    intro w e
    rw [hh] at e; cases e

theorem inv_startEnc (n : Word24) {s : State} (hh : (startEnc n s).held = none) : (startEnc n s).Inv :=
  (started_startEnc n s).inv nofun (fun h => absurd (startEnc_err n s) h) nofun nofun nofun hh

theorem inv_startDec (n : Word24) {s : State} (hh : (startDec n s).held = none) : (startDec n s).Inv := by
  refine (started_startDec n s).inv nofun (fun _ => rfl) (fun _ => ?_) nofun nofun hh
  rw [startDec_err]
  split <;> simp_all

theorem inv_startCrc (n : Word24) {s : State} (hh : (startCrc n s).held = none) : (startCrc n s).Inv := by
  refine (started_startCrc n s).inv nofun (fun h => absurd (startCrc_err n s) h) nofun (fun _ => ?_) (fun _ hn => ?_) hh
  · rw [startCrc_acc]; exact crcInit_lt
  · rw [startCrc_acc, startCrc_result, if_pos hn]; exact crcValue_toNat crcInit_lt

/-- An index stored in an entry of the group buffer is below 64 (R28). -/
theorem index_entry_lt (r : Index) : (r.setWidth 8 : Byte).toNat < 64 := by
  have := r.isLt
  rw [BitVec.toNat_setWidth]; omega

/-- What the group buffer must hold of a decode job at position `p`, for a final group at `F` (R28, R93). -/
def GroupHolds (g : GroupBuffer) (p F : Nat) : Prop :=
  (1 ≤ p % 4 → g.g0.toNat < 64) ∧ (2 ≤ p % 4 → g.g1.toNat < 64) ∧ (p % 4 = 3 → p < F → g.g2.toNat < 64)

theorem decodeScratch_iff (s : State) : s.decodeScratch ↔ GroupHolds s.g s.pos (s.len.toNat - 4) := Iff.rfl

/-- An index stored at its slot is held for the next position. -/
theorem GroupHolds.set {g : GroupBuffer} {p F : Nat} (h : GroupHolds g p F) {b : Byte} (hb : b.toNat < 64) {k : Fin 4}
    (hk : (k : Nat) = p % 4) : GroupHolds (g.set k b) (p + 1) F := by
  obtain ⟨h0, h1, -⟩ := h
  match k, hk with
  | 0, (hk : 0 = p % 4) => exact ⟨fun _ => hb, by omega, by omega⟩
  | 1, (hk : 1 = p % 4) => exact ⟨fun _ => h0 (by omega), fun _ => hb, by omega⟩
  | 2, (hk : 2 = p % 4) => exact ⟨fun _ => h0 (by omega), fun _ => h1 (by omega), fun _ _ => hb⟩
  | 3, (hk : 3 = p % 4) => exact ⟨by omega, by omega, by omega⟩

/-- The body of a decode job stores what the next position needs, unless it raises an error (R93). -/
theorem groupHolds_decData {c : Byte} {s : State} (h : GroupHolds s.g s.pos (s.len.toNat - 4))
    (he : (decData c s).status.err = .none) : GroupHolds (decData c s).g (s.pos + 1) (s.len.toNat - 4) := by
  rcases decPlace_cases s with hp | ⟨hf, hk⟩ | ⟨hf, hk⟩
  · rw [decData_plain hp] at he ⊢
    cases hc : charToIndex c with
    | none => rw [decPlain_none hc] at he; cases he
    | some r => rw [decPlain_some_g hc]; exact h.set (index_entry_lt r) rfl
  · rw [decData_deferred hf hk]
    obtain ⟨h0, h1, -⟩ := h
    exact ⟨fun _ => h0 (by omega), fun _ => h1 (by omega), by omega⟩
  · exact ⟨by omega, by omega, by omega⟩

/-- An accepted DATA word keeps the invariant. -/
theorem inv_data (b : Byte) {s : State} (hi : s.Inv) (hb : s.status.busy = true) (hh : s.held = none) :
    (dataBody b s).counted.Inv := by
  have hrem : s.remain ≠ 0#24 := hi.busy_iff.mp hb
  have hop : s.status.op ≠ .none := fun e => by
    have hidle := (hi.idle_iff.mp e).1
    rw [hb] at hidle; cases hidle
  have hdone : s.status.done = false := Bool.eq_false_iff.mpr fun hd => hi.not_both ⟨hb, hd⟩
  have hcrc : s.status.op = .crc → dataBody b s = crcData b s := fun ho => by
    refine dataBody_crc (by_contra fun hne => ?_) ho
    have hdec := hi.err_dec hne
    rw [ho] at hdec; cases hdec
  have hacc : s.status.op = .crc → (dataBody b s).acc.toNat < 2 ^ 24 := fun ho => by
    rw [hcrc ho, crcData_acc]
    exact crcByte_lt b (hi.acc_bound ho)
  constructor
  case busy_iff =>
    rw [counted_busy, counted_remain, dataBody_remain, dataBody_busy, hb, ne_eq, remain_sub_one_eq_zero]
    by_cases hl : s.remain = 1#24 <;> simp [hl]
  case not_both =>
    rw [counted_busy, counted_done, dataBody_remain, dataBody_busy, dataBody_done, hb, hdone]
    by_cases hl : s.remain = 1#24 <;> simp [hl]
  case idle_iff =>
    rw [counted_op, dataBody_op, counted_busy, counted_done, dataBody_remain, dataBody_busy, hb]
    by_cases hl : s.remain = 1#24 <;> simp [hl, hop]
  case fresh => rw [counted_op, dataBody_op]; exact fun e => absurd e hop
  case remain_le =>
    rw [counted_remain, counted_len, dataBody_remain, dataBody_len, remain_pred_toNat hrem]
    exact (Nat.sub_le _ _).trans hi.remain_le
  case err_dec =>
    rw [counted_err, counted_op, dataBody_op]
    rcases dataBody_err b s with he | ⟨-, ho, -⟩
    · rw [he]; exact hi.err_dec
    · exact fun _ => ho
  case err_length =>
    rw [counted_err, counted_op, counted_len, dataBody_op, dataBody_len]
    rcases dataBody_err b s with he | ⟨he, -, he'⟩
    · rw [he]; exact hi.err_length
    · intro ho
      rw [he', ← hi.err_length ho, he]
      exact ⟨nofun, nofun⟩
  case acc_bound => rw [counted_op, counted_acc, dataBody_op]; exact hacc
  case crc_result =>
    rw [counted_op, counted_done, counted_result, counted_acc, dataBody_op, dataBody_remain, dataBody_done, hdone]
    intro ho hd
    have hl : s.remain = 1#24 := by simpa using hd
    rw [← crcValue_toNat (hacc ho), hcrc ho, crcData_acc, crcData_of_last hl]
  case scratch =>
    rw [counted_op, counted_err, dataBody_op, decodeScratch_iff, counted_g, counted_len, dataBody_len]
    intro ho he _
    rw [counted_pos (by rwa [dataBody_remain]) (by simpa only [dataBody_remain, dataBody_len] using hi.remain_le),
      dataBody_pos]
    have hs : s.status.err = .none := (dataBody_err b s).elim (fun h => h.symm.trans he) fun h => h.1
    rw [dataBody_dec hs ho] at he ⊢
    exact groupHolds_decData ((decodeScratch_iff s).mp (hi.scratch ho hs hb)) he
  case held_tail =>
    intro w e
    rw [counted_held, dataBody_held, hh] at e; cases e

/-- Every command word keeps the invariant (no write being held). -/
theorem State.Inv.wordEffect {s : State} (hi : s.Inv) (hh : s.held = none) (w : Word) : (wordEffect w s).Inv := by
  have hn := wordNext w s
  have hh' := (wordEffect_outside w s).1.trans hh
  generalize Machine.wordEffect w s = t at hn hh' ⊢
  cases hn with
  | rejected h => exact hi.rejectCommand hh
  | enc n hw hb => exact inv_startEnc n hh'
  | dec n hw hb => exact inv_startDec n hh'
  | crc n hw hb => exact inv_startCrc n hh'
  | data b hw hb => exact inv_data b hi hb hh

/-- A performed word keeps the invariant whether it was held or not: with the held write taken away the word does the
same (R47). -/
theorem State.Inv.performed {s : State} (hi : s.Inv) (w : Word) (o : List Byte) (k : SinkReady) (is : List Input)
    (vs : List Word) : ((Machine.wordEffect w s).reframe o none k is vs).Inv := by
  have free : (s.reframe s.out none s.sink s.inputs s.replies).Inv := hi.reframe _ _ _ nofun
  have h := (free.wordEffect rfl w).reframe (o := o) (hd := none) k is vs nofun
  rw [wordEffect_reframe] at h
  exact h

/-- What reset leaves meets the invariant, whatever the scratch registers hold. -/
theorem inv_resetCore (s : State) : (resetCore s).Inv where
  busy_iff := by simp [Status.reset]
  not_both := by simp [Status.reset]
  idle_iff := by simp [Status.reset]
  fresh _ := ⟨rfl, rfl, rfl⟩
  remain_le := Nat.le_refl _
  err_dec h := absurd rfl h
  err_length := nofun
  acc_bound := nofun
  crc_result := nofun
  scratch := nofun
  held_tail := nofun

/-- Settles O50: reset and a performed word keep the invariant, and every other step changes only what `reframe` does,
where the clause about a held write is the sink's split of the elements offered. -/
theorem stepKeepsTheInvariant : Obligations.StepKeepsTheInvariant := by
  intro s t hi h
  cases step_next h with
  | idle h0 hin => exact hi
  | reset rest hin => exact inv_resetCore _
  | sink r rest h0 hin => exact hi.reframe r rest s.replies hi.held_tail
  | read r rest h0 hin => exact hi.reframe s.sink rest _ hi.held_tail
  | ignored r v rest hr h0 hin => exact hi.reframe s.sink rest s.replies hi.held_tail
  | write w rest h0 hin hs => exact hi.performed w _ _ rest (wordEffect w s).replies
  | hold w rest h0 hin hs =>
    refine hi.reframe _ rest s.replies fun hd e => ?_
    cases e
    exact ⟨hs, _, _, rfl, (SinkReady.taken_append_untaken _ _).symm⟩
  | resume hd r rest h0 hin hs => exact hi.performed hd.word _ _ rest (wordEffect hd.word s).replies
  | stillHeld hd r rest h0 hin hs =>
    refine hi.reframe _ rest s.replies fun hd' e => ?_
    cases e
    obtain ⟨-, before, handed, hout, he⟩ := hi.held_tail hd h0
    refine ⟨hs, before, handed ++ r.taken hd.untaken, ?_, ?_⟩
    · rw [hout, List.append_assoc]
    · rw [he, List.append_assoc, SinkReady.taken_append_untaken]

end Sys2Proof.Machine
end

section
/-! PROOFS. What the scratch registers hold while no job runs is never observed: two states that look alike and agree on
the scratch the running job will still read make the same steps and go on looking alike. -/

namespace Sys2Proof.Machine

/-! ### The encoder's body by the byte's slot (R80) -/

theorem encData_slot0 {s : State} (h : s.pos % 3 = 0) (b : Byte) :
    encData b s = if s.remain = 1#24 then emitAll (encTail1 b) (setGroup 0 b s) else setGroup 0 b s := by
  have hk : s.encSlot = 0 := Fin.ext h
  simp [encData, hk, isLast_iff]

theorem encData_slot1 {s : State} (h : s.pos % 3 = 1) (b : Byte) :
    encData b s = if s.remain = 1#24 then emitAll (encTail2 s.g.g0 b) (setGroup 1 b s) else setGroup 1 b s := by
  have hk : s.encSlot = 1 := Fin.ext h
  simp [encData, hk, isLast_iff]

theorem encData_slot2 {s : State} (h : s.pos % 3 = 2) (b : Byte) :
    encData b s = emitAll (encFull s.g.g0 s.g.g1 b) (setGroup 2 b s) := by
  have hk : s.encSlot = 2 := Fin.ext h
  simp [encData, hk]

/-! ### What is visible of an update -/

@[simp] theorem setGroup_visible (k : Fin 4) (b : Byte) (s : State) : (setGroup k b s).visible = s.visible := rfl

@[simp] theorem emitAll_visible (es : List Byte) (s : State) : (emitAll es s).visible = emitAll es s.visible := rfl

@[simp] theorem rejectCommand_visible (s : State) : (rejectCommand s).visible = rejectCommand s.visible := rfl

@[simp] theorem counted_visible (s : State) : s.counted.visible = s.visible.counted := rfl

@[simp] theorem invalidCharacter_visible (s : State) : (invalidCharacter s).visible = invalidCharacter s.visible := rfl

@[simp] theorem startEnc_visible (n : Word24) (s : State) : (startEnc n s).visible = startEnc n s.visible := by
  unfold startEnc; dsimp only; split <;> rfl

@[simp] theorem startDec_visible (n : Word24) (s : State) : (startDec n s).visible = startDec n s.visible := by
  unfold startDec; dsimp only; split
  · rfl
  · split <;> rfl

/-- A checksum job's start writes `ACC` whatever it held, so it shows nothing of it. -/
theorem startCrc_visible (n : Word24) (s : State) : (startCrc n s).visible = (startCrc n s.visible).visible := by
  unfold startCrc; dsimp only; split <;> rfl

theorem emitGroup_visible (ks : List (Fin 4)) (s : State) :
    (emitGroup ks s).visible = emitAll (reassemble (ks.map (groupIndex · s))) s.visible := rfl

/-! ### States that look alike -/

/-- States that look the same have the same status and stand at the same place in their job. -/
theorem job_eq_of_visible_eq {s t : State} (hv : s.visible = t.visible) :
    s.status = t.status ∧ s.pos = t.pos ∧ s.len = t.len ∧ s.remain = t.remain :=
  ⟨(congrArg State.status hv :), (congrArg State.pos hv :), (congrArg State.len hv :), (congrArg State.remain hv :)⟩

/-- States that look the same have the same surroundings. -/
theorem outside_eq_of_visible_eq {s t : State} (hv : s.visible = t.visible) :
    s.out = t.out ∧ s.held = t.held ∧ s.sink = t.sink ∧ s.inputs = t.inputs ∧ s.replies = t.replies ∧
      s.platform = t.platform :=
  ⟨(congrArg State.out hv :), (congrArg State.held hv :), (congrArg State.sink hv :), (congrArg State.inputs hv :),
    (congrArg State.replies hv :), (congrArg State.platform hv :)⟩

/-- Agreement on the group entries an encode job at position `p` has stored and will read (R80). -/
def EncAgrees (p : Nat) (s t : State) : Prop :=
  (1 ≤ p % 3 → s.g.g0 = t.g.g0) ∧ (2 ≤ p % 3 → s.g.g1 = t.g.g1)

/-- Agreement on the group entries and `PEND` a decode job at position `p`, with its final group at `F`, has stored and
will read (R93). -/
def DecAgrees (F p : Nat) (s t : State) : Prop :=
  (1 ≤ p % 4 → s.g.g0 = t.g.g0) ∧ (2 ≤ p % 4 → s.g.g1 = t.g.g1) ∧ (p % 4 = 3 → p < F → s.g.g2 = t.g.g2) ∧
    (p % 4 = 3 → ¬ p < F → s.pend = t.pend)

/-- A running job is well placed, and the two states agree on the scratch it will still read. -/
structure JobAgrees (s t : State) : Prop where
  remain_ne : s.remain ≠ 0#24
  remain_le : s.remain.toNat ≤ s.len.toNat
  groups : s.status.op = .dec → s.len.toNat % 4 = 0
  enc : s.status.op = .enc → EncAgrees s.pos s t
  dec : s.status.op = .dec → DecAgrees (s.len.toNat - 4) s.pos s t
  crc : s.status.op = .crc → s.acc = t.acc

/-- Two states that look alike from outside and agree on the scratch a running job without error will still read. -/
structure Alike (s t : State) : Prop where
  visible : s.visible = t.visible
  job : s.status.busy = true → s.status.err = .none → JobAgrees s t

theorem alike_of_idle {s t : State} (hv : s.visible = t.visible) (hb : s.status.busy = false) : Alike s t :=
  ⟨hv, fun h => by rw [hb] at h; cases h⟩

theorem Alike.reframe {s t : State} (h : Alike s t) {o o' : List Byte} {hd hd' : Option HeldWrite} {k k' : SinkReady}
    {is is' : List Input} {vs vs' : List Word} (ho : o = o') (hh : hd = hd') (hk : k = k') (hi : is = is')
    (hvs : vs = vs') : Alike (s.reframe o hd k is vs) (t.reframe o' hd' k' is' vs') := by
  subst ho hh hk hi hvs
  exact ⟨congrArg (·.reframe o hd k is vs) h.visible, fun hb he => { h.job hb he with }⟩

theorem Alike.rejectCommand {s t : State} (h : Alike s t) : Alike (rejectCommand s) (rejectCommand t) :=
  ⟨congrArg Machine.rejectCommand h.visible, fun hb he => { h.job hb he with }⟩

/-- After a start command states that look alike are alike: at position 0 no group entry will be read before it is
stored. -/
theorem Started.alike {op : JobOp} {n : Word24} {s t : State} (h : Started op n s) (hv : s.visible = t.visible)
    (hdec : op = .dec → s.status.err = .none → n.toNat % 4 = 0) (hcrc : op = .crc → s.acc = t.acc) : Alike s t := by
  obtain ⟨hbusy, -, rfl, -, rfl, hremain⟩ := h
  have hpos : s.pos = 0 := by simp [State.pos, hremain]
  refine ⟨hv, fun hb he => ?_⟩
  constructor
  case remain_ne => rw [hremain]; exact hbusy.mp hb
  case remain_le => rw [hremain]
  case groups => exact fun ho => hdec ho he
  case enc => simp [EncAgrees, hpos]
  case dec => simp [DecAgrees, hpos]
  case crc => exact hcrc

/-! ### The bodies of DATA -/

/-- The body of an encode job stores the byte where the next position needs it. -/
theorem encAgrees_encData {s t : State} (b : Byte) (hpos : s.pos = t.pos) (h : EncAgrees s.pos s t) :
    EncAgrees (s.pos + 1) (encData b s) (encData b t) := by
  have hslot : t.encSlot = s.encSlot := by simp only [State.encSlot, hpos]
  obtain ⟨h0, -⟩ := h
  simp only [EncAgrees, encData_g, hslot]
  rcases encSlot_cases s with ⟨hk, hs⟩ | ⟨hk, hs⟩ | ⟨hk, hs⟩ <;> rw [hs]
  · exact ⟨fun _ => rfl, by omega⟩
  · exact ⟨fun _ => h0 (by omega), fun _ => rfl⟩
  · exact ⟨by omega, by omega⟩

/-- What the body of an encode job emits is decided by the bytes stored and the one delivered. -/
theorem visible_encData {s t : State} (b : Byte) (hv : s.visible = t.visible) (h : EncAgrees s.pos s t) :
    (encData b s).visible = (encData b t).visible := by
  obtain ⟨-, hpos, -, hrem⟩ := job_eq_of_visible_eq hv
  obtain ⟨h0, h1⟩ := h
  rcases encSlot_cases s with ⟨hk, -⟩ | ⟨hk, -⟩ | ⟨hk, -⟩
  · rw [encData_slot0 hk, encData_slot0 (hpos ▸ hk), hrem]
    split <;> simp [hv]
  · rw [encData_slot1 hk, encData_slot1 (hpos ▸ hk), hrem, h0 (by omega)]
    split <;> simp [hv]
  · rw [encData_slot2 hk, encData_slot2 (hpos ▸ hk), h0 (by omega), h1 (by omega)]
    simp [hv]

/-- A character judged at once shows itself, and at a group's end the entries stored. -/
theorem visible_decPlain {s t : State} (c : Byte) (hv : s.visible = t.visible)
    (h : DecAgrees (s.len.toNat - 4) s.pos s t) : (decPlain c s).visible = (decPlain c t).visible := by
  obtain ⟨-, hpos, hlen, -⟩ := job_eq_of_visible_eq hv
  have hslot : t.decSlot = s.decSlot := by simp only [State.decSlot, hpos]
  have hbefore : t.beforeFinalGroup = s.beforeFinalGroup := by
    unfold State.beforeFinalGroup State.finalGroup
    rw [hpos, hlen]
  cases hc : charToIndex c with
  | none => simp only [decPlain_none hc, invalidCharacter_visible, hv]
  | some r =>
    rw [decPlain_some hc, decPlain_some hc, hslot, hbefore]
    split
    · rename_i hend
      obtain ⟨hb, hs⟩ := hend
      obtain ⟨h0, h1, h2, -⟩ := h
      have hk : s.pos % 4 = 3 := congrArg Fin.val hs
      have hb : s.pos < s.len.toNat - 4 := (beforeFinalGroup_iff s).mp hb
      simp only [emitGroup_visible, setGroup_visible, hv, hs, groupIndex, setGroup_g, GroupBuffer.set_3, List.map_cons,
        List.map_nil, GroupBuffer.get_0, GroupBuffer.get_1, GroupBuffer.get_2, GroupBuffer.get_3,
        h0 (by omega), h1 (by omega), h2 hk hb]
    · simp only [setGroup_visible, hv]

/-- The last character shows the first two entries and the deferred character. -/
theorem visible_decFinal {s t : State} (c : Byte) (hv : s.visible = t.visible) (h0 : s.g.g0 = t.g.g0)
    (h1 : s.g.g1 = t.g.g1) (hp : s.pend = t.pend) : (decFinal c s).visible = (decFinal c t).visible := by
  refine decFinal_cases (P := fun u => u.visible = (decFinal c t).visible) c s ?_ ?_ ?_ ?_ ?_ <;> rw [hp]
  · rintro rfl hpp
    rw [decFinal_twoPads hpp]
    simp [emitGroup_visible, groupIndex, hv, h0, h1]
  · intro hn hpn
    rw [decFinal_badPend hn hpn]
    simp [hv]
  · rintro r rfl hpr
    rw [decFinal_onePad hpr]
    simp [emitGroup_visible, groupIndex, hv, h0, h1]
  · intro r hc hpr hn
    rw [decFinal_badChar hc hpr hn]
    simp [hv]
  · intro r q hpr hq
    rw [decFinal_full hpr hq]
    simp [emitGroup_visible, groupIndex, hv, h0, h1]

theorem visible_decData {s t : State} (c : Byte) (hv : s.visible = t.visible)
    (h : DecAgrees (s.len.toNat - 4) s.pos s t) : (decData c s).visible = (decData c t).visible := by
  obtain ⟨-, hpos, hlen, -⟩ := job_eq_of_visible_eq hv
  rcases decPlace_cases s with hp | ⟨hf, hk⟩ | ⟨hf, hk⟩
  · rw [decData_plain hp, decData_plain (by rwa [← hpos, ← hlen])]
    exact visible_decPlain c hv h
  · rw [decData_deferred hf hk, decData_deferred (by rwa [← hpos, ← hlen]) (by rwa [← hpos])]
    exact hv
  · rw [decData_final hf hk, decData_final (by rwa [← hpos, ← hlen]) (by rwa [← hpos])]
    obtain ⟨h0, h1, -, hpend⟩ := h
    exact visible_decFinal c hv (h0 (by omega)) (h1 (by omega)) (hpend hk hf)

/-- The body of a decode job stores the character where the next position needs it, unless it raises an error. -/
theorem decAgrees_decData {s t : State} (c : Byte) (hv : s.visible = t.visible) (hg : s.len.toNat % 4 = 0)
    (h : DecAgrees (s.len.toNat - 4) s.pos s t) (he : (decData c s).status.err = .none) :
    DecAgrees (s.len.toNat - 4) (s.pos + 1) (decData c s) (decData c t) := by
  obtain ⟨-, hpos, hlen, -⟩ := job_eq_of_visible_eq hv
  have hslot : t.decSlot = s.decSlot := by simp only [State.decSlot, hpos]
  obtain ⟨h0, h1, -, -⟩ := h
  rcases decPlace_cases s with hp | ⟨hf, hk⟩ | ⟨hf, hk⟩
  · rw [decData_plain hp] at he
    rw [decData_plain hp, decData_plain (by rwa [← hpos, ← hlen])]
    cases hc : charToIndex c with
    | none => rw [decPlain_none hc] at he; cases he
    | some r =>
      simp only [DecAgrees, decPlain_some_g hc, hslot]
      rcases decSlot_cases s with ⟨hk, hs⟩ | ⟨hk, hs⟩ | ⟨hk, hs⟩ | ⟨hk, hs⟩ <;> rw [hs]
      · exact ⟨fun _ => rfl, by omega, by omega, by omega⟩
      · exact ⟨fun _ => h0 (by omega), fun _ => rfl, by omega, by omega⟩
      · exact ⟨fun _ => h0 (by omega), fun _ => h1 (by omega), fun _ _ => rfl, by omega⟩
      · exact ⟨by omega, by omega, by omega, by omega⟩
  · rw [decData_deferred hf hk, decData_deferred (by rwa [← hpos, ← hlen]) (by rwa [← hpos])]
    exact ⟨fun _ => h0 (by omega), fun _ => h1 (by omega), by omega, fun _ _ => rfl⟩
  · exact ⟨by omega, by omega, by omega, by omega⟩

theorem visible_crcData {s t : State} (b : Byte) (hv : s.visible = t.visible) (h : s.acc = t.acc) :
    (crcData b s).visible = (crcData b t).visible := by
  obtain ⟨-, -, -, hrem⟩ := job_eq_of_visible_eq hv
  by_cases hl : s.remain = 1#24
  · rw [crcData_of_last hl, crcData_of_last (hrem ▸ hl), h]
    exact congrArg (fun u => { u with result := crcValue (crcByte t.acc b) }) hv
  · rw [crcData_of_not_last hl, crcData_of_not_last (hrem ▸ hl)]
    exact hv

/-- Whatever the job, the body of DATA shows only scratch on which the states agree. -/
theorem visible_dataBody {s t : State} (b : Byte) (hv : s.visible = t.visible)
    (h : s.status.err = .none → JobAgrees s t) : (dataBody b s).visible = (dataBody b t).visible := by
  obtain ⟨hst, -, -, -⟩ := job_eq_of_visible_eq hv
  by_cases he : s.status.err = .none
  · have hj := h he
    have het : t.status.err = .none := hst ▸ he
    cases ho : s.status.op with
    | none => rw [dataBody_of_op_none ho, dataBody_of_op_none (hst ▸ ho)]; exact hv
    | enc => rw [dataBody_enc he ho, dataBody_enc het (hst ▸ ho)]; exact visible_encData b hv (hj.enc ho)
    | dec => rw [dataBody_dec he ho, dataBody_dec het (hst ▸ ho)]; exact visible_decData b hv (hj.dec ho)
    | crc => rw [dataBody_crc he ho, dataBody_crc het (hst ▸ ho)]; exact visible_crcData b hv (hj.crc ho)
  · rw [dataBody_drain he, dataBody_drain (hst ▸ he)]; exact hv

/-- An accepted DATA word keeps states alike. -/
theorem Alike.data {s t : State} (h : Alike s t) (hb : s.status.busy = true) (b : Byte) :
    Alike (dataBody b s).counted (dataBody b t).counted := by
  obtain ⟨hst, hpos, -, -⟩ := job_eq_of_visible_eq h.visible
  refine ⟨congrArg State.counted (visible_dataBody b h.visible (h.job hb)), fun hb' he' => ?_⟩
  rw [counted_err] at he'
  have he : s.status.err = .none := (dataBody_err b s).elim (fun e => e.symm.trans he') fun e => e.1
  have het : t.status.err = .none := hst ▸ he
  obtain ⟨hne, hle, hgroups, henc, hdec, hcrc⟩ := h.job hb he
  have hnext : (dataBody b s).counted.pos = s.pos + 1 := by
    rw [counted_pos (by rwa [dataBody_remain]) (by rwa [dataBody_remain, dataBody_len]), dataBody_pos]
  constructor
  case remain_ne =>
    rw [counted_remain, dataBody_remain, ne_eq, remain_sub_one_eq_zero]
    intro hl
    simp [hl] at hb'
  case remain_le =>
    rw [counted_remain, counted_len, dataBody_remain, dataBody_len, remain_pred_toNat hne]
    omega
  case groups => rwa [counted_op, counted_len, dataBody_op, dataBody_len]
  case enc =>
    rw [counted_op, dataBody_op, hnext]
    intro ho
    rw [dataBody_enc he ho, dataBody_enc het (hst ▸ ho)]
    exact encAgrees_encData b hpos (henc ho)
  case dec =>
    rw [counted_op, dataBody_op, counted_len, dataBody_len, hnext]
    intro ho
    rw [dataBody_dec he ho] at he' ⊢
    rw [dataBody_dec het (hst ▸ ho)]
    exact decAgrees_decData b h.visible (hgroups ho) (hdec ho) he'
  case crc =>
    rw [counted_op, dataBody_op, counted_acc, counted_acc]
    intro ho
    rw [dataBody_crc he ho, dataBody_crc het (hst ▸ ho), crcData_acc, crcData_acc, hcrc ho]

/-! ### Words, steps and runs -/

/-- An instruction keeps states alike. -/
theorem Alike.effect {s t : State} (h : Alike s t) (i : Instr) : Alike (effect i s) (effect i t) := by
  obtain ⟨hst, -, -, -⟩ := job_eq_of_visible_eq h.visible
  cases hb : s.status.busy with
  | true =>
    have hbt : t.status.busy = true := hst ▸ hb
    cases i <;> simp only [Machine.effect, hb, hbt, if_true]
    case data b => exact h.data hb b
    all_goals exact h.rejectCommand
  | false =>
    have hbt : t.status.busy = false := hst ▸ hb
    cases i <;> simp only [Machine.effect, hb, hbt, Bool.false_eq_true, if_false]
    case enc n =>
      refine (started_startEnc n s).alike ?_ nofun nofun
      rw [startEnc_visible, startEnc_visible, h.visible]
    case dec n =>
      refine (started_startDec n s).alike ?_ (fun _ he => ?_) nofun
      · rw [startDec_visible, startDec_visible, h.visible]
      · rw [startDec_err] at he
        by_contra hn
        rw [if_pos hn] at he; cases he
    case crc n =>
      refine (started_startCrc n s).alike ?_ nofun fun _ => ?_
      · rw [startCrc_visible, startCrc_visible n t, h.visible]
      · rw [startCrc_acc, startCrc_acc]
    case data b => exact h.rejectCommand

theorem Alike.wordEffect {s t : State} (h : Alike s t) (w : Word) : Alike (wordEffect w s) (wordEffect w t) := by
  unfold Machine.wordEffect
  cases decode w with
  | instr i => exact h.effect i
  | reserved why => exact h.rejectCommand

/-- A word emits the same in states that are alike. -/
theorem Alike.emission {s t : State} (h : Alike s t) (w : Word) : emission w s = emission w t := by
  obtain ⟨hout, -, -, -, -, -⟩ := outside_eq_of_visible_eq h.visible
  have hnext : (Machine.wordEffect w s).out = (Machine.wordEffect w t).out := by
    simpa using congrArg State.out (h.wordEffect w).visible
  rw [emission_eq_drop, emission_eq_drop, hnext, hout]

/-- Outcomes that are the same but for states that are only alike. -/
inductive AlikeOutcome : Host.Outcome State Fault Refusal → Host.Outcome State Fault Refusal → Prop where
  | next {s t : State} (h : Alike s t) : AlikeOutcome (.next s) (.next t)
  | fault (r : Fault) : AlikeOutcome (.fault r) (.fault r)
  | refused (r : Refusal) : AlikeOutcome (.refused r) (.refused r)

theorem AlikeOutcome.visible {x y : Host.Outcome State Fault Refusal} (h : AlikeOutcome x y) :
    visibleOutcome x = visibleOutcome y := by
  cases h with
  | next h => exact congrArg Host.Outcome.next h.visible
  | fault r => rfl
  | refused r => rfl

/-- The sink does the same with what two alike states offer it. -/
theorem Alike.offer {s t : State} (h : Alike s t) (w : Word) (es : List Byte) :
    AlikeOutcome (offer w es s) (offer w es t) := by
  obtain ⟨hout, -, hsink, hin, hrep, -⟩ := outside_eq_of_visible_eq h.visible
  by_cases hu : s.sink.untaken es = []
  · obtain ⟨-, -, hs1, hs2, -, -⟩ := wordEffect_outside w s
    obtain ⟨-, -, ht1, ht2, -, -⟩ := wordEffect_outside w t
    rw [offer_taken hu, offer_taken (hsink ▸ hu)]
    exact .next ((h.wordEffect w).reframe (by rw [hout]) rfl (by rw [hsink]) (by rw [hs1, ht1, hin])
      (by rw [hs2, ht2, hrep]))
  · rw [offer_held hu, offer_held (hsink ▸ hu)]
    exact .next (h.reframe (by rw [hout, hsink]) (by rw [hsink]) (by rw [hsink]) hin hrep)

theorem readReg_visible (r : Reg) (s : State) : readReg r s.visible = readReg r s := by cases r <;> rfl

/-- A host access is answered alike. -/
theorem Alike.respond {s t : State} (h : Alike s t) (a : Access) : AlikeOutcome (respond a s) (respond a t) := by
  obtain ⟨hout, hheld, hsink, hin, hrep, hplat⟩ := outside_eq_of_visible_eq h.visible
  cases a with
  | read addr size =>
    cases ha : admission s.platform addr size with
    | error e => simp only [Machine.respond, ha, hplat ▸ ha]; exact .refused e
    | ok r =>
      simp only [Machine.respond, ha, hplat ▸ ha]
      have hread : readReg r s = readReg r t := by rw [← readReg_visible, h.visible, readReg_visible]
      exact .next (h.reframe hout hheld hsink hin (by rw [hrep, hread]))
  | write addr size v =>
    cases ha : admission s.platform addr size with
    | error e => simp only [Machine.respond, ha, hplat ▸ ha]; exact .refused e
    | ok r =>
      simp only [Machine.respond, ha, hplat ▸ ha]
      cases r with
      | cmd =>
        simp only [writeReg, writeCmd, h.emission v]
        exact h.offer v _
      | status => exact .next h
      | result => exact .next h
      | remain => exact .next h

/-- Reset forgets what the states differed in. -/
theorem Alike.resetCore {s t : State} (h : Alike s t) : Alike (resetCore s) (resetCore t) :=
  alike_of_idle (congrArg (fun u => (Machine.resetCore u).visible) h.visible :) rfl

/-- A step keeps states alike, and stops in one where it stops in the other. -/
theorem Alike.step {s t : State} (h : Alike s t) : AlikeOutcome (step s) (step t) := by
  obtain ⟨hout, hheld, hsink, hin, hrep, -⟩ := outside_eq_of_visible_eq h.visible
  have consumed (rest : List Input) : Alike { s with inputs := rest } { t with inputs := rest } :=
    h.reframe hout hheld hsink rfl hrep
  have sinkReady (r : SinkReady) (rest : List Input) :
      Alike { s with inputs := rest, sink := r } { t with inputs := rest, sink := r } :=
    h.reframe hout hheld rfl rfl hrep
  cases hh : s.held with
  | none =>
    rw [step_free hh, step_free (hheld ▸ hh)]
    cases hi : s.inputs with
    | nil => simp only [stepFree, hi, hin ▸ hi]; exact .next h
    | cons i rest =>
      simp only [stepFree, hi, hin ▸ hi]
      cases i with
      | access a => exact (consumed rest).respond a
      | reset => exact .next (consumed rest).resetCore
      | sinkReady r => exact .next (sinkReady r rest)
  | some hd =>
    rw [step_held hh, step_held (hheld ▸ hh)]
    cases hi : s.inputs with
    | nil => simp only [stepHeld, hi, hin ▸ hi]; exact .fault _
    | cons i rest =>
      simp only [stepHeld, hi, hin ▸ hi]
      cases i with
      | access a => exact .fault _
      | reset => exact .next (consumed rest).resetCore
      | sinkReady r => exact (sinkReady r rest).offer hd.word hd.untaken

theorem Alike.runSteps {s t : State} (h : Alike s t) (n : Nat) : AlikeOutcome (runSteps n s) (runSteps n t) := by
  induction n generalizing s t with
  | zero => exact .next h
  | succ n ih =>
    have hstep := h.step
    generalize hs : Machine.step s = x, ht : Machine.step t = y at hstep
    cases hstep with
    | next h' => rw [runSteps_succ n hs, runSteps_succ n ht]; exact ih h'
    | fault r => rw [runSteps_fault n hs, runSteps_fault n ht]; exact .fault r
    | refused r => rw [runSteps_refused n hs, runSteps_refused n ht]; exact .refused r

/-- Settles O58: idle states that look alike are alike, and every step keeps them so. -/
theorem scratchIsNeverObserved : Obligations.ScratchIsNeverObserved :=
  fun n _ _ hb _ hv => ((alike_of_idle hv hb).runSteps n).visible

end Sys2Proof.Machine
end

section
/-! PROOFS. The host port's memory behaviour (20_memory.md): which accesses are refused, and how the sink holds, delays and
ends a `CMD` write. -/

namespace Sys2Proof.Machine

/-! ### The step, both ways -/

theorem readReg_inputs (r : Reg) (s : State) (is : List Input) : readReg r { s with inputs := is } = readReg r s := by
  cases r <;> rfl

/-- A host write to a register other than `CMD` is ignored (R45). -/
theorem writeReg_readOnly {r : Reg} (hr : r ≠ .cmd) (v : Word) (s : State) : writeReg r v s = .next s := by
  cases r with
  | cmd => exact absurd rfl hr
  | status | result | remain => rfl

/-- `StepNext` says no more than a step does: each of its cases is a step. -/
theorem step_of_stepNext {s t : State} (h : StepNext s t) : step s = .next t := by
  cases h with
  | idle h0 hi => rw [step_free h0, stepFree, hi]
  | reset rest hi =>
    unfold step
    split
    · rw [stepFree, hi]
    · rw [stepHeld, hi]
  | sink r rest h0 hi => rw [step_free h0, stepFree, hi]
  | read r rest h0 hi => simp only [step_free h0, stepFree, hi, respond, admission_regAddr, readReg_inputs]
  | ignored r v rest hr h0 hi => simp only [step_free h0, stepFree, hi, respond, admission_regAddr, writeReg_readOnly hr]
  | write w rest h0 hi hs =>
    rw [step_cmdWrite h0 hi, offer_taken (s := { s with inputs := rest }) hs, wordEffect_inputs]
    simp only [← wordEffect_out]
  | hold w rest h0 hi hs => rw [step_cmdWrite h0 hi, offer_held (s := { s with inputs := rest }) hs]
  | resume hd r rest h0 hi hs =>
    rw [step_held h0, stepHeld, hi]
    dsimp only
    rw [offer_taken (s := { s with inputs := rest, sink := r }) hs, wordEffect_inputs_sink]
  | stillHeld hd r rest h0 hi hs =>
    rw [step_held h0, stepHeld, hi]
    exact offer_held (s := { s with inputs := rest, sink := r }) hs

/-! ### A limited readiness (R48) -/

theorem SinkReady.untaken_atMost_eq_nil {n : Nat} {es : List Byte} :
    (SinkReady.atMost n).untaken es = [] ↔ es.length ≤ n := List.drop_eq_nil_iff

theorem SinkReady.untaken_atMost_ne_nil {n : Nat} {es : List Byte} (h : n < es.length) :
    (SinkReady.atMost n).untaken es ≠ [] :=
  fun e => Nat.not_le.mpr h (SinkReady.untaken_atMost_eq_nil.mp e)

theorem SinkReady.after_atMost {n : Nat} {es : List Byte} (h : n ≤ es.length) :
    (SinkReady.atMost n).after es = .atMost 0 := by
  simp only [SinkReady.after, Nat.sub_eq_zero_of_le h]

/-! ### A delayed write (R47, R48) -/

/-- How a write of `w` begun in `s` can stand, with the inputs `is` to come: it has had its effect, or the sink holds it
and nothing but `OUT` has changed. -/
inductive WriteUnderway (w : Word) (s : State) (is : List Input) : State → Prop where
  | ended (k : SinkReady) :
      WriteUnderway w s is ((wordEffect w s).reframe (wordEffect w s).out none k is s.replies)
  | held (handed left : List Byte) (k : SinkReady) (he : emission w s = handed ++ left) :
      WriteUnderway w s is (s.reframe (s.out ++ handed) (some ⟨w, left⟩) k is s.replies)

/-- A sink that takes all that is left of a held write ends it with the word's effect. -/
theorem step_ends_held {w : Word} {s : State} {handed left : List Byte} (he : emission w s = handed ++ left)
    (k : SinkReady) {r : SinkReady} (is : List Input) (hs : r.untaken left = []) :
    step (s.reframe (s.out ++ handed) (some ⟨w, left⟩) k (.sinkReady r :: is) s.replies) =
      .next ((wordEffect w s).reframe (wordEffect w s).out none (r.after left) is s.replies) := by
  rw [step_of_stepNext (.resume ⟨w, left⟩ r is rfl rfl hs), wordEffect_reframe, wordEffect_out, he]
  simp only [State.reframe, List.append_assoc]

/-- A change of the sink's readiness leaves a write under way. -/
theorem WriteUnderway.step {w : Word} {s u : State} {r : SinkReady} {is : List Input}
    (h : WriteUnderway w s (.sinkReady r :: is) u) : ∃ v, step u = .next v ∧ WriteUnderway w s is v := by
  cases h with
  | ended k => exact ⟨_, step_of_stepNext (.sink r is rfl rfl), .ended r⟩
  | held handed left k he =>
    by_cases hs : r.untaken left = []
    · exact ⟨_, step_ends_held he k is hs, .ended _⟩
    · refine ⟨_, step_of_stepNext (.stillHeld ⟨w, left⟩ r is rfl rfl hs), ?_⟩
      have hsplit : emission w s = (handed ++ r.taken left) ++ r.untaken left := by
        rw [he, List.append_assoc, SinkReady.taken_append_untaken]
      simpa only [State.reframe, List.append_assoc] using WriteUnderway.held _ _ (r.after left) hsplit

/-- A sink that becomes always ready ends a write under way. -/
theorem WriteUnderway.step_always {w : Word} {s u : State} {is : List Input}
    (h : WriteUnderway w s (.sinkReady .always :: is) u) :
    Machine.step u = .next ((wordEffect w s).reframe (wordEffect w s).out none .always is s.replies) := by
  cases h with
  | ended k => exact step_of_stepNext (.sink .always is rfl rfl)
  | held handed left k he => exact step_ends_held he k is rfl

/-- However often the sink becomes ready for a few elements only, a write under way ends when it is always ready. -/
theorem WriteUnderway.run {w : Word} {s u : State} {rest : List Input} (ns : List Nat)
    (h : WriteUnderway w s (ns.map (fun n => .sinkReady (.atMost n)) ++ .sinkReady .always :: rest) u) :
    runSteps (ns.length + 1) u =
      .next ((wordEffect w s).reframe (wordEffect w s).out none .always rest s.replies) := by
  induction ns generalizing u with
  | nil => exact runSteps_succ 0 h.step_always
  | cons n ns ih =>
    obtain ⟨v, hv, hu⟩ := h.step
    rw [List.length_cons, runSteps_succ _ hv]
    exact ih hu

/-- A write to `CMD` puts its word under way. -/
theorem step_cmdWrite_underway {w : Word} {s : State} {is : List Input} (h0 : s.held = none)
    (hi : s.inputs = cmdWrite s.platform w :: is) : ∃ u, step s = .next u ∧ WriteUnderway w s is u := by
  by_cases hs : s.sink.untaken (emission w s) = []
  · refine ⟨_, step_of_stepNext (.write w is h0 hi hs), ?_⟩
    obtain ⟨-, -, -, hrep, -, -⟩ := wordEffect_outside w s
    simp only [hrep]
    exact .ended (s.sink.after (emission w s))
  · exact ⟨_, step_of_stepNext (.hold w is h0 hi hs),
      .held _ _ _ (SinkReady.taken_append_untaken _ _).symm⟩

/-- Settles O10: a write stays under way until the always ready sink ends it; and the two ways a step can treat a held
write. -/
theorem delayedWriteEndsAsUndelayed : Obligations.DelayedWriteEndsAsUndelayed := by
  refine ⟨fun s t w ns rest h0 hi ht => ?_, fun s h n rest h0 hi hn => ?_, fun s h r rest hinv h0 hi hr => ?_⟩
  · obtain ⟨hheld, -, -, hrep, -, -⟩ := wordEffect_outside w s
    rw [onWriteCmd_eq, wordEffect_inputs] at ht
    cases ht
    obtain ⟨u, hu, hw⟩ := step_cmdWrite_underway h0 hi
    rw [runSteps_succ _ hu, hw.run ns]
    simp only [State.reframe, ← hrep, ← h0, ← hheld]
  · rw [step_of_stepNext (.stillHeld h (.atMost n) rest h0 hi (SinkReady.untaken_atMost_ne_nil hn)),
      SinkReady.after_atMost hn.le]
    rfl
  · obtain ⟨-, before, handed, hout, he⟩ := hinv.held_tail h h0
    have hs : r.untaken h.untaken = [] := by
      rcases hr with rfl | ⟨n, rfl, hn⟩
      · rfl
      · exact SinkReady.untaken_atMost_eq_nil.mpr hn
    refine ⟨wordEffect h.word s, before, handed, onWriteCmd_eq h.word s, hout, ?_, ?_⟩
    · rw [wordEffect_out, he]
    · rw [step_of_stepNext (.resume h r rest h0 hi hs), hout, List.append_assoc]

/-! ### Refusals (R43) -/

/-- The bus address of an access. -/
def Access.addr : Access → Nat
  | .read a _ => a
  | .write a _ _ => a

/-- The size of an access in bytes. -/
def Access.size : Access → Nat
  | .read _ n => n
  | .write _ n _ => n

/-- The sink may hold a write, but the offer is never refused. -/
theorem offer_ne_refused (w : Word) (es : List Byte) (s : State) (e : Refusal) : offer w es s ≠ .refused e := by
  by_cases hs : s.sink.untaken es = []
  · rw [offer_taken hs]; nofun
  · rw [offer_held hs]; nofun

theorem writeReg_ne_refused (r : Reg) (v : Word) (s : State) (e : Refusal) : writeReg r v s ≠ .refused e := by
  by_cases hr : r = .cmd
  · subst hr; exact offer_ne_refused v _ s e
  · rw [writeReg_readOnly hr]; nofun

/-- An access is refused exactly as it is not admitted. -/
theorem respond_refused_iff (a : Access) (s : State) (e : Refusal) :
    respond a s = .refused e ↔ admission s.platform a.addr a.size = .error e := by
  cases a with
  | read addr size =>
    simp only [respond, Access.addr, Access.size]
    cases admission s.platform addr size <;> simp
  | write addr size v =>
    simp only [respond, Access.addr, Access.size]
    cases admission s.platform addr size <;> simp [writeReg_ne_refused]

/-- A step refuses an access that is not admitted, met with no write held, and nothing else. -/
theorem step_refused_iff (s : State) (e : Refusal) :
    step s = .refused e ↔ s.held = none ∧
      ∃ a rest, s.inputs = .access a :: rest ∧ admission s.platform a.addr a.size = .error e := by
  cases h0 : s.held with
  | none =>
    rw [step_free h0]
    cases hi : s.inputs with
    | nil => simp [stepFree, hi]
    | cons i rest =>
      cases i with
      | access a => simp [stepFree, hi, respond_refused_iff]
      | reset | sinkReady r => simp [stepFree, hi]
  | some hd =>
    rw [step_held h0]
    cases hi : s.inputs with
    | nil => simp [stepHeld, hi]
    | cons i rest =>
      cases i with
      | access a | reset => simp [stepHeld, hi]
      | sinkReady r => simp [stepHeld, hi, offer_ne_refused]

/-- The addresses of the registers are the four of the window (R37). -/
theorem exists_eq_regAddr_iff (p : Platform) (addr : Nat) :
    (∃ r, addr = regAddr p r) ↔
      addr = p.pBase ∨ addr = p.pBase + 0x4 ∨ addr = p.pBase + 0x8 ∨ addr = p.pBase + 0xC := by
  constructor
  · rintro ⟨r, rfl⟩
    cases r <;> simp [regAddr, regOffset]
  · rintro (h | h | h | h)
    · exact ⟨.cmd, h⟩
    · exact ⟨.status, h⟩
    · exact ⟨.result, h⟩
    · exact ⟨.remain, h⟩

/-- Settles O12: a step refuses exactly what is not admitted, and admission looks at the size and the four addresses. -/
theorem refusedExactlyWhenNotAdmitted : Obligations.RefusedExactlyWhenNotAdmitted := by
  intro s
  simp only [step_refused_iff, ← exists_eq_regAddr_iff, ← admission_error_iff]
  constructor
  · rintro ⟨e, h0, a, rest, hi, he⟩
    refine ⟨h0, rest, a.addr, a.size, ?_, e, he⟩
    cases a with
    | read addr size => exact .inl hi
    | write addr size v => exact .inr ⟨v, hi⟩
  · rintro ⟨h0, rest, addr, size, hi | ⟨v, hi⟩, e, he⟩
    · exact ⟨e, h0, _, rest, hi, he⟩
    · exact ⟨e, h0, _, rest, hi, he⟩

/-! ### The other statements -/

/-- Settles O56: of the ways a step can go on, only those with nothing held answer a read, and reset and the completion of
a write, which change registers, leave nothing held. -/
theorem heldWritesAreAtomic : Obligations.HeldWritesAreAtomic := by
  intro s t h
  cases step_next h with
  | idle | sink | ignored | hold | stillHeld => exact ⟨fun _ => rfl, fun _ => ⟨rfl, rfl, rfl, rfl, rfl, rfl, rfl⟩⟩
  | read r rest h0 hi => exact ⟨by simp [h0], fun _ => ⟨rfl, rfl, rfl, rfl, rfl, rfl, rfl⟩⟩
  | reset => exact ⟨fun _ => rfl, nofun⟩
  | write w rest h0 hi hs => exact ⟨by simp [h0], nofun⟩
  | resume hd r rest h0 hi hs =>
    obtain ⟨-, -, -, hrep, -, -⟩ := wordEffect_outside hd.word s
    exact ⟨fun _ => hrep, nofun⟩

/-- Settles O9: the step begins a hold, of the elements that the word's effect appends to `OUT`. -/
theorem refusedElementsHoldTheWrite : Obligations.RefusedElementsHoldTheWrite := by
  intro s t w i rest n h0 hi hd ht hk hn
  have hes : t.out.drop s.out.length = emission w s := by
    rw [exec_eq, ← wordEffect_instr hd, wordEffect_inputs] at ht
    cases ht
    exact (emission_eq_drop w s).symm
  rw [hes] at hn ⊢
  have hs : s.sink.untaken (emission w s) ≠ [] := hk ▸ SinkReady.untaken_atMost_ne_nil hn
  rw [step_of_stepNext (.hold w rest h0 hi hs), hk, SinkReady.after_atMost hn.le]
  rfl

/-- Settles O14: it is one of the ways a step can go on. -/
theorem writesToReadOnlyRegistersAreIgnored : Obligations.WritesToReadOnlyRegistersAreIgnored :=
  fun _ v rest r h0 hi hr => step_of_stepNext (.ignored r v rest hr h0 hi)

end Sys2Proof.Machine
end

section
/-! PROOFS. Command words (30_encoding.md): the two formats as concatenations of their fields, what the decoder answers
for each opcode, the rows of the opcode map, and the assembler. -/

namespace Sys2Proof.Machine

/-! ### The formats (R56, R57) -/

/-- Format S: `OP`, four reserved bits, `LEN` (R56). -/
def formatS (op rsv : BitVec 4) (n : Word24) : Word := op ++ rsv ++ n

/-- Format D: `OP`, twenty reserved bits, `BYTE` (R57). -/
def formatD (op : BitVec 4) (rsv : BitVec 20) (b : Byte) : Word := op ++ rsv ++ b

@[simp] theorem opField_formatS (op rsv : BitVec 4) (n : Word24) : opField (formatS op rsv n) = op :=
  (BitVec.extractLsb'_append_eq_of_le (by decide)).trans BitVec.extractLsb'_append_eq_left

@[simp] theorem startReservedField_formatS (op rsv : BitVec 4) (n : Word24) :
    startReservedField (formatS op rsv n) = rsv :=
  (BitVec.extractLsb'_append_eq_of_le (by decide)).trans BitVec.extractLsb'_append_eq_right

@[simp] theorem lenField_formatS (op rsv : BitVec 4) (n : Word24) : lenField (formatS op rsv n) = n :=
  BitVec.extractLsb'_append_eq_right

@[simp] theorem opField_formatD (op : BitVec 4) (rsv : BitVec 20) (b : Byte) : opField (formatD op rsv b) = op :=
  (BitVec.extractLsb'_append_eq_of_le (by decide)).trans BitVec.extractLsb'_append_eq_left

@[simp] theorem dataReservedField_formatD (op : BitVec 4) (rsv : BitVec 20) (b : Byte) :
    dataReservedField (formatD op rsv b) = rsv :=
  (BitVec.extractLsb'_append_eq_of_le (by decide)).trans BitVec.extractLsb'_append_eq_right

@[simp] theorem byteField_formatD (op : BitVec 4) (rsv : BitVec 20) (b : Byte) : byteField (formatD op rsv b) = b :=
  BitVec.extractLsb'_append_eq_right

/-- A word is made of its three fields of format S. -/
theorem formatS_fields (w : Word) : formatS (opField w) (startReservedField w) (lenField w) = w := by
  have high : opField w ++ startReservedField w = w.extractLsb' 24 8 :=
    BitVec.extractLsb'_append_extractLsb'_eq_extractLsb' rfl
  rw [formatS, high]
  exact (BitVec.extractLsb'_append_extractLsb'_eq_extractLsb' rfl).trans BitVec.extractLsb'_eq_self

/-- A word is made of its three fields of format D. -/
theorem formatD_fields (w : Word) : formatD (opField w) (dataReservedField w) (byteField w) = w := by
  have high : opField w ++ dataReservedField w = w.extractLsb' 8 24 :=
    BitVec.extractLsb'_append_extractLsb'_eq_extractLsb' rfl
  rw [formatD, high]
  exact (BitVec.extractLsb'_append_extractLsb'_eq_extractLsb' rfl).trans BitVec.extractLsb'_eq_self

/-- To append low bits is to or them into zeros. -/
theorem append_eq_or {m n : Nat} (x : BitVec m) (y : BitVec n) : x ++ y = (x ++ 0#n) ||| y.setWidth (m + n) := by
  apply BitVec.eq_of_toNat_eq
  have hy : y.toNat % 2 ^ (m + n) = y.toNat :=
    Nat.mod_eq_of_lt (y.isLt.trans_le (Nat.pow_le_pow_right (by decide) (Nat.le_add_left n m)))
  simp only [BitVec.toNat_append, BitVec.toNat_or, BitVec.toNat_setWidth, BitVec.toNat_ofNat, Nat.zero_mod,
    Nat.or_zero, hy]

theorem encode_enc (n : Word24) : encode (.enc n) = formatS 0x1#4 0#4 n := (append_eq_or 0x10#8 n).symm

theorem encode_dec (n : Word24) : encode (.dec n) = formatS 0x2#4 0#4 n := (append_eq_or 0x20#8 n).symm

theorem encode_crc (n : Word24) : encode (.crc n) = formatS 0x3#4 0#4 n := (append_eq_or 0x30#8 n).symm

theorem encode_data (b : Byte) : encode (.data b) = formatD 0x4#4 0#20 b := (append_eq_or 0x400000#24 b).symm

/-! ### The decoder by opcode (R61) -/

theorem decode_of_encOp {w : Word} (h : opField w = 0x1#4) : decode w = decodeStart .enc w := by simp [decode, h]

theorem decode_of_decOp {w : Word} (h : opField w = 0x2#4) : decode w = decodeStart .dec w := by simp [decode, h]

theorem decode_of_crcOp {w : Word} (h : opField w = 0x3#4) : decode w = decodeStart .crc w := by simp [decode, h]

theorem decode_of_dataOp {w : Word} (h : opField w = 0x4#4) : decode w = decodeData w := by simp [decode, h]

/-- An opcode of no row, 0x0 or 0x5 to 0xF, is Reserved (R62). -/
theorem decode_of_noRow {w : Word} (h : opField w = 0x0#4 ∨ 0x5#4 ≤ opField w) :
    decode w = .reserved (.opcode (opField w)) := by
  have hne : opField w ≠ 0x1#4 ∧ opField w ≠ 0x2#4 ∧ opField w ≠ 0x3#4 ∧ opField w ≠ 0x4#4 := by bv_omega
  obtain ⟨h1, h2, h3, h4⟩ := hne
  simp only [decode, if_neg h1, if_neg h2, if_neg h3, if_neg h4]

/-- An opcode is that of one of the four rows, or of none. -/
theorem opField_cases (w : Word) :
    opField w = 0x1#4 ∨ opField w = 0x2#4 ∨ opField w = 0x3#4 ∨ opField w = 0x4#4 ∨
      (opField w = 0x0#4 ∨ 0x5#4 ≤ opField w) := by
  bv_omega

theorem decodeStart_of_zero {w : Word} {mk : Word24 → Instr} (h : startReservedField w = 0#4) :
    decodeStart mk w = .instr (mk (lenField w)) := if_pos h

theorem decodeStart_of_ne {w : Word} {mk : Word24 → Instr} (h : startReservedField w ≠ 0#4) :
    decodeStart mk w = .reserved .startBits := if_neg h

theorem decodeData_of_zero {w : Word} (h : dataReservedField w = 0#20) : decodeData w = .instr (.data (byteField w)) :=
  if_pos h

theorem decodeData_of_ne {w : Word} (h : dataReservedField w ≠ 0#20) : decodeData w = .reserved .dataBits := if_neg h

/-! ### Decoding and encoding -/

theorem decode_encode (i : Instr) : decode (encode i) = .instr i := by
  cases i with
  | enc n => rw [encode_enc, decode_of_encOp (by simp), decodeStart_of_zero (by simp), lenField_formatS]
  | dec n => rw [encode_dec, decode_of_decOp (by simp), decodeStart_of_zero (by simp), lenField_formatS]
  | crc n => rw [encode_crc, decode_of_crcOp (by simp), decodeStart_of_zero (by simp), lenField_formatS]
  | data b => rw [encode_data, decode_of_dataOp (by simp), decodeData_of_zero (by simp), byteField_formatD]

/-- A start word decodes to an instruction only with its reserved bits zero, so its opcode and its length are the whole
word. -/
theorem encode_of_decodeStart {mk : Word24 → Instr} {op : BitVec 4} {w : Word} {i : Instr}
    (henc : ∀ n, encode (mk n) = formatS op 0#4 n) (ho : opField w = op) (h : decodeStart mk w = .instr i) :
    encode i = w := by
  by_cases hz : startReservedField w = 0#4
  · rw [decodeStart_of_zero hz] at h
    cases h
    rw [henc, ← ho, ← hz, formatS_fields]
  · rw [decodeStart_of_ne hz] at h
    cases h

/-- The same of a DATA word and its byte. -/
theorem encode_of_decodeData {w : Word} {i : Instr} (ho : opField w = 0x4#4) (h : decodeData w = .instr i) :
    encode i = w := by
  by_cases hz : dataReservedField w = 0#20
  · rw [decodeData_of_zero hz] at h
    cases h
    rw [encode_data, ← ho, ← hz, formatD_fields]
  · rw [decodeData_of_ne hz] at h
    cases h

theorem encode_of_decode {w : Word} {i : Instr} (h : decode w = .instr i) : encode i = w := by
  rcases opField_cases w with ho | ho | ho | ho | ho
  · exact encode_of_decodeStart encode_enc ho (decode_of_encOp ho ▸ h)
  · exact encode_of_decodeStart encode_dec ho (decode_of_decOp ho ▸ h)
  · exact encode_of_decodeStart encode_crc ho (decode_of_crcOp ho ▸ h)
  · exact encode_of_decodeData ho (decode_of_dataOp ho ▸ h)
  · rw [decode_of_noRow ho] at h
    cases h

/-- Settles O1: each word is the concatenation of its fields, on the encoder's side and on the decoder's. -/
theorem decodeAndEncodeAgree : Obligations.DecodeAndEncodeAgree :=
  ⟨decode_encode, fun _ _ => encode_of_decode⟩

/-! ### The fields as numbers (R56 to R59) -/

theorem opField_eq_ofNat (w : Word) : opField w = BitVec.ofNat 4 (w.toNat / 2 ^ 28) := by
  rw [← Nat.shiftRight_eq_div_pow]; rfl

theorem opField_of_div {w : Word} {k : Nat} (h : w.toNat / 2 ^ 28 = k) : opField w = BitVec.ofNat 4 k := by
  rw [opField_eq_ofNat, h]

theorem opField_toNat (w : Word) : (opField w).toNat = w.toNat / 2 ^ 28 := by
  rw [opField_eq_ofNat, BitVec.toNat_ofNat, Nat.mod_eq_of_lt (by omega)]

theorem startReservedField_eq_zero_iff (w : Word) : startReservedField w = 0#4 ↔ w.toNat / 2 ^ 24 % 16 = 0 := by
  rw [← Nat.shiftRight_eq_div_pow, ← BitVec.toNat_inj]; rfl

theorem dataReservedField_eq_zero_iff (w : Word) : dataReservedField w = 0#20 ↔ w.toNat / 2 ^ 8 % 2 ^ 20 = 0 := by
  rw [← Nat.shiftRight_eq_div_pow, ← BitVec.toNat_inj]; rfl

theorem lenField_eq_ofNat (w : Word) : lenField w = BitVec.ofNat 24 w.toNat := rfl

theorem byteField_eq_ofNat (w : Word) : byteField w = BitVec.ofNat 8 w.toNat := rfl

/-- A start word with its reserved bits zero gives its row's instruction of the low 24 bits (R56, R58). -/
theorem decode_start {w : Word} {mk : Word24 → Instr} (hd : decode w = decodeStart mk w)
    (hr : w.toNat / 2 ^ 24 % 16 = 0) : decode w = .instr (mk (BitVec.ofNat 24 w.toNat)) := by
  rw [hd, decodeStart_of_zero ((startReservedField_eq_zero_iff w).mpr hr), lenField_eq_ofNat]

/-- A DATA word with its reserved bits zero gives its low 8 bits (R57, R59). -/
theorem decode_data {w : Word} (ho : w.toNat / 2 ^ 28 = 4) (hr : w.toNat / 2 ^ 8 % 2 ^ 20 = 0) :
    decode w = .instr (.data (BitVec.ofNat 8 w.toNat)) := by
  rw [decode_of_dataOp (opField_of_div ho), decodeData_of_zero ((dataReservedField_eq_zero_iff w).mpr hr),
    byteField_eq_ofNat]

/-- A start word with a reserved bit set (R62). -/
theorem decode_startBits {w : Word} (ho : w.toNat / 2 ^ 28 = 1 ∨ w.toNat / 2 ^ 28 = 2 ∨ w.toNat / 2 ^ 28 = 3)
    (hr : w.toNat / 2 ^ 24 % 16 ≠ 0) : decode w = .reserved .startBits := by
  have hne := mt (startReservedField_eq_zero_iff w).mp hr
  rcases ho with ho | ho | ho
  · rw [decode_of_encOp (opField_of_div ho), decodeStart_of_ne hne]
  · rw [decode_of_decOp (opField_of_div ho), decodeStart_of_ne hne]
  · rw [decode_of_crcOp (opField_of_div ho), decodeStart_of_ne hne]

/-- A DATA word with a reserved bit set (R62). -/
theorem decode_dataBits {w : Word} (ho : w.toNat / 2 ^ 28 = 4) (hr : w.toNat / 2 ^ 8 % 2 ^ 20 ≠ 0) :
    decode w = .reserved .dataBits := by
  rw [decode_of_dataOp (opField_of_div ho), decodeData_of_ne (mt (dataReservedField_eq_zero_iff w).mp hr)]

/-- A word with an opcode of no row (R62). -/
theorem decode_opcode {w : Word} (ho : w.toNat / 2 ^ 28 = 0 ∨ 5 ≤ w.toNat / 2 ^ 28) :
    decode w = .reserved (.opcode (BitVec.ofNat 4 (w.toNat / 2 ^ 28))) := by
  rw [← opField_eq_ofNat]
  refine decode_of_noRow (ho.imp opField_of_div fun h => ?_)
  rwa [BitVec.le_def, opField_toNat]

/-- Settles O2: what the decoder answers for each opcode, with the fields as numbers. -/
theorem decodingFollowsTheFields : Obligations.DecodingFollowsTheFields := fun _ =>
  ⟨fun ho => decode_start (decode_of_encOp (opField_of_div ho)),
    fun ho => decode_start (decode_of_decOp (opField_of_div ho)),
    fun ho => decode_start (decode_of_crcOp (opField_of_div ho)),
    decode_startBits, decode_data, decode_dataBits, decode_opcode⟩

/-! ### The opcode map (R60, R62) -/

/-- A Reserved word is rejected (R62, R110). -/
theorem onWriteCmd_reserved {w : Word} {why : Reserved} (h : decode w = .reserved why) (s : State) :
    onWriteCmd w s = .next (rejectCommand s) := by
  simp only [onWriteCmd, h]

/-- The word of an instruction lies in its own row. -/
theorem encode_and_rowMask (i : Instr) : encode i &&& rowMask i = rowMatch i := by
  cases i with
  | enc n => exact Laws.TableRow.enc n
  | dec n => exact Laws.TableRow.dec n
  | crc n => exact Laws.TableRow.crc n
  | data b => exact Laws.TableRow.data b

/-- A word that decodes to an instruction lies in its row. -/
theorem row_of_decode {w : Word} {i : Instr} (h : decode w = .instr i) : w &&& rowMask i = rowMatch i := by
  rw [← encode_of_decode h, encode_and_rowMask]

/-- The start rows' mask keeps the opcode and the reserved field. -/
theorem fields_of_startMask {w m : Word} (h : w &&& 0xFF000000#32 = m) :
    opField w = opField m ∧ startReservedField w = startReservedField m := by
  subst h
  unfold opField startReservedField
  rw [BitVec.extractLsb'_and, BitVec.extractLsb'_and]
  exact ⟨BitVec.and_allOnes.symm, BitVec.and_allOnes.symm⟩

/-- The DATA row's mask keeps the opcode and the reserved field. -/
theorem fields_of_dataMask {w m : Word} (h : w &&& 0xFFFFFF00#32 = m) :
    opField w = opField m ∧ dataReservedField w = dataReservedField m := by
  subst h
  unfold opField dataReservedField
  rw [BitVec.extractLsb'_and, BitVec.extractLsb'_and]
  exact ⟨BitVec.and_allOnes.symm, BitVec.and_allOnes.symm⟩

/-- A start row holds exactly the words that decode to its instructions: its match value `m` has the row's opcode and
zero reserved bits. -/
theorem startRow_iff {w m : Word} {mk : Word24 → Instr} (hd : opField w = opField m → decode w = decodeStart mk w)
    (hz : startReservedField m = 0#4) (hrow : ∀ n, rowMask (mk n) = 0xFF000000#32 ∧ rowMatch (mk n) = m) :
    (∃ n, decode w = .instr (mk n)) ↔ w &&& 0xFF000000#32 = m := by
  constructor
  · rintro ⟨n, h⟩
    obtain ⟨hmask, hmatch⟩ := hrow n
    rw [← hmask, ← hmatch, row_of_decode h]
  · intro h
    obtain ⟨ho, hr⟩ := fields_of_startMask h
    exact ⟨lenField w, (hd ho).trans (decodeStart_of_zero (hr.trans hz))⟩

theorem dataRow_iff (w : Word) : (∃ b, decode w = .instr (.data b)) ↔ w &&& 0xFFFFFF00#32 = 0x40000000#32 := by
  constructor
  · rintro ⟨b, h⟩
    exact row_of_decode h
  · intro h
    obtain ⟨ho, hr⟩ := fields_of_dataMask h
    exact ⟨byteField w, (decode_of_dataOp ho).trans (decodeData_of_zero hr)⟩

/-- A row's match value is its opcode above zeros. -/
theorem rowMatch_eq_formatS (i : Instr) : rowMatch i = formatS (opField (rowMatch i)) 0#4 0#24 := by
  cases i <;> simp only [rowMatch] <;> decide

/-- A word in a row has the row's opcode, so it fixes the row's match value. -/
theorem rowMatch_of_row {w : Word} {i : Instr} (h : w &&& rowMask i = rowMatch i) :
    rowMatch i = formatS (opField w) 0#4 0#24 := by
  have ho : opField w = opField (rowMatch i) := by
    cases i with
    | enc n | dec n | crc n => exact (fields_of_startMask h).1
    | data b => exact (fields_of_dataMask h).1
  rw [ho, ← rowMatch_eq_formatS]

/-- Settles O3: the masks keep the opcode and the reserved field, by which the decoder chooses. -/
theorem opcodeMapSelectsByMaskAndMatch : Obligations.OpcodeMapSelectsByMaskAndMatch := by
  refine ⟨fun w => startRow_iff decode_of_encOp rfl fun _ => ⟨rfl, rfl⟩,
    fun w => startRow_iff decode_of_decOp rfl fun _ => ⟨rfl, rfl⟩,
    fun w => startRow_iff decode_of_crcOp rfl fun _ => ⟨rfl, rfl⟩, dataRow_iff,
    fun w i j hi hj => (rowMatch_of_row hi).trans (rowMatch_of_row hj).symm, fun w s hno => ?_⟩
  cases hd : decode w with
  | instr i => exact absurd (row_of_decode hd) (hno i)
  | reserved why => exact onWriteCmd_reserved hd s

/-- Settles O4: the Reserved words by their opcode and reserved bits, and what the core does with one. -/
theorem reservedWordsOnlySetCmderr : Obligations.ReservedWordsOnlySetCmderr := by
  refine ⟨fun w why s h => onWriteCmd_reserved h s, fun w ho => ⟨_, decode_opcode ho⟩, fun w h1 h3 hr => ?_,
    fun w => decode_dataBits, decode_opcode (.inl rfl)⟩
  exact decode_startBits (by omega) hr

/-- Settles O5, by evaluation of the decoder on the ten words. -/
theorem sampleWordsDecode : Obligations.SampleWordsDecode := by
  unfold Obligations.SampleWordsDecode
  decide

/-! ### The assembler (R63) -/

theorem assemble_of_wellFormed {l : AsmLine} (h : l.wellFormed = true) : assemble l = some (asmWord l) := if_pos h

theorem assemble_of_not_wellFormed {l : AsmLine} (h : l.wellFormed ≠ true) : assemble l = none := if_neg h

/-- A concatenation as a number. -/
theorem append_ofNat {m n k : Nat} (x : BitVec m) (h : k < 2 ^ n) :
    x ++ BitVec.ofNat n k = BitVec.ofNat (m + n) (x.toNat * 2 ^ n + k) := by
  have hv : (x ++ BitVec.ofNat n k).toNat = x.toNat * 2 ^ n + k := by
    rw [BitVec.toNat_append, BitVec.toNat_ofNat, Nat.mod_eq_of_lt h, ← Nat.shiftLeft_add_eq_or_of_lt h,
      Nat.shiftLeft_eq]
  rw [← hv, BitVec.ofNat_toNat, BitVec.setWidth_eq]

theorem encode_enc_ofNat {n : Nat} (h : n ≤ 0xFFFFFF) :
    encode (.enc (BitVec.ofNat 24 n)) = BitVec.ofNat 32 (0x10000000 + n) :=
  (encode_enc _).trans (append_ofNat (0x1#4 ++ 0#4) (Nat.lt_succ_of_le h))

theorem encode_dec_ofNat {n : Nat} (h : n ≤ 0xFFFFFF) :
    encode (.dec (BitVec.ofNat 24 n)) = BitVec.ofNat 32 (0x20000000 + n) :=
  (encode_dec _).trans (append_ofNat (0x2#4 ++ 0#4) (Nat.lt_succ_of_le h))

theorem encode_crc_ofNat {n : Nat} (h : n ≤ 0xFFFFFF) :
    encode (.crc (BitVec.ofNat 24 n)) = BitVec.ofNat 32 (0x30000000 + n) :=
  (encode_crc _).trans (append_ofNat (0x3#4 ++ 0#4) (Nat.lt_succ_of_le h))

theorem encode_data_ofNat {v : Nat} (h : v ≤ 0xFF) :
    encode (.data (BitVec.ofNat 8 v)) = BitVec.ofNat 32 (0x40000000 + v) :=
  (encode_data _).trans (append_ofNat (0x4#4 ++ 0#20) (Nat.lt_succ_of_le h))

/-- A line in range gives the word of its operand. -/
theorem assemble_eq_of {l : AsmLine} {w : Word} (h : l.wellFormed = true) (hw : asmWord l = w) : assemble l = some w :=
  hw ▸ assemble_of_wellFormed h

/-- An operand above its bound is out of range. -/
theorem not_decide_le {n k : Nat} (h : k < n) : decide (n ≤ k) ≠ true := by simpa using h

/-- Settles O6: the operand check of each line, and its word as a number. -/
theorem assemblerLinesGiveTheirWords : Obligations.AssemblerLinesGiveTheirWords := by
  refine ⟨fun n h => ?_, fun n h => ?_, fun n h => ?_, fun v h => ?_, fun c h => ?_, fun w h => ?_, fun n h => ?_,
    fun v h => ?_, fun w h => ?_⟩
  · exact assemble_eq_of (decide_eq_true h) (encode_enc_ofNat h)
  · exact assemble_eq_of (decide_eq_true h) (encode_dec_ofNat h)
  · exact assemble_eq_of (decide_eq_true h) (encode_crc_ofNat h)
  · exact assemble_eq_of (decide_eq_true h) (encode_data_ofNat h)
  · exact assemble_eq_of (decide_eq_true h) (encode_data_ofNat (h.trans (by decide)))
  · exact assemble_eq_of (decide_eq_true h) rfl
  · exact ⟨assemble_of_not_wellFormed (not_decide_le h), assemble_of_not_wellFormed (not_decide_le h),
      assemble_of_not_wellFormed (not_decide_le h)⟩
  · exact assemble_of_not_wellFormed (not_decide_le h)
  · exact assemble_of_not_wellFormed (not_decide_le h)

/-! ### Pseudo-instructions (R64, R65) -/

theorem hostAccess_wrCmd (p : Platform) {l : AsmLine} (h : l.wellFormed = true) :
    hostAccess p (.wrCmd l) = some (cmdWrite p (asmWord l)) := by
  rw [hostAccess, assemble_of_wellFormed h, Option.map_some]

/-- A program of `wr CMD` lines in range performs the write of each line's word, in order. -/
theorem hostProgram_wrCmd (p : Platform) (ls : List AsmLine) (h : ∀ l ∈ ls, l.wellFormed = true) :
    hostProgram p (ls.map .wrCmd) = some (ls.map fun l => cmdWrite p (asmWord l)) := by
  unfold hostProgram
  induction ls with
  | nil => rfl
  | cons l ls ih =>
    obtain ⟨hl, hls⟩ := List.forall_mem_cons.mp h
    rw [List.map_cons, List.mapM_cons, hostAccess_wrCmd p hl, ih hls]
    rfl

/-- The expansion of a well-formed pseudo-instruction has every operand in range. -/
theorem wellFormed_of_mem_expand {x : Pseudo} (h : x.wellFormed = true) : ∀ l ∈ expand x, l.wellFormed = true := by
  cases x with
  | bytes bs => exact List.forall_mem_map.mpr (List.all_eq_true.mp h)
  | text cs => exact List.forall_mem_map.mpr (List.all_eq_true.mp h)
  | encode bs | decode cs | crc24 bs =>
    obtain ⟨hlen, hall⟩ := Bool.and_eq_true_iff.mp h
    exact List.forall_mem_cons.mpr ⟨hlen, List.forall_mem_map.mpr (List.all_eq_true.mp hall)⟩

/-- A well-formed pseudo-instruction assembles to the words of its expansion. -/
theorem hostProgram_expand (p : Platform) {x : Pseudo} (h : x.wellFormed = true) :
    hostProgram p ((expand x).map .wrCmd) = some ((expand x).map fun l => cmdWrite p (asmWord l)) :=
  hostProgram_wrCmd p (expand x) (wellFormed_of_mem_expand h)

/-- A job's expansion, a start line and a `data` line per operand, writes the job's inputs. -/
theorem map_write_job {α : Type} (p : Platform) (start : Instr) (l : AsmLine) (operand : α → AsmByte) (xs : List α)
    (hl : asmWord l = encode start) :
    (l :: xs.map fun x => AsmLine.data (operand x)).map (fun l => cmdWrite p (asmWord l)) =
      jobInputs p start (xs.map fun x => asmByteValue (operand x)) := by
  rw [List.map_cons, hl, List.map_map, jobInputs, List.map_map]
  rfl

/-- Settles O7: each expansion, and the word of each of its lines. -/
theorem pseudoInstructionsExpandToJobs : Obligations.PseudoInstructionsExpandToJobs := by
  refine ⟨fun p bs h => ?_, fun p cs h => ?_, fun p bs h => ?_, fun p cs h => ?_, fun p bs h => ?_⟩ <;>
    rw [hostProgram_expand p h]
  · exact congrArg some List.map_map
  · exact congrArg some List.map_map
  · exact congrArg some (map_write_job p _ _ id bs rfl)
  · exact congrArg some (map_write_job p _ _ .chr cs rfl)
  · exact congrArg some (map_write_job p _ _ id bs rfl)

end Sys2Proof.Machine
end

section
/-! PROOFS. The Symbol Table (40_symbol_table.md): both of its directions answer by the rows of one table, of which each
row is a range of indices and the range of codes beside it. -/

namespace Sys2Proof.Machine

/-! ### The table's rows (R68) -/

/-- The index `n` stands beside the code `m` in the table of R68: `A`-`Z`, `a`-`z`, `0`-`9`, `+`, `/`. -/
def SymbolRow (n m : Nat) : Prop :=
  (n ≤ 25 ∧ m = 0x41 + n) ∨ (26 ≤ n ∧ n ≤ 51 ∧ m = 0x61 + (n - 26)) ∨ (52 ≤ n ∧ n ≤ 61 ∧ m = 0x30 + (n - 52)) ∨
    (n = 62 ∧ m = 0x2B) ∨ (n = 63 ∧ m = 0x2F)

/-- No index has two codes. -/
theorem SymbolRow.code_unique {n m m' : Nat} (h : SymbolRow n m) (h' : SymbolRow n m') : m = m' := by
  unfold SymbolRow at h h'; omega

/-- No code has two indices: the ranges of codes do not overlap. -/
theorem SymbolRow.index_unique {n n' m : Nat} (h : SymbolRow n m) (h' : SymbolRow n' m) : n = n' := by
  unfold SymbolRow at h h'; omega

/-! ### The two directions by the table (R68, R69) -/

/-- `indexToChar` answers the code beside its index. -/
theorem symbolRow_indexToChar (i : Index) : SymbolRow i.toNat (indexToChar i).toNat := by
  have hi := i.isLt
  unfold indexToChar SymbolRow
  dsimp only
  split_ifs with h1 h2 h3 h4
  · left; bv_omega
  · right; left; bv_omega
  · right; right; left; bv_omega
  · right; right; right; left; exact ⟨by bv_omega, rfl⟩
  · right; right; right; right; exact ⟨by bv_omega, rfl⟩

/-- A code that `charToIndex` answers stands beside its index. -/
theorem symbolRow_of_charToIndex {c : Byte} {i : Index} (h : charToIndex c = some i) :
    SymbolRow i.toNat c.toNat := by
  unfold charToIndex at h
  unfold SymbolRow
  split_ifs at h with h1 h2 h3 h4 h5 <;> cases h
  · left; bv_omega
  · right; left; bv_omega
  · right; right; left; bv_omega
  · right; right; right; left; exact ⟨rfl, congrArg BitVec.toNat h4⟩
  · right; right; right; right; exact ⟨rfl, congrArg BitVec.toNat h5⟩

/-- The codes without an index are those of no row. -/
theorem charToIndex_eq_none_iff {c : Byte} : charToIndex c = Option.none ↔ ∀ n, ¬ SymbolRow n c.toNat := by
  constructor
  · intro h n
    unfold charToIndex at h
    split_ifs at h
    unfold SymbolRow
    bv_omega
  · exact fun h => Option.eq_none_iff_forall_ne_some.mpr fun i hi => h i.toNat (symbolRow_of_charToIndex hi)

theorem indexToChar_eq_iff {i : Index} {c : Byte} : indexToChar i = c ↔ SymbolRow i.toNat c.toNat :=
  ⟨fun h => h ▸ symbolRow_indexToChar i, fun h => BitVec.eq_of_toNat_eq ((symbolRow_indexToChar i).code_unique h)⟩

theorem charToIndex_eq_some_iff {c : Byte} {i : Index} : charToIndex c = some i ↔ SymbolRow i.toNat c.toNat := by
  refine ⟨symbolRow_of_charToIndex, fun h => ?_⟩
  cases hc : charToIndex c with
  | none => exact absurd h (charToIndex_eq_none_iff.mp hc _)
  | some j => exact congrArg some (BitVec.eq_of_toNat_eq ((symbolRow_of_charToIndex hc).index_unique h))

/-- What `charToIndex` answers for a code, with the index as a number. -/
theorem charToIndex_eq_ofNat {c : Byte} {n : Nat} (h : SymbolRow n c.toNat) :
    charToIndex c = some (BitVec.ofNat 6 n) := by
  have hn : n < 2 ^ 6 := by unfold SymbolRow at h; omega
  rw [charToIndex_eq_some_iff, BitVec.toNat_ofNat, Nat.mod_eq_of_lt hn]
  exact h

/-! ### The statements -/

/-- Settles O29: each clause reads one row of the table; a code of no row has no index. -/
theorem symbolTableByRanges : Obligations.SymbolTableByRanges := by
  refine ⟨fun i => ?_, fun c => ⟨?_, ?_, ?_, ?_, ?_, ?_⟩⟩
  · have row := symbolRow_indexToChar i
    unfold SymbolRow at row
    exact ⟨by omega, by omega, by omega, by bv_omega, by bv_omega, by bv_omega⟩
  · exact fun _ _ => charToIndex_eq_ofNat (by unfold SymbolRow; omega)
  · exact fun _ _ => charToIndex_eq_ofNat (by unfold SymbolRow; omega)
  · exact fun _ _ => charToIndex_eq_ofNat (by unfold SymbolRow; omega)
  · rintro rfl; exact charToIndex_eq_ofNat (n := 62) (by unfold SymbolRow; decide)
  · rintro rfl; exact charToIndex_eq_ofNat (n := 63) (by unfold SymbolRow; decide)
  · exact fun _ _ _ _ _ => charToIndex_eq_none_iff.mpr fun n => by unfold SymbolRow; bv_omega

/-- Settles O30: both directions answer by the same rows. -/
theorem symbolTableIsABijection : Obligations.SymbolTableIsABijection :=
  ⟨fun i => charToIndex_eq_some_iff.mpr (symbolRow_indexToChar i),
    fun _ _ h => indexToChar_eq_iff.mpr (charToIndex_eq_some_iff.mp h)⟩

end Sys2Proof.Machine
end

section
/-! PROOFS. A whole job through the host port (R135, R136): with nothing held and a sink that is always ready each `CMD`
write is one step, so a run over a job's words is the words' effects one after the other; and how far a job has come. -/

namespace Sys2Proof.Machine

/-! ### A run over the words of a job -/

theorem wordEffect_encode (i : Instr) (s : State) : wordEffect (encode i) s = effect i s :=
  wordEffect_instr (decode_encode i) s

/-- An instruction does not touch the host port's side (R104). -/
theorem effect_outside (i : Instr) (s : State) :
    (effect i s).held = s.held ∧ (effect i s).sink = s.sink ∧ (effect i s).platform = s.platform := by
  obtain ⟨_, _, _, _, _, _, _, _, h⟩ := coreForm_effect i s
  rw [h]
  exact ⟨rfl, rfl, rfl⟩

theorem effect_inputs (i : Instr) (s : State) (is : List Input) :
    effect i { s with inputs := is } = { effect i s with inputs := is } := by
  simpa only [wordEffect_encode] using wordEffect_inputs (encode i) s is

/-- With nothing held and a sink that is always ready, an instruction written to `CMD` has its effect at once. -/
theorem step_write_always {s : State} {i : Instr} {is : List Input} (h0 : s.held = none) (hk : s.sink = .always)
    (hi : s.inputs = cmdWrite s.platform (encode i) :: is) : step s = .next { effect i s with inputs := is } := by
  obtain ⟨hheld, hsink, -⟩ := effect_outside i s
  have hs : s.sink.untaken (emission (encode i) s) = [] := by rw [hk]; rfl
  rw [step_of_stepNext (.write _ is h0 hi hs), wordEffect_encode, hk, SinkReady.after_always, ← hk, ← hsink, ← h0,
    ← hheld]

/-- The host's inputs that deliver the elements `xs`, one DATA word each (R135). -/
def dataWrites (p : Platform) (xs : List Byte) : List Input := xs.map fun b => cmdWrite p (encode (.data b))

theorem jobInputs_append (p : Platform) (start : Instr) (xs more : List Byte) :
    jobInputs p start (xs ++ more) = cmdWrite p (encode start) :: (dataWrites p xs ++ dataWrites p more) :=
  congrArg _ List.map_append

/-- The state after the DATA words of `xs`, in order. -/
def deliver (xs : List Byte) (s : State) : State := xs.foldl (fun t b => effect (.data b) t) s

@[simp] theorem deliver_nil (s : State) : deliver [] s = s := rfl

@[simp] theorem deliver_cons (b : Byte) (xs : List Byte) (s : State) :
    deliver (b :: xs) s = deliver xs (effect (.data b) s) := rfl

/-- What DATA words do does not depend on the inputs behind them. -/
theorem deliver_inputs (xs : List Byte) (s : State) (is : List Input) :
    deliver xs { s with inputs := is } = { deliver xs s with inputs := is } := by
  induction xs generalizing s with
  | nil => rfl
  | cons b xs ih => rw [deliver_cons, deliver_cons, effect_inputs, ih]

theorem deliver_held (xs : List Byte) (s : State) : (deliver xs s).held = s.held := by
  induction xs generalizing s with
  | nil => rfl
  | cons b xs ih =>
    obtain ⟨hheld, -, -⟩ := effect_outside (.data b) s
    rw [deliver_cons, ih, hheld]

theorem runSteps_dataWrites (xs : List Byte) {s : State} {is : List Input} (h0 : s.held = none)
    (hk : s.sink = .always) (hi : s.inputs = dataWrites s.platform xs ++ is) :
    runSteps xs.length s = .next { deliver xs s with inputs := is } := by
  induction xs generalizing s with
  | nil => rw [deliver_nil, ← (show s.inputs = is from hi)]; rfl
  | cons b xs ih =>
    obtain ⟨hheld, hsink, hplat⟩ := effect_outside (.data b) s
    have hrun := ih (s := { effect (.data b) s with inputs := dataWrites s.platform xs ++ is }) (hheld.trans h0)
      (hsink.trans hk) (by rw [hplat])
    rw [deliver_inputs] at hrun
    exact (runSteps_succ _ (step_write_always h0 hk hi)).trans hrun

/-- The start word of a job and its first elements `xs`: one step a word, and the inputs behind them are left. -/
theorem runSteps_job {s : State} {start : Instr} {xs more : List Byte} {rest : List Input} (h0 : s.held = none)
    (hk : s.sink = .always) (hi : s.inputs = jobInputs s.platform start (xs ++ more) ++ rest) :
    runSteps (xs.length + 1) s =
      .next { deliver xs (effect start s) with inputs := dataWrites s.platform more ++ rest } := by
  obtain ⟨hheld, hsink, hplat⟩ := effect_outside start s
  rw [jobInputs_append, List.cons_append, List.append_assoc] at hi
  have hrun := runSteps_dataWrites xs (is := dataWrites s.platform more ++ rest)
    (s := { effect start s with inputs := dataWrites s.platform xs ++ (dataWrites s.platform more ++ rest) })
    (hheld.trans h0) (hsink.trans hk) (by rw [hplat])
  rw [deliver_inputs] at hrun
  exact (runSteps_succ _ (step_write_always h0 hk hi)).trans hrun

/-! ### How far a job has come (R20, R21, R26, R136) -/

/-- A job of operation `op` and `n` elements of which `left` are still to come: it runs while any is, and has completed
when none is. -/
structure JobAt (op : JobOp) (n left : Nat) (t : State) : Prop where
  busy : t.status.busy = true ↔ left ≠ 0
  done : t.status.done = true ↔ left = 0
  op : t.status.op = op
  cmderr : t.status.cmderr = false
  len : t.len.toNat = n
  remain : t.remain.toNat = left

theorem toNat_eq_zero_iff {n : Word24} : n.toNat = 0 ↔ n = 0#24 := (BitVec.toNat_inj (y := 0#24))

/-- A started job has all its elements to come. -/
theorem Started.jobAt {op : JobOp} {n : Word24} {t : State} (h : Started op n t) : JobAt op n.toNat n.toNat t where
  busy := h.busy.trans (not_congr toNat_eq_zero_iff.symm)
  done := h.done.trans toNat_eq_zero_iff.symm
  op := h.op
  cmderr := h.cmderr
  len := by rw [h.len]
  remain := by rw [h.remain]

theorem effect_data {s : State} (hb : s.status.busy = true) (b : Byte) :
    effect (.data b) s = (dataBody b s).counted := if_pos hb

section OneElement
variable {op : JobOp} {n m : Nat} {t : State} (h : JobAt op n (m + 1) t)
include h

theorem JobAt.is_busy : t.status.busy = true := h.busy.mpr (Nat.succ_ne_zero m)

theorem JobAt.remain_eq_one_iff : t.remain = 1#24 ↔ m = 0 := by
  rw [← BitVec.toNat_inj, h.remain]
  exact Nat.succ_inj

/-- `POS` counts the elements that have come (R17). -/
theorem JobAt.pos : t.pos = n - (m + 1) := by rw [State.pos, h.len, h.remain]

/-- A DATA word takes the job one element on (R108). -/
theorem JobAt.data (b : Byte) : JobAt op n m (effect (.data b) t) := by
  have hlast := h.remain_eq_one_iff
  have hne : t.remain ≠ 0#24 := fun e => by have := h.remain; rw [e] at this; cases this
  rw [effect_data h.is_busy]
  constructor
  case busy => simp [hlast, h.is_busy]
  case done =>
    have hd : ¬ t.status.done = true := fun e => Nat.succ_ne_zero m (h.done.mp e)
    simp [hlast, hd]
  case op => simp [h.op]
  case cmderr => simp [h.cmderr]
  case len => simp [h.len]
  case remain => rw [counted_remain, dataBody_remain, remain_pred_toNat hne, h.remain, Nat.add_sub_cancel]

end OneElement

end Sys2Proof.Machine
end

section
/-! PROOFS. The Encoder (41_encoder.md): the function `Encode` by its groups, ENC and DATA in an encode job, and what a
whole job, or the first part of one, has put out. -/

namespace Sys2Proof.Machine

/-! ### The groups of `Encode` by arithmetic (R39, R73 to R75) -/

/-- The window's value: the first byte is its most significant (R39). -/
theorem window_toNat (b0 b1 b2 : Byte) :
    (b0 ++ b1 ++ b2 : Word24).toNat = b0.toNat * 2 ^ 16 + b1.toNat * 2 ^ 8 + b2.toNat := by
  rw [BitVec.toNat_append, BitVec.toNat_append, ← Nat.shiftLeft_add_eq_or_of_lt b2.isLt,
    ← Nat.shiftLeft_add_eq_or_of_lt b1.isLt, Nat.shiftLeft_eq, Nat.shiftLeft_eq]
  ring

/-- Six bits of the window from bit `k` on, of the window's value. -/
theorem window_digit {b0 b1 b2 : Byte} {w : Nat} (hw : w = b0.toNat * 2 ^ 16 + b1.toNat * 2 ^ 8 + b2.toNat) (k : Nat) :
    (b0 ++ b1 ++ b2 : Word24).extractLsb' k 6 = BitVec.ofNat 6 (w / 2 ^ k) := by
  rw [hw, ← window_toNat, ← Nat.shiftRight_eq_div_pow]
  rfl

/-- Settles O31: each index of a group is a digit of its window, a missing byte being the byte 0. -/
theorem encoderGroupsAreBase64Digits : Obligations.EncoderGroupsAreBase64Digits := by
  refine ⟨fun b0 b1 b2 => ?_, fun b0 b1 => ?_, fun b0 => ?_⟩
  · have digit := window_digit (b0 := b0) (b1 := b1) (b2 := b2) rfl
    have low := digit 0
    rw [pow_zero, Nat.div_one] at low
    simp only [encFull, digit 18, digit 12, digit 6, low]
  · have digit := window_digit (b0 := b0) (b1 := b1) (b2 := 0#8) rfl
    simp only [encTail2, digit 18, digit 12, digit 6, padChar, add_zero, BitVec.toNat_ofNat, Nat.zero_mod]
  · have digit := window_digit (b0 := b0) (b1 := 0#8) (b2 := 0#8) rfl
    simp only [encTail1, digit 18, digit 12, padChar, add_zero, BitVec.toNat_ofNat, Nat.zero_mod, zero_mul]

/-! ### The function `Encode` (R72, R77, R78) -/

theorem radix64Encode_group (b0 b1 b2 : Byte) (rest : List Byte) :
    radix64Encode (b0 :: b1 :: b2 :: rest) = encFull b0 b1 b2 ++ radix64Encode rest := rfl

/-- A whole group more does not change a length modulo 3. -/
theorem length_group_mod (b0 b1 b2 : Byte) (rest : List Byte) :
    (b0 :: b1 :: b2 :: rest).length % 3 = rest.length % 3 := Nat.add_mod_right rest.length 3

/-- Whole groups are encoded on their own, whatever follows them. -/
theorem radix64Encode_append {whole : List Byte} (h : whole.length % 3 = 0) (tail : List Byte) :
    radix64Encode (whole ++ tail) = radix64Encode whole ++ radix64Encode tail := by
  induction whole using radix64Encode.induct with
  | case1 b0 b1 b2 rest ih =>
    have hrest : rest.length % 3 = 0 := (length_group_mod b0 b1 b2 rest).symm.trans h
    simp only [List.cons_append, radix64Encode_group, ih hrest, List.append_assoc]
  | case2 b0 b1 => cases h
  | case3 b0 => cases h
  | case4 => rfl

/-- Settles O33, group by group: each, whole or not, gives four characters. -/
theorem encodeLengthLaw : Obligations.EncodeLengthLaw := by
  intro b
  induction b using radix64Encode.induct with
  | case1 b0 b1 b2 rest ih =>
    have hfull : (encFull b0 b1 b2).length = 4 := rfl
    rw [radix64Encode_group, List.length_append, hfull, ih]
    simp only [List.length_cons]
    omega
  | case2 b0 b1 => simp [radix64Encode, encTail2]
  | case3 b0 => simp [radix64Encode, encTail1]
  | case4 => rfl

/-- A character that carries data: it is in the alphabet, and so no pad (R66). -/
def IsSymbol (c : Byte) : Prop := (charToIndex c).isSome = true ∧ c ≠ 0x3D#8

theorem isSymbol_indexToChar (i : Index) : IsSymbol (indexToChar i) := by
  have hi : charToIndex (indexToChar i) = some i := symbolTableIsABijection.1 i
  refine ⟨by rw [hi]; rfl, fun hpad => ?_⟩
  rw [hpad] at hi
  exact absurd (charToIndex_pad.symm.trans hi) nofun

theorem isSymbol_map_indexToChar {is : List Index} : ∀ c ∈ is.map indexToChar, IsSymbol c :=
  List.forall_mem_map.mpr fun i _ => isSymbol_indexToChar i

/-- `Encode` is a body of alphabet characters and the pads that the last group lacks bytes for (R78). -/
theorem radix64Encode_body (b : List Byte) : ∃ is : List Index,
    radix64Encode b = is.map indexToChar ++ List.replicate ((3 - b.length % 3) % 3) padChar := by
  induction b using radix64Encode.induct with
  | case1 b0 b1 b2 rest ih =>
    obtain ⟨is, ih⟩ := ih
    rw [radix64Encode_group, ih, length_group_mod, ← List.append_assoc]
    exact ⟨_ :: _ :: _ :: _ :: is, rfl⟩
  | case2 b0 b1 => exact ⟨[_, _, _], rfl⟩
  | case3 b0 => exact ⟨[_, _], rfl⟩
  | case4 => exact ⟨[], rfl⟩

/-- Settles O34: the body is made of indices' characters, of which none is a pad. -/
theorem encodePaddingLaw : Obligations.EncodePaddingLaw := by
  intro b
  obtain ⟨is, h⟩ := radix64Encode_body b
  exact ⟨by rw [encodeLengthLaw, Nat.mul_mod_right], _, h, isSymbol_map_indexToChar⟩

/-! ### ENC (R79) -/

theorem startEnc_eq (n : Word24) (s : State) :
    startEnc n s = { s with
      status := { busy := decide (n ≠ 0#24), done := decide (n = 0#24), op := .enc, err := .none, cmderr := false }
      len := n, remain := n } := by
  by_cases h : n = 0#24
  · subst h; rfl
  · simp [startEnc, startCommon, h]

theorem effect_enc_idle {s : State} (hb : s.status.busy = false) (n : Word24) : effect (.enc n) s = startEnc n s :=
  if_neg (Bool.eq_false_iff.mp hb)

theorem effect_enc_busy {s : State} (hb : s.status.busy = true) (n : Word24) : effect (.enc n) s = rejectCommand s :=
  if_pos hb

/-! ### DATA in an encode job (R80) -/

theorem effect_data_enc {s : State} (hb : s.status.busy = true) (ho : s.status.op = .enc) (he : s.status.err = .none)
    (b : Byte) : effect (.data b) s = (encData b s).counted := by rw [effect_data hb, dataBody_enc he ho]

/-- What a byte puts out at its group's first place. -/
theorem encData_out_slot0 {s : State} (h : s.pos % 3 = 0) (b : Byte) :
    (encData b s).out = s.out ++ if s.remain = 1#24 then encTail1 b else [] := by
  rw [encData_slot0 h]
  split <;> simp

/-- What a byte puts out at its group's second place. -/
theorem encData_out_slot1 {s : State} (h : s.pos % 3 = 1) (b : Byte) :
    (encData b s).out = s.out ++ if s.remain = 1#24 then encTail2 s.g.g0 b else [] := by
  rw [encData_slot1 h]
  split <;> simp

/-- What a byte puts out at its group's third place. -/
theorem encData_out_slot2 {s : State} (h : s.pos % 3 = 2) (b : Byte) :
    (encData b s).out = s.out ++ encFull s.g.g0 s.g.g1 b := by
  rw [encData_slot2 h, emitAll_out, setGroup_out]

/-- Settles O22: the body by the byte's slot, and by whether the byte is the job's last. -/
theorem dataInAnEncodeJob : Obligations.DataInAnEncodeJob := by
  intro b s hb ho he
  rw [exec_eq, effect_data_enc hb ho he]
  refine ⟨fun h => ?_, fun h hl => ?_, fun h hl => ?_, fun h hl => ?_, fun h hl => ?_⟩
  · rw [encData_slot2 h]; rfl
  · rw [encData_slot0 h, if_pos hl]; rfl
  · rw [encData_slot1 h, if_pos hl]; rfl
  · rw [encData_slot0 h, if_neg hl]; rfl
  · rw [encData_slot1 h, if_neg hl]; rfl

/-! ### A whole encode job (R81) -/

/-- The group buffer holds the bytes of a group that is not yet whole (R28). -/
def StoresGroup (g : GroupBuffer) : List Byte → Prop
  | [] => True
  | [x] => g.g0 = x
  | [x, y] => g.g0 = x ∧ g.g1 = y
  | _ => False

/-- An encode job of `n` bytes with `left` of them to come, begun with `OUT = o` and `RESULT = r`: of the bytes that
came, `whole` are whole groups and have been put out, and `group` stands in the group buffer, or has been put out too
where it ends the job. -/
structure EncJobAt (o : List Byte) (r : Word24) (n : Nat) (whole group : List Byte) (left : Nat) (t : State) : Prop
    extends JobAt .enc n left t where
  err : t.status.err = .none
  result : t.result = r
  came : (whole ++ group).length + left = n
  groups : whole.length % 3 = 0
  stores : StoresGroup t.g group
  out : t.out = o ++ radix64Encode whole ++ if left = 0 then radix64Encode group else []

theorem StoresGroup.length_lt {g : GroupBuffer} {group : List Byte} (h : StoresGroup g group) : group.length < 3 := by
  match group, h with
  | [], _ | [_], _ | [_, _], _ => simp

/-- An accepted ENC begins such a job, with no byte come. -/
theorem encJobAt_startEnc (n : Word24) (s : State) : EncJobAt s.out s.result n.toNat [] [] n.toNat (startEnc n s) where
  toJobAt := (started_startEnc n s).jobAt
  err := startEnc_err n s
  result := startEnc_result n s
  came := Nat.zero_add _
  groups := rfl
  stores := trivial
  out := by rw [startEnc_out]; simp [radix64Encode]

section OneByte
variable {o whole group : List Byte} {r : Word24} {n m : Nat} {t : State}

/-- A byte's place in its group is the number of bytes the group has. -/
theorem EncJobAt.pos_mod (h : EncJobAt o r n whole group (m + 1) t) : t.pos % 3 = group.length := by
  have hcame := h.came
  have hgroups := h.groups
  have hlt := h.stores.length_lt
  rw [h.toJobAt.pos]
  rw [List.length_append] at hcame
  omega

/-- One more byte: what is left to show is the bookkeeping of the groups. -/
theorem EncJobAt.data {whole' group' : List Byte} (h : EncJobAt o r n whole group (m + 1) t) (z : Byte)
    (hbytes : whole' ++ group' = whole ++ group ++ [z]) (hgroups : whole'.length % 3 = 0)
    (hstores : StoresGroup (t.g.set t.encSlot z) group')
    (hout : (encData z t).out = o ++ radix64Encode whole' ++ if m = 0 then radix64Encode group' else []) :
    EncJobAt o r n whole' group' m (effect (.data z) t) := by
  have hjob := h.toJobAt.data z
  rw [effect_data_enc h.is_busy h.op h.err] at hjob ⊢
  refine ⟨hjob, ?err, ?result, ?came, hgroups, ?stores, hout⟩
  case err => rw [counted_err, encData_status, h.err]
  case result => rw [counted_result, encData_result, h.result]
  case came =>
    rw [hbytes, List.length_append, List.length_singleton, Nat.add_assoc, Nat.add_comm 1]
    exact h.came
  case stores => rw [counted_g, encData_g]; exact hstores

/-- One more byte, by the number of bytes its group has: it begins a group, continues one, or makes one whole. -/
theorem EncJobAt.data_exists (h : EncJobAt o r n whole group (m + 1) t) (z : Byte) :
    ∃ whole' group', whole' ++ group' = whole ++ group ++ [z] ∧
      EncJobAt o r n whole' group' m (effect (.data z) t) := by
  have hpos := h.pos_mod
  have hlast := h.remain_eq_one_iff
  have hgroups := h.groups
  have hout : t.out = o ++ radix64Encode whole := by simpa using h.out
  match group, h.stores, hpos with
  | [], _, hpos =>
    have hslot : t.encSlot = 0 := Fin.ext hpos
    refine ⟨whole, [z], by simp, h.data z (by simp) hgroups ?_ ?_⟩
    · rw [hslot]; rfl
    · simp only [encData_out_slot0 hpos, hout, hlast]; rfl
  | [x], hx, hpos =>
    have hslot : t.encSlot = 1 := Fin.ext hpos
    refine ⟨whole, [x, z], by simp, h.data z (by simp) hgroups ?_ ?_⟩
    · rw [hslot]; exact ⟨hx, rfl⟩
    · have hx : t.g.g0 = x := hx
      simp only [encData_out_slot1 hpos, hout, hlast, hx]; rfl
  | [x, y], ⟨hx, hy⟩, hpos =>
    refine ⟨whole ++ [x, y, z], [], by simp, h.data z (by simp) ?_ trivial ?_⟩
    · rw [List.length_append]; exact (Nat.add_mod_right _ 3).trans hgroups
    · rw [encData_out_slot2 hpos, hout, hx, hy, radix64Encode_append hgroups]
      simp [radix64Encode]

end OneByte

/-- A job after more of its bytes. -/
theorem EncJobAt.deliver {o whole group : List Byte} {r : Word24} {n m : Nat} {t : State} (xs : List Byte)
    (h : EncJobAt o r n whole group (m + xs.length) t) :
    ∃ whole' group', whole' ++ group' = whole ++ group ++ xs ∧
      EncJobAt o r n whole' group' m (Machine.deliver xs t) := by
  induction xs generalizing whole group t with
  | nil => exact ⟨whole, group, by simp, h⟩
  | cons z xs ih =>
    obtain ⟨whole₁, group₁, h₁, hz⟩ := h.data_exists z
    obtain ⟨whole', group', h', hxs⟩ := ih hz
    exact ⟨whole', group', by rw [h', h₁]; simp, hxs⟩

/-- `STATUS` as read. -/
theorem EncJobAt.word {o whole group : List Byte} {r : Word24} {n left : Nat} {t : State}
    (h : EncJobAt o r n whole group left t) : t.status.word = if left = 0 then 0x06#32 else 0x05#32 := by
  by_cases h0 : left = 0
  · have hb : t.status.busy = false := Bool.eq_false_iff.mpr fun e => h.busy.mp e h0
    simp only [if_pos h0, Status.word, hb, h.done.mpr h0, h.op, h.err, h.cmderr]
    rfl
  · have hd : t.status.done = false := Bool.eq_false_iff.mpr fun e => h0 (h.done.mp e)
    simp only [if_neg h0, Status.word, h.busy.mpr h0, hd, h.op, h.err, h.cmderr]
    rfl

/-- The bytes that came fix the groups: the whole ones among them. -/
theorem EncJobAt.whole_eq_take {o whole group b : List Byte} {r : Word24} {n left : Nat} {t : State}
    (h : EncJobAt o r n whole group left t) (hb : whole ++ group = b) : whole = b.take (3 * (b.length / 3)) := by
  have hgroups := h.groups
  have hlt := h.stores.length_lt
  have hlen : 3 * (b.length / 3) = whole.length := by rw [← hb, List.length_append]; omega
  rw [hlen, ← hb, List.take_left]

/-- The job's clauses do not speak of the inputs. -/
theorem EncJobAt.withInputs {o whole group : List Byte} {r : Word24} {n left : Nat} {t : State}
    (h : EncJobAt o r n whole group left t) (is : List Input) :
    EncJobAt o r n whole group left { t with inputs := is } := { h with }

/-- A run over the start word of an encode job and its first bytes `xs`. -/
theorem runSteps_encJob {s : State} {xs more : List Byte} {rest : List Input} (h0 : s.held = none)
    (hk : s.sink = .always) (hb : s.status.busy = false) (hn : (xs ++ more).length < 2 ^ 24)
    (hi : s.inputs = jobInputs s.platform (.enc (BitVec.ofNat 24 (xs ++ more).length)) (xs ++ more) ++ rest) :
    ∃ t whole group, runSteps (xs.length + 1) s = .next t ∧ whole ++ group = xs ∧
      EncJobAt s.out s.result (more.length + xs.length) whole group more.length t ∧
      t.inputs = dataWrites s.platform more ++ rest ∧ t.held = none := by
  have hstart := encJobAt_startEnc (BitVec.ofNat 24 (xs ++ more).length) s
  rw [BitVec.toNat_ofNat, Nat.mod_eq_of_lt hn, ← effect_enc_idle hb] at hstart
  have hlen : (xs ++ more).length = more.length + xs.length := by rw [List.length_append, Nat.add_comm]
  obtain ⟨whole, group, hbytes, hjob⟩ := EncJobAt.deliver xs (hlen ▸ hstart)
  refine ⟨_, whole, group, runSteps_job h0 hk hi, hbytes, hlen ▸ hjob.withInputs _, rfl, ?_⟩
  obtain ⟨hheld, -, -⟩ := effect_outside (.enc (BitVec.ofNat 24 (xs ++ more).length)) s
  rw [deliver_held, hheld, h0]

/-- Settles O45: with no byte to come, the whole groups and the last one have been put out. -/
theorem encJobProducesEncode : Obligations.EncJobProducesEncode := by
  intro s b rest h0 hk hb hn hi
  rw [← List.append_nil b] at hn hi
  obtain ⟨t, whole, group, hrun, rfl, hjob, hin, hheld⟩ := runSteps_encJob h0 hk hb hn hi
  refine ⟨t, hrun, ?_, hjob.word, BitVec.eq_of_toNat_eq hjob.remain, hjob.result, hin, hheld⟩
  rw [hjob.out, radix64Encode_append hjob.groups, List.append_assoc]
  rfl

/-- Settles O46: with bytes still to come, the whole groups alone have been put out. -/
theorem encJobLagsByAtMostTwoBytes : Obligations.EncJobLagsByAtMostTwoBytes := by
  intro s b rest k h0 hk hb hn hlt hi
  have hsplit : b.take k ++ b.drop k = b := List.take_append_drop k b
  have htake : (b.take k).length = k := List.length_take_of_le hlt.le
  have hdrop : (b.drop k).length = b.length - k := List.length_drop
  have hleft : b.length - k ≠ 0 := Nat.sub_ne_zero_of_lt hlt
  rw [← hsplit] at hn hi
  obtain ⟨t, whole, group, hrun, hbytes, hjob, -, -⟩ := runSteps_encJob h0 hk hb hn hi
  rw [htake] at hrun
  rw [hdrop] at hjob
  have hwhole : whole = b.take (3 * (k / 3)) := by
    rw [hjob.whole_eq_take hbytes, htake, List.take_take, Nat.min_eq_left (Nat.mul_div_le k 3)]
  refine ⟨t, hrun, ?_, ?_, hjob.remain⟩
  · rw [hjob.out, if_neg hleft, List.append_nil, hwhole]
  · rw [hjob.word, if_neg hleft]

/-! ### The statement of ENC (R79): `STATUS` as for a job with no byte come -/

/-- Settles O18: an accepted ENC is `startEnc`; the rejections set `CMDERR` alone. -/
theorem encStartsAnEncodeJob : Obligations.EncStartsAnEncodeJob := by
  refine ⟨fun _ => rfl, fun w s ho hr => onWriteCmd_reserved (decode_startBits (.inl ho) hr) s, fun n s hb => ?_,
    fun n s t hb ht => ?_, fun n s hb => ?_⟩
  · rw [exec_eq, effect_enc_idle hb, startEnc_eq]
  · rw [exec_eq, effect_enc_idle hb] at ht
    cases ht
    rw [(encJobAt_startEnc n s).word]
    exact if_congr toNat_eq_zero_iff rfl rfl
  · rw [exec_eq, effect_enc_busy hb]
    rfl

end Sys2Proof.Machine
end

section
/-! PROOFS. The function `Decode` (42_decoder.md, section 1): the bytes of a group by arithmetic, the effective length, and
a text decoded group by group, from which its statements follow. -/

namespace Sys2Proof.Machine

/-! ### The bytes of a group by arithmetic (R87, R88) -/

theorem toNat_append_eq_add {m n : Nat} (x : BitVec m) (y : BitVec n) :
    (x ++ y).toNat = x.toNat * 2 ^ n + y.toNat := by
  rw [BitVec.toNat_append, ← Nat.shiftLeft_add_eq_or_of_lt y.isLt, Nat.shiftLeft_eq]

theorem toNat_extractLsb'_eq_div {n : Nat} (x : BitVec n) (k m : Nat) :
    (x.extractLsb' k m).toNat = x.toNat / 2 ^ k % 2 ^ m := by
  rw [BitVec.extractLsb'_toNat, Nat.shiftRight_eq_div_pow]

/-- Settles O32: each byte is the concatenation of two indices' bits, and so a digit of the group's value. -/
theorem reassembledBytesAreBase256Digits : Obligations.ReassembledBytesAreBase256Digits := by
  intro i0 i1 i2 i3 w
  have h0 := i0.isLt
  have h1 := i1.isLt
  have h2 := i2.isLt
  have h3 := i3.isLt
  have first : i0 ++ i1.extractLsb' 4 2 = BitVec.ofNat 8 (w / 2 ^ 16) := by
    apply BitVec.eq_of_toNat_eq
    rw [toNat_append_eq_add, toNat_extractLsb'_eq_div, BitVec.toNat_ofNat]
    omega
  have second : i1.extractLsb' 0 4 ++ i2.extractLsb' 2 4 = BitVec.ofNat 8 (w / 2 ^ 8) := by
    apply BitVec.eq_of_toNat_eq
    rw [toNat_append_eq_add, toNat_extractLsb'_eq_div, toNat_extractLsb'_eq_div, BitVec.toNat_ofNat]
    omega
  have third : i2.extractLsb' 0 2 ++ i3 = BitVec.ofNat 8 w := by
    apply BitVec.eq_of_toNat_eq
    rw [toNat_append_eq_add, toNat_extractLsb'_eq_div, BitVec.toNat_ofNat]
    omega
  have single : i0 ++ 0#2 = BitVec.ofNat 8 (i0.toNat * 4) := by
    apply BitVec.eq_of_toNat_eq
    rw [toNat_append_eq_add, BitVec.toNat_ofNat, BitVec.toNat_ofNat]
    omega
  exact ⟨by rw [reassemble, first, second, third], by rw [reassemble, first, second], by rw [reassemble, first],
    by rw [reassemble, single]⟩

/-- The indices of an encoder's window give its bytes back (R73, R87). -/
theorem reassemble_window (b0 b1 b2 : Byte) :
    reassemble [(b0 ++ b1 ++ b2 : Word24).extractLsb' 18 6, (b0 ++ b1 ++ b2 : Word24).extractLsb' 12 6,
      (b0 ++ b1 ++ b2 : Word24).extractLsb' 6 6, (b0 ++ b1 ++ b2 : Word24).extractLsb' 0 6] = [b0, b1, b2] := by
  have hw := window_toNat b0 b1 b2
  have h0 := b0.isLt
  have h1 := b1.isLt
  have h2 := b2.isLt
  obtain ⟨full, -, -, -⟩ := reassembledBytesAreBase256Digits ((b0 ++ b1 ++ b2 : Word24).extractLsb' 18 6)
    ((b0 ++ b1 ++ b2 : Word24).extractLsb' 12 6) ((b0 ++ b1 ++ b2 : Word24).extractLsb' 6 6)
    ((b0 ++ b1 ++ b2 : Word24).extractLsb' 0 6)
  simp only [toNat_extractLsb'_eq_div] at full
  rw [full]
  generalize (b0 ++ b1 ++ b2 : Word24).toNat = v at hw
  congr 1
  · apply BitVec.eq_of_toNat_eq; rw [BitVec.toNat_ofNat]; omega
  congr 1
  · apply BitVec.eq_of_toNat_eq; rw [BitVec.toNat_ofNat]; omega
  congr 1
  · apply BitVec.eq_of_toNat_eq; rw [BitVec.toNat_ofNat]; omega

/-! ### The effective length (R85, R89) -/

theorem effectiveLength_append_pair (pre : List Byte) (x y : Byte) :
    effectiveLength (pre ++ [x, y]) =
      pre.length + if y = padChar then (if x = padChar then 0 else 1) else 2 := by
  by_cases hy : y = padChar
  · by_cases hx : x = padChar
    · simp [effectiveLength, hx, hy]
    · simp [effectiveLength, hx, hy]
  · simp [effectiveLength, hy]

/-- Settles O37: the last two characters alone decide. -/
theorem effectiveLengthReadsTheLastTwo : Obligations.EffectiveLengthReadsTheLastTwo := by
  intro pre x y
  rw [effectiveLength_append_pair, padChar]
  exact ⟨fun hx hy => by rw [if_pos hy, if_pos hx]; rfl, fun hx hy => by rw [if_pos hy, if_neg hx],
    fun hy => by rw [if_neg hy]⟩

theorem exists_eq_append_pair {t : List Byte} (h : 2 ≤ t.length) : ∃ pre x y, t = pre ++ [x, y] := by
  have hlen : (t.drop (t.length - 2)).length = 2 := by rw [List.length_drop]; omega
  obtain ⟨x, y, hxy⟩ := List.length_eq_two.mp hlen
  exact ⟨t.take (t.length - 2), x, y, by rw [← hxy, List.take_append_drop]⟩

/-- A non-empty text of whole groups has its last two characters. -/
theorem two_le_length {t : List Byte} (hne : t ≠ []) (h : t.length % 4 = 0) : 2 ≤ t.length := by
  have := List.length_pos_of_ne_nil hne
  omega

/-- What stands before a text's last two characters is in its effective range. -/
theorem effectiveLength_append (pre : List Byte) {t : List Byte} (h : 2 ≤ t.length) :
    effectiveLength (pre ++ t) = pre.length + effectiveLength t := by
  obtain ⟨t', x, y, rfl⟩ := exists_eq_append_pair h
  rw [← List.append_assoc, effectiveLength_append_pair, effectiveLength_append_pair, List.length_append, Nat.add_assoc]

/-- Settles O40: of a text's length the effective length leaves out 0, 1 or 2. -/
theorem lastGroupNeverHoldsOneCharacter : Obligations.LastGroupNeverHoldsOneCharacter := by
  intro t hne h
  obtain ⟨pre, x, y, rfl⟩ := exists_eq_append_pair (two_le_length hne h)
  rw [effectiveLength_append_pair]
  have hlen : (pre ++ [x, y]).length = pre.length + 2 := List.length_append
  split_ifs <;> omega

/-! ### One group of characters (R86, R87) -/

/-- What a group of up to four characters decodes to: the bytes of its indices if each character has one (R86). -/
def decodeGroup (g : List Byte) : List Byte × CodecError :=
  match g.mapM charToIndex with
  | Option.none => ([], .invalidCharacter)
  | some is => (reassemble is, .none)

/-- The indices of characters, each of which has one. -/
def HaveIndices (cs : List Byte) (is : List Index) : Prop := List.Forall₂ (fun c i => charToIndex c = some i) cs is

theorem mapM_eq_some_iff {cs : List Byte} {is : List Index} : cs.mapM charToIndex = some is ↔ HaveIndices cs is := by
  unfold HaveIndices
  induction cs generalizing is with
  | nil => simp [eq_comm]
  | cons c cs ih =>
    simp only [List.mapM_cons, Option.pure_def, Option.bind_eq_bind, Option.bind_eq_some_iff, Option.some.injEq,
      List.forall₂_cons_left_iff, ih]
    constructor
    · rintro ⟨i, hi, js, hjs, rfl⟩
      exact ⟨i, js, hi, hjs, rfl⟩
    · rintro ⟨i, js, hi, hjs, rfl⟩
      exact ⟨i, hi, js, hjs, rfl⟩

theorem HaveIndices.index_of_mem {cs : List Byte} {is : List Index} (h : HaveIndices cs is) {c : Byte} (hc : c ∈ cs) :
    ∃ i, charToIndex c = some i := by
  induction h with
  | nil => cases hc
  | cons hi _ ih =>
    rcases List.mem_cons.mp hc with rfl | hc
    · exact ⟨_, hi⟩
    · exact ih hc

theorem haveIndices_map_indexToChar (is : List Index) : HaveIndices (is.map indexToChar) is :=
  List.forall₂_map_left_iff.mpr (List.forall₂_same.mpr fun i _ => symbolTableIsABijection.1 i)

theorem HaveIndices.snoc {cs : List Byte} {is : List Index} (h : HaveIndices cs is) {c : Byte} {i : Index}
    (hc : charToIndex c = some i) : HaveIndices (cs ++ [c]) (is ++ [i]) := List.rel_append h (.cons hc .nil)

theorem decodeGroup_of_haveIndices {g : List Byte} {is : List Index} (h : HaveIndices g is) :
    decodeGroup g = (reassemble is, .none) := by simp only [decodeGroup, mapM_eq_some_iff.mpr h]

/-- A group with an invalid character gives no byte. -/
theorem decodeGroup_of_invalid {g : List Byte} (h : ∃ c ∈ g, charToIndex c = none) :
    decodeGroup g = ([], .invalidCharacter) := by
  obtain ⟨c, hc, hn⟩ := h
  cases hg : g.mapM charToIndex with
  | none => simp only [decodeGroup, hg]
  | some is =>
    obtain ⟨i, hi⟩ := (mapM_eq_some_iff.mp hg).index_of_mem hc
    exact absurd (hn.symm.trans hi) nofun

/-! ### A text, group by group (R82, R86) -/

/-- The decoding of a text that begins with groups decoded to `x` and goes on with what decodes to `y`: an error in the
first part ends it. -/
def decodeThen (x y : List Byte × CodecError) : List Byte × CodecError :=
  if x.2 = .none then (x.1 ++ y.1, y.2) else x

@[simp] theorem decodeThen_ok (bs : List Byte) (y : List Byte × CodecError) :
    decodeThen (bs, .none) y = (bs ++ y.1, y.2) := rfl

theorem decodeThen_error {x : List Byte × CodecError} (h : x.2 ≠ .none) (y : List Byte × CodecError) :
    decodeThen x y = x := if_neg h

/-- A text ends after its last group. -/
theorem decodeThen_nil (x : List Byte × CodecError) : decodeThen x ([], .none) = x := by
  by_cases hx : x.2 = .none
  · rw [decodeThen, if_pos hx, List.append_nil, ← hx]
  · exact decodeThen_error hx _

theorem decodeThen_assoc (x y z : List Byte × CodecError) :
    decodeThen (decodeThen x y) z = decodeThen x (decodeThen y z) := by
  by_cases hx : x.2 = .none
  · by_cases hy : y.2 = .none
    · simp [decodeThen, hx, hy]
    · simp [decodeThen, hx, hy]
  · simp [decodeThen, hx]

theorem decodeGroups_group (c0 c1 c2 c3 : Byte) (rest : List Byte) :
    decodeGroups (c0 :: c1 :: c2 :: c3 :: rest) = decodeThen (decodeGroup [c0, c1, c2, c3]) (decodeGroups rest) := by
  rw [decodeGroups, decodeGroup]
  cases [c0, c1, c2, c3].mapM charToIndex with
  | none => rfl
  | some is => rfl

/-- A text of one group, whole or not. -/
theorem decodeGroups_of_length_le {g : List Byte} (h : g.length ≤ 4) : decodeGroups g = decodeGroup g := by
  match g with
  | [] => rfl
  | [c0] => rfl
  | [c0, c1] => rfl
  | [c0, c1, c2] => rfl
  | [c0, c1, c2, c3] => rw [decodeGroups_group, show decodeGroups [] = ([], .none) from rfl, decodeThen_nil]
  | _ :: _ :: _ :: _ :: _ :: rest => exact absurd h (by simp only [List.length_cons]; omega)

/-- Whole groups are decoded on their own, whatever follows them. -/
theorem decodeGroups_append : ∀ {pre : List Byte}, pre.length % 4 = 0 → ∀ post : List Byte,
    decodeGroups (pre ++ post) = decodeThen (decodeGroups pre) (decodeGroups post)
  | [], _, _ => rfl
  | c0 :: c1 :: c2 :: c3 :: rest, h, post => by
    have hrest : rest.length % 4 = 0 := (Nat.add_mod_right rest.length 4).symm.trans h
    simp only [List.cons_append, decodeGroups_group, decodeGroups_append hrest post, decodeThen_assoc]
  | [_], h, _ => absurd h (by simp)
  | [_, _], h, _ => absurd h (by simp)
  | [_, _, _], h, _ => absurd h (by simp)

/-! ### `Decode` (R82 to R85) -/

theorem radix64Decode_of_wholeGroups {t : List Byte} (h : t.length % 4 = 0) :
    radix64Decode t = decodeGroups (t.take (effectiveLength t)) := if_neg (not_not.mpr h)

theorem radix64Decode_of_badLength {t : List Byte} (h : t.length % 4 ≠ 0) :
    radix64Decode t = ([], .invalidInputLength) := if_pos h

theorem radix64Decode_nil : radix64Decode [] = ([], .none) := rfl

/-- Settles O36: the length is looked at before any character. -/
theorem decodeChecksTheLengthFirst : Obligations.DecodeChecksTheLengthFirst :=
  ⟨fun _ => radix64Decode_of_badLength, radix64Decode_nil⟩

/-- Whole groups before the last are decoded on their own, and `Decode` of the rest follows. -/
theorem radix64Decode_append {pre t : List Byte} (hpre : pre.length % 4 = 0) (hne : t ≠ []) (ht : t.length % 4 = 0) :
    radix64Decode (pre ++ t) = decodeThen (decodeGroups pre) (radix64Decode t) := by
  have hlen : (pre ++ t).length % 4 = 0 := by rw [List.length_append]; omega
  rw [radix64Decode_of_wholeGroups hlen, radix64Decode_of_wholeGroups ht,
    effectiveLength_append pre (two_le_length hne ht), List.take_length_add_append, decodeGroups_append hpre]

theorem radix64Decode_append_group {pre : List Byte} (hpre : pre.length % 4 = 0) (c0 c1 c2 c3 : Byte) :
    radix64Decode (pre ++ [c0, c1, c2, c3]) = decodeThen (decodeGroups pre) (radix64Decode [c0, c1, c2, c3]) :=
  radix64Decode_append hpre (List.cons_ne_nil _ _) (Nat.mod_self 4)

/-! The final group by its pads (R85): the characters before them are decoded as one group. -/

theorem radix64Decode_finalGroup (c0 c1 c2 c3 : Byte) :
    radix64Decode [c0, c1, c2, c3] =
      decodeGroup ([c0, c1, c2, c3].take (2 + if c3 = padChar then (if c2 = padChar then 0 else 1) else 2)) := by
  have heff : effectiveLength [c0, c1, c2, c3] = 2 + _ := effectiveLength_append_pair [c0, c1] c2 c3
  have hlen : [c0, c1, c2, c3].length % 4 = 0 := Nat.mod_self 4
  rw [radix64Decode_of_wholeGroups hlen, heff, decodeGroups_of_length_le (List.length_take_le' _ _)]

theorem radix64Decode_twoPads (c0 c1 : Byte) : radix64Decode [c0, c1, padChar, padChar] = decodeGroup [c0, c1] := by
  rw [radix64Decode_finalGroup, if_pos rfl, if_pos rfl]
  rfl

theorem radix64Decode_onePad (c0 c1 : Byte) {c2 : Byte} (h : c2 ≠ padChar) :
    radix64Decode [c0, c1, c2, padChar] = decodeGroup [c0, c1, c2] := by
  rw [radix64Decode_finalGroup, if_pos rfl, if_neg h]
  rfl

theorem radix64Decode_noPad (c0 c1 c2 : Byte) {c3 : Byte} (h : c3 ≠ padChar) :
    radix64Decode [c0, c1, c2, c3] = decodeGroup [c0, c1, c2, c3] := by
  rw [radix64Decode_finalGroup, if_neg h]
  rfl

/-- An invalid character before the pads of the final group: it gives no byte (R86). -/
theorem radix64Decode_of_invalid {c0 c1 c2 c3 : Byte}
    (h : charToIndex c0 = none ∨ charToIndex c1 = none ∨
      (¬ (c2 = padChar ∧ c3 = padChar) ∧ charToIndex c2 = none) ∨ (c3 ≠ padChar ∧ charToIndex c3 = none)) :
    radix64Decode [c0, c1, c2, c3] = ([], .invalidCharacter) := by
  by_cases h3 : c3 = padChar
  · subst h3
    by_cases h2 : c2 = padChar
    · subst h2
      rw [radix64Decode_twoPads]
      exact decodeGroup_of_invalid (by simpa using h)
    · rw [radix64Decode_onePad c0 c1 h2]
      exact decodeGroup_of_invalid (by simpa [h2] using h)
  · rw [radix64Decode_noPad c0 c1 c2 h3]
    exact decodeGroup_of_invalid (by simpa [h3] using h)

/-! ### `Decode` of what `Encode` gives (R91) -/

/-- A whole group's characters are decoded to its bytes. -/
theorem decodeGroup_encFull (b0 b1 b2 : Byte) : decodeGroup (encFull b0 b1 b2) = ([b0, b1, b2], .none) := by
  rw [← reassemble_window b0 b1 b2]
  exact decodeGroup_of_haveIndices (haveIndices_map_indexToChar [_, _, _, _])

theorem decodeGroups_encFull_append (b0 b1 b2 : Byte) (t : List Byte) :
    decodeGroups (encFull b0 b1 b2 ++ t) = decodeThen ([b0, b1, b2], .none) (decodeGroups t) := by
  rw [← decodeGroup_encFull]
  exact decodeGroups_group _ _ _ _ t

/-- The encoded complete groups are decoded to their bytes. -/
theorem decodeGroups_encode {b : List Byte} (h : b.length % 3 = 0) : decodeGroups (radix64Encode b) = (b, .none) := by
  induction b using radix64Encode.induct with
  | case1 b0 b1 b2 rest ih =>
    rw [radix64Encode_group, decodeGroups_encFull_append, ih ((length_group_mod b0 b1 b2 rest).symm.trans h)]
    rfl
  | case2 b0 b1 => cases h
  | case3 b0 => cases h
  | case4 => rfl

theorem radix64Encode_length_mod (b : List Byte) : (radix64Encode b).length % 4 = 0 := by
  rw [encodeLengthLaw, Nat.mul_mod_right]

theorem radix64Decode_encFull (b0 b1 b2 : Byte) : radix64Decode (encFull b0 b1 b2) = ([b0, b1, b2], .none) := by
  rw [← decodeGroup_encFull]
  exact radix64Decode_noPad _ _ _ (isSymbol_indexToChar _).2

/-- Of a final group of two bytes the pad stands for the missing byte's index, and nothing is lost. -/
theorem radix64Decode_encTail2 (b0 b1 : Byte) : radix64Decode (encTail2 b0 b1) = ([b0, b1], .none) := by
  have hbytes := congrArg (List.take 2) (reassemble_window b0 b1 0#8)
  refine (radix64Decode_onePad _ _ (isSymbol_indexToChar _).2).trans ?_
  exact (decodeGroup_of_haveIndices (haveIndices_map_indexToChar [_, _, _])).trans (congrArg (·, CodecError.none) hbytes)

theorem radix64Decode_encTail1 (b0 : Byte) : radix64Decode (encTail1 b0) = ([b0], .none) := by
  have hbytes := congrArg (List.take 1) (reassemble_window b0 0#8 0#8)
  refine (radix64Decode_twoPads _ _).trans ?_
  exact (decodeGroup_of_haveIndices (haveIndices_map_indexToChar [_, _])).trans (congrArg (·, CodecError.none) hbytes)

/-- Settles O35, group by group. -/
theorem decodeOfEncodeIsTheInput : Obligations.DecodeOfEncodeIsTheInput := by
  intro b
  induction b using radix64Encode.induct with
  | case1 b0 b1 b2 rest ih =>
    have hfull : (encFull b0 b1 b2).length % 4 = 0 := Nat.mod_self 4
    rw [radix64Encode_group]
    by_cases hrest : radix64Encode rest = []
    · rw [hrest] at ih ⊢
      obtain rfl : rest = [] := (congrArg Prod.fst ih).symm
      rw [List.append_nil, radix64Decode_encFull]
    · have hgroup := decodeGroups_encode (b := [b0, b1, b2]) (Nat.mod_self 3)
      rw [radix64Encode_group, radix64Encode, List.append_nil] at hgroup
      rw [radix64Decode_append hfull hrest (radix64Encode_length_mod rest), hgroup, ih]
      rfl
  | case2 b0 b1 => exact radix64Decode_encTail2 b0 b1
  | case3 b0 => exact radix64Decode_encTail1 b0
  | case4 => rfl

/-! ### What ends decoding, and what does not (R86, R90) -/

/-- Settles O38: the groups before are decoded, and the group with the invalid character gives no byte. -/
theorem invalidCharacterEndsDecode : Obligations.InvalidCharacterEndsDecode := by
  refine ⟨fun b grp post hb hgrp hne hpost hinv => ?_, fun b c0 c1 c2 c3 hb hinv => ?_⟩
  · have hpre : (radix64Encode b ++ grp).length % 4 = 0 := by
      rw [List.length_append, hgrp, Nat.add_mod_right, radix64Encode_length_mod]
    rw [radix64Decode_append hpre hne hpost, decodeGroups_append (radix64Encode_length_mod b), decodeGroups_encode hb,
      decodeGroups_of_length_le hgrp.le, decodeGroup_of_invalid hinv, decodeThen_ok, List.append_nil]
    rfl
  · rw [radix64Decode_append_group (radix64Encode_length_mod b), decodeGroups_encode hb, radix64Decode_of_invalid hinv,
      decodeThen_ok, List.append_nil]

/-- A group of three indices gives no bit of the last one's low two. -/
theorem reassemble_three_congr (i0 i1 : Index) {i j : Index} (h : i.toNat / 4 = j.toNat / 4) :
    reassemble [i0, i1, i] = reassemble [i0, i1, j] := by
  have hbits : i.extractLsb' 2 4 = j.extractLsb' 2 4 := by
    apply BitVec.eq_of_toNat_eq
    rw [toNat_extractLsb'_eq_div, toNat_extractLsb'_eq_div]
    exact congrArg (· % 2 ^ 4) h
  rw [reassemble, reassemble, hbits]

/-- A group of two indices gives no bit of the last one's low four. -/
theorem reassemble_two_congr (i0 : Index) {i j : Index} (h : i.toNat / 16 = j.toNat / 16) :
    reassemble [i0, i] = reassemble [i0, j] := by
  have hbits : i.extractLsb' 4 2 = j.extractLsb' 4 2 := by
    apply BitVec.eq_of_toNat_eq
    rw [toNat_extractLsb'_eq_div, toNat_extractLsb'_eq_div]
    exact congrArg (· % 2 ^ 2) h
  rw [reassemble, reassemble, hbits]

/-- Groups that differ in their last character alone decode alike, if its two indices give the same bytes. -/
theorem decodeGroup_append_congr {cs : List Byte} {x y : Byte} {i j : Index} (hx : charToIndex x = some i)
    (hy : charToIndex y = some j)
    (h : ∀ is, HaveIndices cs is → reassemble (is ++ [i]) = reassemble (is ++ [j])) :
    decodeGroup (cs ++ [x]) = decodeGroup (cs ++ [y]) := by
  cases hcs : cs.mapM charToIndex with
  | none => simp [decodeGroup, List.mapM_append, hcs]
  | some is => simp [decodeGroup, List.mapM_append, hcs, hx, hy, h is (mapM_eq_some_iff.mp hcs)]

/-- A character with an index is no pad (R66). -/
theorem ne_padChar_of_index {c : Byte} {i : Index} (h : charToIndex c = some i) : c ≠ padChar := by
  rintro rfl
  exact absurd (charToIndex_pad.symm.trans h) nofun

/-- Settles O39: whatever stands before, the final groups decode alike. -/
theorem discardedBitsAreNotChecked : Obligations.DiscardedBitsAreNotChecked := by
  refine ⟨fun pre c0 c1 x y i j hpre hx hy hij => ?_, fun pre c0 x y i j hpre hx hy hij => ?_⟩
  · have hgroup : decodeGroup [c0, c1, x] = decodeGroup [c0, c1, y] := by
      refine decodeGroup_append_congr (cs := [c0, c1]) hx hy fun is his => ?_
      obtain ⟨i0, i1, rfl⟩ := List.length_eq_two.mp (List.Forall₂.length_eq his).symm
      exact reassemble_three_congr i0 i1 hij
    rw [radix64Decode_append_group hpre, radix64Decode_append_group hpre]
    exact congrArg _ (((radix64Decode_onePad c0 c1 (ne_padChar_of_index hx)).trans hgroup).trans
      (radix64Decode_onePad c0 c1 (ne_padChar_of_index hy)).symm)
  · have hgroup : decodeGroup [c0, x] = decodeGroup [c0, y] := by
      refine decodeGroup_append_congr (cs := [c0]) hx hy fun is his => ?_
      obtain ⟨i0, rfl⟩ := List.length_eq_one_iff.mp (List.Forall₂.length_eq his).symm
      exact reassemble_two_congr i0 hij
    rw [radix64Decode_append_group hpre, radix64Decode_append_group hpre]
    exact congrArg _ (((radix64Decode_twoPads c0 x).trans hgroup).trans (radix64Decode_twoPads c0 y).symm)

end Sys2Proof.Machine
end

section
/-! PROOFS. DEC and DATA in a decode job (42_decoder.md, section 2), and what a whole job has put out: `Decode` of its
text, group by group. -/

namespace Sys2Proof.Machine

/-! ### DEC (R92) -/

theorem startDec_status (n : Word24) (s : State) :
    (startDec n s).status =
      { busy := decide (n ≠ 0#24), done := decide (n = 0#24), op := .dec,
        err := if n.toNat % 4 ≠ 0 then .invalidInputLength else .none, cmderr := false } := by
  by_cases hm : n.toNat % 4 = 0
  · rw [startDec_of_wholeGroups hm]
    by_cases h : n = 0#24
    · simp [h]
    · simp [h, hm]
  · have h : n ≠ 0#24 := by rintro rfl; exact hm rfl
    rw [startDec_of_badLength hm]
    simp [h, hm]

theorem startDec_eq (n : Word24) (s : State) :
    startDec n s = { s with status := (startDec n s).status, len := n, remain := n } := by
  unfold startDec
  dsimp only
  split
  · rfl
  split <;> rfl

theorem effect_dec_idle {s : State} (hb : s.status.busy = false) (n : Word24) : effect (.dec n) s = startDec n s :=
  if_neg (Bool.eq_false_iff.mp hb)

theorem effect_dec_busy {s : State} (hb : s.status.busy = true) (n : Word24) : effect (.dec n) s = rejectCommand s :=
  if_pos hb

/-- Settles O19: an accepted DEC is `startDec`; the rejections set `CMDERR` alone. -/
theorem decStartsADecodeJob : Obligations.DecStartsADecodeJob := by
  refine ⟨fun _ => rfl, fun w s ho hr => onWriteCmd_reserved (decode_startBits (.inr (.inl ho)) hr) s,
    fun n s hb hm => ?_, fun n s hb hm => ?_, fun n s t hb ht => ?_, fun n s hb => ?_⟩
  · have h : n ≠ 0#24 := by rintro rfl; exact hm rfl
    rw [exec_eq, effect_dec_idle hb, startDec_eq, startDec_status, if_pos hm, decide_eq_true h, decide_eq_false h]
  · rw [exec_eq, effect_dec_idle hb, startDec_eq, startDec_status, if_neg (not_not.mpr hm)]
  · rw [exec_eq, effect_dec_idle hb] at ht
    cases ht
    rw [startDec_status]
    by_cases hm : n.toNat % 4 = 0
    · by_cases h : n = 0#24
      · subst h; rfl
      · rw [if_neg (not_not.mpr hm), if_neg (not_not.mpr hm), if_neg h, decide_eq_true h, decide_eq_false h]; rfl
    · have h : n ≠ 0#24 := by rintro rfl; exact hm rfl
      rw [if_pos hm, if_pos hm, decide_eq_true h, decide_eq_false h]; rfl
  · rw [exec_eq, effect_dec_busy hb]
    rfl

/-! ### DATA in a decode job (R93) -/

theorem effect_data_dec {s : State} (hb : s.status.busy = true) (ho : s.status.op = .dec) (he : s.status.err = .none)
    (c : Byte) : effect (.data c) s = (decData c s).counted := by rw [effect_data hb, dataBody_dec he ho]

/-- A valid character judged at once that does not end a group is stored, and no more. -/
theorem decPlain_store {c : Byte} {r : Index} (hc : charToIndex c = some r) {s : State} (h : s.pos % 4 ≠ 3) :
    decPlain c s = setGroup s.decSlot (r.setWidth 8) s := by
  have hslot : s.decSlot ≠ 3 := fun e => h (congrArg Fin.val e)
  rw [decPlain_some hc, if_neg fun e => hslot e.2]

/-- A valid character that ends a group before the final one emits the group's bytes. -/
theorem decPlain_emit {c : Byte} {r : Index} (hc : charToIndex c = some r) {s : State} (hf : s.pos < s.len.toNat - 4)
    (h : s.pos % 4 = 3) : decPlain c s = emitGroup [0, 1, 2, 3] (setGroup 3 (r.setWidth 8) s) := by
  have hslot : s.decSlot = 3 := Fin.ext h
  rw [decPlain_some hc, if_pos ⟨(beforeFinalGroup_iff s).mpr hf, hslot⟩, hslot]

/-- Settles O23: the body by the character's index and slot. -/
theorem dataInADecodeJobJudgedAtOnce : Obligations.DataInADecodeJobJudgedAtOnce := by
  intro c s hb ho he p final hplace
  have hplain : s.pos < s.len.toNat - 4 ∨ s.pos % 4 < 2 := hplace.imp_right Nat.lt_succ_of_le
  rw [exec_eq, effect_data_dec hb ho he, decData_plain hplain]
  refine ⟨fun hc => by rw [decPlain_none hc]; rfl, fun r hc => ⟨fun h => ?_, fun h => ?_, fun h => ?_, fun h => ?_⟩⟩
  · have hk : s.pos % 4 = 0 := h
    have hslot : s.decSlot = 0 := Fin.ext hk
    rw [decPlain_store hc (by omega), hslot]
    rfl
  · have hk : s.pos % 4 = 1 := h
    have hslot : s.decSlot = 1 := Fin.ext hk
    rw [decPlain_store hc (by omega), hslot]
    rfl
  · have hk : s.pos % 4 = 2 := h
    have hslot : s.decSlot = 2 := Fin.ext hk
    rw [decPlain_store hc (by omega), hslot]
    rfl
  · have hk : s.pos % 4 = 3 := h
    have hf : s.pos < s.len.toNat - 4 := by omega
    rw [decPlain_emit hc hf hk]
    simp [emitGroup, emitAll, groupIndex, setGroup]

/-- Settles O24: at that place the body is the write of `PEND`. -/
theorem dataInADecodeJobDeferred : Obligations.DataInADecodeJobDeferred := by
  intro c s hb ho he hf hk
  rw [exec_eq, effect_data_dec hb ho he, decData_deferred (Nat.not_lt.mpr hf) hk]

/-- Settles O25: the five ways the last character can end the final group. -/
theorem dataInADecodeJobDecidesTheFinalGroup : Obligations.DataInADecodeJobDecidesTheFinalGroup := by
  intro c s hb ho he hf hk
  rw [exec_eq, effect_data_dec hb ho he, decData_final (Nat.not_lt.mpr hf) hk]
  refine ⟨fun hc hp => ?_, fun hpads hp => ?_, fun r hc hp => ?_, fun r hc hp hq => ?_, fun r q hp hq => ?_⟩
  · have hpad : c = padChar := hc
    rw [hpad, decFinal_twoPads hp]; rfl
  · rw [decFinal_badPend hpads hp]; rfl
  · have hpad : c = padChar := hc
    rw [hpad, decFinal_onePad hp]; simp [emitGroup, emitAll, groupIndex, setGroup]
  · rw [decFinal_badChar hc hp hq]; rfl
  · rw [decFinal_full hp hq]; simp [emitGroup, emitAll, groupIndex, setGroup]

/-! ### A decode job between two of its characters (R94) -/

/-- A decode job of `n` characters with `left` of them to come, with `OUT = o`, `RESULT = r` and `ERR = e`. -/
structure DecJobAt (o : List Byte) (r : Word24) (n left : Nat) (e : CodecError) (t : State) : Prop
    extends JobAt .dec n left t where
  err : t.status.err = e
  result : t.result = r
  out : t.out = o

/-- An accepted DEC begins such a job, with no character come. -/
theorem decJobAt_startDec (n : Word24) (s : State) :
    DecJobAt s.out s.result n.toNat n.toNat (if n.toNat % 4 ≠ 0 then .invalidInputLength else .none) (startDec n s) where
  toJobAt := (started_startDec n s).jobAt
  err := startDec_err n s
  result := startDec_result n s
  out := startDec_out n s

/-- The job's clauses do not speak of the inputs. -/
theorem DecJobAt.withInputs {o : List Byte} {r : Word24} {n left : Nat} {e : CodecError} {t : State}
    (h : DecJobAt o r n left e t) (is : List Input) : DecJobAt o r n left e { t with inputs := is } := { h with }

/-- A completed job's `STATUS` (R107). -/
theorem JobAt.status_completed {op : JobOp} {n : Nat} {t : State} (h : JobAt op n 0 t) :
    t.status = { busy := false, done := true, op := op, err := t.status.err, cmderr := false } := by
  have hb : t.status.busy = false := Bool.eq_false_iff.mpr fun e => h.busy.mp e rfl
  have hd : t.status.done = true := h.done.mpr rfl
  obtain ⟨-, -, ho, hc, -, -⟩ := h
  generalize t.status = st at *
  obtain ⟨b, d, o, e, c⟩ := st
  cases hb; cases hd; cases ho; cases hc
  rfl

section OneCharacter
variable {o : List Byte} {r : Word24} {n m : Nat} {e : CodecError} {t : State}

/-- A character in a job without error: what it puts out and raises is what the job's body does. -/
theorem DecJobAt.data (h : DecJobAt o r n (m + 1) .none t) (c : Byte) :
    DecJobAt (decData c t).out r n m (decData c t).status.err (effect (.data c) t) := by
  have hjob := h.toJobAt.data c
  rw [effect_data_dec h.is_busy h.op h.err] at hjob ⊢
  exact ⟨hjob, counted_err _, (decData_result c t).trans h.result, rfl⟩

/-- A job with an error drains (R109). -/
theorem DecJobAt.drain (xs : List Byte) (h : DecJobAt o r n (m + xs.length) e t) (he : e ≠ .none) :
    DecJobAt o r n m e (deliver xs t) := by
  induction xs generalizing t with
  | nil => exact h
  | cons x xs ih =>
    have hjob := h.toJobAt.data x
    have hdrain : effect (.data x) t = t.counted := by
      rw [effect_data h.toJobAt.is_busy, dataBody_drain (h.err ▸ he)]
    rw [deliver_cons]
    rw [hdrain] at hjob ⊢
    exact ih ⟨hjob, (counted_err t).trans h.err, h.result, h.out⟩

end OneCharacter

/-! ### A group of a decode job (R28, R93) -/

/-- The group buffer holds the indices of the group's first characters, zero-extended (R28). -/
def StoresIndices (g : GroupBuffer) (is : List Index) : Prop :=
  ∀ (k : Fin 4) (i : Index), is[k.val]? = some i → g.get k = i.setWidth 8

theorem storesIndices_nil (g : GroupBuffer) : StoresIndices g [] := fun _ _ h => nomatch h

/-- One index more, at the next place. -/
theorem StoresIndices.snoc {g : GroupBuffer} {is : List Index} (h : StoresIndices g is) {k : Fin 4}
    (hk : k.val = is.length) (i : Index) : StoresIndices (g.set k (i.setWidth 8)) (is ++ [i]) := by
  intro j i' hj
  by_cases hjk : j = k
  · subst hjk
    rw [hk, List.getElem?_concat_length] at hj
    cases hj
    exact GroupBuffer.get_set_self g j _
  · have hne : j.val ≠ is.length := fun e => hjk (Fin.ext (e.trans hk.symm))
    rw [GroupBuffer.get_set_other g j k _ hjk]
    rw [List.getElem?_append, List.getElem?_singleton] at hj
    split_ifs at hj with hlt h0
    · exact h j i' hj
    · omega

theorem StoresIndices.groupIndex_eq {s : State} {is : List Index} (h : StoresIndices s.g is) {k : Fin 4} {i : Index}
    (hk : is[k.val]? = some i) : groupIndex k s = i := by rw [groupIndex, h k i hk, index_of_entry]

section EmitGroup
variable {s : State} {i0 i1 i2 i3 : Index}

theorem emitGroup_two (h : StoresIndices s.g [i0, i1]) : emitGroup [0, 1] s = emitAll (reassemble [i0, i1]) s := by
  rw [← h.groupIndex_eq (k := 0) (i := i0) rfl, ← h.groupIndex_eq (k := 1) (i := i1) rfl]
  rfl

theorem emitGroup_three (h : StoresIndices s.g [i0, i1, i2]) :
    emitGroup [0, 1, 2] s = emitAll (reassemble [i0, i1, i2]) s := by
  rw [← h.groupIndex_eq (k := 0) (i := i0) rfl, ← h.groupIndex_eq (k := 1) (i := i1) rfl,
    ← h.groupIndex_eq (k := 2) (i := i2) rfl]
  rfl

theorem emitGroup_four (h : StoresIndices s.g [i0, i1, i2, i3]) :
    emitGroup [0, 1, 2, 3] s = emitAll (reassemble [i0, i1, i2, i3]) s := by
  rw [← h.groupIndex_eq (k := 0) (i := i0) rfl, ← h.groupIndex_eq (k := 1) (i := i1) rfl,
    ← h.groupIndex_eq (k := 2) (i := i2) rfl, ← h.groupIndex_eq (k := 3) (i := i3) rfl]
  rfl

end EmitGroup

/-- A decode job without error inside a group that `later` whole groups follow: the indices `is` of the characters that
came of it stand in the group buffer. -/
structure DecGroupAt (o : List Byte) (r : Word24) (n later : Nat) (is : List Index) (left : Nat) (t : State) : Prop
    extends DecJobAt o r n left .none t where
  stores : StoresIndices t.g is
  left_eq : left + is.length = 4 * (later + 1)
  left_le : left ≤ n
  groups : n % 4 = 0

/-- Between groups nothing is stored. -/
theorem DecJobAt.beginGroup {o : List Byte} {r : Word24} {n later left : Nat} {t : State}
    (h : DecJobAt o r n left .none t) (hleft : left = 4 * (later + 1)) (hle : left ≤ n) (hn : n % 4 = 0) :
    DecGroupAt o r n later [] left t where
  toDecJobAt := h
  stores := storesIndices_nil t.g
  left_eq := hleft
  left_le := hle
  groups := hn

section OneGroup
variable {o : List Byte} {r : Word24} {n m later : Nat} {is : List Index} {t : State}

/-- A character's place in its group is the number of characters the group has, and it stands before the final group
exactly if whole groups follow its own. -/
theorem DecGroupAt.place (h : DecGroupAt o r n later is (m + 1) t) (hlt : is.length < 4) :
    t.pos % 4 = is.length ∧ (t.pos < t.len.toNat - 4 ↔ 0 < later) := by
  obtain ⟨hjob, -, heq, hle, hn⟩ := h
  rw [hjob.toJobAt.pos, hjob.len]
  omega

/-- A character that is judged at once. -/
theorem DecGroupAt.decData_eq (h : DecGroupAt o r n later is (m + 1) t) (hlt : is.length < 4)
    (hplain : 0 < later ∨ is.length < 2) (c : Byte) : decData c t = decPlain c t := by
  obtain ⟨hk, hf⟩ := h.place hlt
  exact decData_plain (hplain.imp hf.mpr hk.trans_lt) c

/-- An invalid one ends decoding. -/
theorem DecGroupAt.reject (h : DecGroupAt o r n later is (m + 1) t) (hlt : is.length < 4)
    (hplain : 0 < later ∨ is.length < 2) {c : Byte} (hc : charToIndex c = none) :
    DecJobAt o r n m .invalidCharacter (effect (.data c) t) := by
  have hnext := h.toDecJobAt.data c
  rw [h.decData_eq hlt hplain, decPlain_none hc, ← (show t.out = (invalidCharacter t).out from rfl), h.out] at hnext
  exact hnext

/-- A valid one is stored; only a group's fourth does more. -/
theorem DecGroupAt.store (h : DecGroupAt o r n later is (m + 1) t) (hlt : is.length < 3)
    (hplain : 0 < later ∨ is.length < 2) {c : Byte} {i : Index} (hc : charToIndex c = some i) :
    DecGroupAt o r n later (is ++ [i]) m (effect (.data c) t) := by
  obtain ⟨hk, -⟩ := h.place (by omega)
  have hbody : decData c t = setGroup t.decSlot (i.setWidth 8) t :=
    (h.decData_eq (by omega) hplain c).trans (decPlain_store hc (by omega))
  have hnext := h.toDecJobAt.data c
  rw [hbody, setGroup_out, setGroup_status, h.out, h.err] at hnext
  refine ⟨hnext, ?stores, ?left_eq, Nat.le_of_succ_le h.left_le, h.groups⟩
  case stores =>
    rw [effect_data_dec h.is_busy h.op h.err, hbody, counted_g, setGroup_g]
    exact h.stores.snoc hk i
  case left_eq => rw [← h.left_eq, List.length_append, List.length_singleton]; omega

/-- The first characters of a group: each is stored, or one of them is invalid. -/
theorem DecGroupAt.deliver (cs : List Byte) (h : DecGroupAt o r n later is (m + cs.length) t)
    (hlen : is.length + cs.length < 4) (hplain : 0 < later ∨ is.length + cs.length < 3) :
    (∃ js, HaveIndices cs js ∧ DecGroupAt o r n later (is ++ js) m (Machine.deliver cs t)) ∨
      ((∃ c ∈ cs, charToIndex c = none) ∧ DecJobAt o r n m .invalidCharacter (Machine.deliver cs t)) := by
  induction cs generalizing is t with
  | nil => exact .inl ⟨[], .nil, by rwa [List.append_nil]⟩
  | cons c cs ih =>
    rw [List.length_cons] at hlen hplain
    have hplain₁ : 0 < later ∨ is.length < 2 := hplain.imp_right fun h => by omega
    cases hc : charToIndex c with
    | none =>
      exact .inr ⟨⟨c, List.mem_cons_self, hc⟩, (h.reject (m := m + cs.length) (by omega) hplain₁ hc).drain cs nofun⟩
    | some i =>
      have hlen₁ : (is ++ [i]).length = is.length + 1 := List.length_append
      rcases ih (h.store (m := m + cs.length) (by omega) hplain₁ hc) (by omega) (hplain.imp_right fun h => by omega) with
        ⟨js, hjs, hgroup⟩ | ⟨⟨c', hmem, hbad⟩, hjob⟩
      · exact .inl ⟨i :: js, .cons hc hjs, by simpa using hgroup⟩
      · exact .inr ⟨⟨c', List.mem_cons_of_mem _ hmem, hbad⟩, hjob⟩

/-- The fourth character of a group before the final one: what it puts out and raises is what the group decodes to. -/
theorem DecGroupAt.fourth {i0 i1 i2 : Index} (h : DecGroupAt o r n (later + 1) [i0, i1, i2] (m + 1) t)
    {c0 c1 c2 : Byte} (hcs : HaveIndices [c0, c1, c2] [i0, i1, i2]) (c3 : Byte) :
    DecJobAt (o ++ (decodeGroup [c0, c1, c2, c3]).1) r n m (decodeGroup [c0, c1, c2, c3]).2
      (effect (.data c3) t) := by
  have hlt : [i0, i1, i2].length < 4 := Nat.lt_succ_self 3
  obtain ⟨hk, hf⟩ := h.place hlt
  cases hc : charToIndex c3 with
  | none =>
    rw [decodeGroup_of_invalid ⟨c3, by simp, hc⟩, List.append_nil]
    exact h.reject hlt (.inl later.succ_pos) hc
  | some i3 =>
    have hbody : decData c3 t = emitAll (reassemble [i0, i1, i2, i3]) (setGroup 3 (i3.setWidth 8) t) := by
      rw [h.decData_eq hlt (.inl later.succ_pos), decPlain_emit hc (hf.mpr later.succ_pos) hk,
        emitGroup_four (h.stores.snoc rfl i3)]
    have hnext := h.toDecJobAt.data c3
    rw [hbody, emitAll_out, setGroup_out, emitAll_status, setGroup_status, h.out, h.err] at hnext
    have hgroup : decodeGroup [c0, c1, c2, c3] = _ := decodeGroup_of_haveIndices (hcs.snoc hc)
    rw [hgroup]
    exact hnext

/-- A group before the final one puts out what it decodes to. -/
theorem DecGroupAt.innerGroup (h : DecGroupAt o r n (later + 1) [] (m + 4) t) (c0 c1 c2 c3 : Byte) :
    DecJobAt (o ++ (decodeGroup [c0, c1, c2, c3]).1) r n m (decodeGroup [c0, c1, c2, c3]).2
      (Machine.deliver [c0, c1, c2, c3] t) := by
  change DecJobAt _ r n m _ (effect (.data c3) (Machine.deliver [c0, c1, c2] t))
  rcases h.deliver (m := m + 1) [c0, c1, c2] (by simp) (.inl later.succ_pos) with ⟨js, hjs, h3⟩ | ⟨⟨c, hmem, hbad⟩, h3⟩
  · obtain ⟨i0, i1, i2, rfl⟩ := List.length_eq_three.mp (List.Forall₂.length_eq hjs).symm
    exact h3.fourth hjs c3
  · have hmem' : c ∈ [c0, c1, c2, c3] := List.mem_append_left [c3] hmem
    rw [decodeGroup_of_invalid ⟨c, hmem', hbad⟩, List.append_nil]
    exact h3.drain [c3] nofun

/-- The character at `LEN-2` waits in `PEND`. -/
theorem DecGroupAt.third {i0 i1 : Index} (h : DecGroupAt o r n 0 [i0, i1] 2 t) (c2 : Byte) :
    DecJobAt o r n 1 .none (effect (.data c2) t) ∧ StoresIndices (effect (.data c2) t).g [i0, i1] ∧
      (effect (.data c2) t).pend = c2 := by
  obtain ⟨hk, hf⟩ := h.place (by simp)
  have hbody := decData_deferred (mt hf.mp (lt_irrefl 0)) hk c2
  have hnext := h.toDecJobAt.data c2
  have hstate : effect (.data c2) t = State.counted { t with pend := c2 } := by
    rw [effect_data_dec h.is_busy h.op h.err, hbody]
  rw [hbody, h.out, h.err] at hnext
  exact ⟨hnext, by rw [hstate]; exact h.stores, by rw [hstate]; rfl⟩

/-- Where the last character of a job of whole groups stands. -/
theorem DecJobAt.lastPlace {e : CodecError} (h : DecJobAt o r n 1 e t) (hn : n % 4 = 0) (hpos : 0 < n) :
    ¬ t.pos < t.len.toNat - 4 ∧ t.pos % 4 = 3 := by
  rw [h.toJobAt.pos, h.len]
  omega

/-- The first two characters of the final group stored and the third in `PEND`: the last one, by the five ways it can end
the group, makes the body put out and raise what `Decode` makes of the group. -/
theorem decFinal_decodes {i0 i1 : Index} (hs : StoresIndices t.g [i0, i1]) (he : t.status.err = .none) {c0 c1 : Byte}
    (hcs : HaveIndices [c0, c1] [i0, i1]) (c : Byte) :
    (decFinal c t).out = t.out ++ (radix64Decode [c0, c1, t.pend, c]).1 ∧
      (decFinal c t).status.err = (radix64Decode [c0, c1, t.pend, c]).2 := by
  apply decFinal_cases (P := fun v => v.out = t.out ++ (radix64Decode [c0, c1, t.pend, c]).1 ∧
    v.status.err = (radix64Decode [c0, c1, t.pend, c]).2) c t
  case twoPads =>
    intro hc hp
    rw [hc, hp, radix64Decode_twoPads, decodeGroup_of_haveIndices hcs, emitGroup_two hs]
    exact ⟨rfl, he⟩
  case badPend =>
    intro hpads hp
    rw [radix64Decode_of_invalid (.inr (.inr (.inl ⟨fun e => hpads e.symm, hp⟩))), List.append_nil]
    exact ⟨rfl, rfl⟩
  case onePad =>
    intro i2 hc hp
    have hgroup : decodeGroup [c0, c1, t.pend] = _ := decodeGroup_of_haveIndices (hcs.snoc hp)
    rw [hc, radix64Decode_onePad c0 c1 (ne_padChar_of_index hp), hgroup, emitGroup_three (hs.snoc rfl i2)]
    exact ⟨rfl, he⟩
  case badChar =>
    intro i2 hc hp hbad
    rw [radix64Decode_of_invalid (.inr (.inr (.inr ⟨hc, hbad⟩))), List.append_nil]
    exact ⟨rfl, rfl⟩
  case full =>
    intro i2 i3 hp hc
    have hgroup : decodeGroup [c0, c1, t.pend, c] = _ := decodeGroup_of_haveIndices ((hcs.snoc hp).snoc hc)
    have hstores : StoresIndices _ [i0, i1, i2, i3] := (hs.snoc (k := 2) rfl i2).snoc (k := 3) rfl i3
    rw [radix64Decode_noPad c0 c1 t.pend (ne_padChar_of_index hc), hgroup, emitGroup_four hstores]
    exact ⟨rfl, he⟩

/-- The final group puts out what `Decode` makes of it. -/
theorem DecGroupAt.finalGroup (h : DecGroupAt o r n 0 [] 4 t) (c0 c1 c2 c3 : Byte) :
    DecJobAt (o ++ (radix64Decode [c0, c1, c2, c3]).1) r n 0 (radix64Decode [c0, c1, c2, c3]).2
      (Machine.deliver [c0, c1, c2, c3] t) := by
  change DecJobAt _ r n 0 _ (Machine.deliver [c2, c3] (Machine.deliver [c0, c1] t))
  rcases h.deliver (m := 2) [c0, c1] (by simp) (.inr (by simp)) with ⟨js, hjs, h2⟩ | ⟨hbad, h2⟩
  · obtain ⟨i0, i1, rfl⟩ := List.length_eq_two.mp (List.Forall₂.length_eq hjs).symm
    change DecJobAt _ r n 0 _ (effect (.data c3) (effect (.data c2) (Machine.deliver [c0, c1] t)))
    obtain ⟨h3, hstores, hpend⟩ := h2.third c2
    obtain ⟨hf, hk⟩ := h3.lastPlace h.groups ((Nat.zero_lt_succ 3).trans_le h.left_le)
    obtain ⟨hout, herr⟩ := decFinal_decodes hstores h3.err hjs c3
    have hlast := h3.data c3
    rw [decData_final hf hk, hout, herr, h3.out, hpend] at hlast
    exact hlast
  · have hinv : charToIndex c0 = none ∨ charToIndex c1 = none := by simpa using hbad
    rw [radix64Decode_of_invalid (hinv.imp_right .inl), List.append_nil]
    exact h2.drain [c2, c3] nofun

end OneGroup

/-! ### A whole decode job (R94) -/

/-- A job with no error and the text of `later + 1` groups to come puts out what `Decode` makes of them. -/
theorem DecJobAt.deliver_text {r : Word24} {n : Nat} (later : Nat) {o txt : List Byte} {t : State}
    (h : DecJobAt o r n txt.length .none t) (hlen : txt.length = 4 * (later + 1)) (hle : txt.length ≤ n)
    (hn : n % 4 = 0) :
    DecJobAt (o ++ (radix64Decode txt).1) r n 0 (radix64Decode txt).2 (deliver txt t) := by
  induction later generalizing o txt t with
  | zero =>
    match txt, hlen with
    | [c0, c1, c2, c3], _ => exact (h.beginGroup rfl hle hn).finalGroup c0 c1 c2 c3
  | succ later ih =>
    match txt, hlen with
    | c0 :: c1 :: c2 :: c3 :: rest, hlen =>
      have hrest : rest.length = 4 * (later + 1) := by simpa [Nat.mul_succ] using hlen
      have hne : rest ≠ [] := List.ne_nil_of_length_pos (by omega)
      have hdecode : radix64Decode (c0 :: c1 :: c2 :: c3 :: rest) =
          decodeThen (decodeGroup [c0, c1, c2, c3]) (radix64Decode rest) := by
        have hfour : [c0, c1, c2, c3].length = 4 := rfl
        rw [← decodeGroups_of_length_le hfour.le]
        exact radix64Decode_append (hfour ▸ Nat.mod_self 4) hne (by omega)
      have hgroup := (h.beginGroup hlen hle hn).innerGroup (m := rest.length) c0 c1 c2 c3
      change DecJobAt _ r n 0 _ (deliver rest (deliver [c0, c1, c2, c3] t))
      rw [hdecode]
      by_cases he : (decodeGroup [c0, c1, c2, c3]).2 = .none
      · rw [he] at hgroup
        rw [decodeThen, if_pos he, ← List.append_assoc]
        exact ih hgroup hrest (by simp only [List.length_cons] at hle; omega)
      · rw [decodeThen_error he]
        exact DecJobAt.drain (m := 0) rest (by rwa [Nat.zero_add]) he

/-- A whole decode job, of any text. -/
theorem decJobAt_deliver (s : State) {txt : List Byte} (hlt : txt.length < 2 ^ 24) :
    DecJobAt (s.out ++ (radix64Decode txt).1) s.result txt.length 0 (radix64Decode txt).2
      (deliver txt (startDec (BitVec.ofNat 24 txt.length) s)) := by
  have hstart := decJobAt_startDec (BitVec.ofNat 24 txt.length) s
  rw [BitVec.toNat_ofNat, Nat.mod_eq_of_lt hlt] at hstart
  by_cases hm : txt.length % 4 = 0
  · rw [if_neg (not_not.mpr hm)] at hstart
    cases hk : txt.length / 4 with
    | zero =>
      obtain rfl : txt = [] := List.eq_nil_of_length_eq_zero (by omega)
      rw [radix64Decode_nil, List.append_nil]
      exact hstart
    | succ later => exact hstart.deliver_text later (by omega) le_rfl hm
  · rw [if_pos hm] at hstart
    rw [radix64Decode_of_badLength hm, List.append_nil]
    exact DecJobAt.drain (m := 0) txt (by rwa [Nat.zero_add]) nofun

/-- Settles O47: the run's `STATUS` is that of a completed job. -/
theorem decJobProducesDecode : Obligations.DecJobProducesDecode := by
  intro s txt rest h0 hk hb hlt hi
  rw [← List.append_nil txt] at hi
  have hrun := runSteps_job h0 hk hi
  rw [List.append_nil] at hrun
  rw [effect_dec_idle hb] at hrun
  have hjob := (decJobAt_deliver s hlt).withInputs (dataWrites s.platform [] ++ rest)
  have hstatus := hjob.toJobAt.status_completed
  rw [hjob.err] at hstatus
  refine ⟨_, hrun, hjob.out, hstatus, ?_, ?_, ?_, BitVec.eq_of_toNat_eq hjob.remain, hjob.result, rfl, ?_⟩
  · intro he; rw [hstatus, he]; rfl
  · intro he; rw [hstatus, he]; rfl
  · intro he; rw [hstatus, he]; rfl
  · obtain ⟨hheld, -, -⟩ := effect_outside (.dec (BitVec.ofNat 24 txt.length)) s
    rw [deliver_held, ← effect_dec_idle hb, hheld, h0]

end Sys2Proof.Machine
end

section
/-! PROOFS. The function `Crc24` (43_crc24.md, section 1): the rounds by arithmetic, and that no two registers below bit
24 meet in a round, so none do over a byte or a sequence. -/

namespace Sys2Proof.Machine

/-! ### The rounds and the value by arithmetic (R95, R96) -/

theorem shiftLeft_one_eq_ofNat (a : Word) : a <<< 1 = BitVec.ofNat 32 (2 * a.toNat) := by
  apply BitVec.eq_of_toNat_eq
  rw [BitVec.toNat_shiftLeft, Nat.shiftLeft_eq, BitVec.toNat_ofNat, Nat.mul_comm, Nat.pow_one]

/-- Bit 24 of the doubled register, which its reduction modulo 2^32 does not touch. -/
theorem getLsbD_double_24 (v : Nat) : (BitVec.ofNat 32 v).getLsbD 24 = decide (v / 2 ^ 24 % 2 = 1) := by
  rw [BitVec.getLsbD_ofNat, Nat.testBit_eq_decide_div_mod_eq]
  rfl

theorem crcRound_eq (a : Word) :
    crcRound a = if 2 * a.toNat / 2 ^ 24 % 2 = 1 then BitVec.ofNat 32 (2 * a.toNat) ^^^ crcGenerator
      else BitVec.ofNat 32 (2 * a.toNat) := by
  simp only [crcRound, shiftLeft_one_eq_ofNat, getLsbD_double_24, decide_eq_true_eq]

theorem crcRounds_eq_iterate (n : Nat) : crcRounds n = crcRound^[n] := by
  induction n with
  | zero => rfl
  | succ n ih => funext a; rw [crcRounds, ih, Function.iterate_succ_apply]

/-- Where a byte enters the register. -/
theorem byte_shiftLeft_eq_ofNat (x : Byte) : x.setWidth 32 <<< 16 = BitVec.ofNat 32 (x.toNat * 2 ^ 16) := by
  apply BitVec.eq_of_toNat_eq
  rw [BitVec.toNat_shiftLeft, Nat.shiftLeft_eq, BitVec.toNat_setWidth_of_le (by decide), BitVec.toNat_ofNat]

theorem crcValue_eq_ofNat (a : Word) : crcValue a = BitVec.ofNat 24 a.toNat := rfl

/-- Settles O59: the model's eight rounds are the round iterated, and the round is R96's on numbers. -/
theorem crcByteXorsTheByteAndRunsEightRounds : Obligations.CrcByteXorsTheByteAndRunsEightRounds := by
  refine ⟨fun acc x => ?_, fun b => ?_⟩
  · rw [crcByte, crcRounds_eq_iterate, byte_shiftLeft_eq_ofNat, funext crcRound_eq]
    rfl
  · rw [crc24, crcValue_eq_ofNat, BitVec.toNat_ofNat]
    rfl

/-- Settles O42 by the bounds that the invariant of the core rests on. -/
theorem crcRegisterStaysBelowBit24 : Obligations.CrcRegisterStaysBelowBit24 :=
  ⟨crcInit_lt, fun _ => crcRound_lt, fun _ x => crcByte_lt x, fun _ => crcValue_toNat⟩

/-- The register over the bytes of "123456789" (CV-2). -/
theorem crcByte_digits :
    crcByte crcInit 0x31#8 = 0x2EBA48#32 ∧ crcByte 0x2EBA48#32 0x32#8 = 0x4D6151#32 ∧
      crcByte 0x4D6151#32 0x33#8 = 0x09DF67#32 ∧ crcByte 0x09DF67#32 0x34#8 = 0xA2D343#32 ∧
      crcByte 0xA2D343#32 0x35#8 = 0xBA353A#32 ∧ crcByte 0xBA353A#32 0x36#8 = 0x341A7C#32 ∧
      crcByte 0x341A7C#32 0x37#8 = 0x16E5F6#32 ∧ crcByte 0x16E5F6#32 0x38#8 = 0x51953C#32 ∧
      crcByte 0x51953C#32 0x39#8 = 0x21CF02#32 := by decide

/-- Settles O43: closed values, the longer vector byte by byte. -/
theorem crcOfTheEmptySequence : Obligations.CrcOfTheEmptySequence := by
  refine ⟨rfl, by decide, ?_⟩
  simp only [crc24, List.foldl_cons, List.foldl_nil, crcByte_digits]
  rfl

/-! ### No two registers meet (R97, R100) -/

/-- The values the register can hold between rounds (R97). -/
def crcRegisters : Set Word := { a | a.toNat < 2 ^ 24 }

theorem crcRound_eq_xor (a : Word) : crcRound a = a <<< 1 ^^^ if a.getLsbD 23 then crcGenerator else 0#32 := by
  have hbit : (a <<< 1).getLsbD 24 = a.getLsbD 23 := by simp
  unfold crcRound
  dsimp only
  rw [hbit]
  split
  · rfl
  · rw [BitVec.xor_zero]

/-- A round moves the register's top bit to the bottom: the shift clears bit 0, and the generator has bit 0 set. -/
theorem getLsbD_crcRound_zero (a : Word) : (crcRound a).getLsbD 0 = a.getLsbD 23 := by
  have hshift : (a <<< 1).getLsbD 0 = false := by simp
  rw [crcRound_eq_xor, BitVec.getLsbD_xor, hshift, Bool.false_xor]
  cases a.getLsbD 23 <;> rfl

/-- So a round's result says whether the generator was subtracted, and the round can be undone. -/
theorem injOn_crcRound : Set.InjOn crcRound crcRegisters := by
  intro a ha b hb h
  have hbit : a.getLsbD 23 = b.getLsbD 23 := by rw [← getLsbD_crcRound_zero, h, getLsbD_crcRound_zero]
  rw [crcRound_eq_xor, crcRound_eq_xor, hbit, BitVec.xor_left_inj] at h
  have hdouble := congrArg BitVec.toNat h
  simp only [shiftLeft_one_eq_ofNat, BitVec.toNat_ofNat] at hdouble
  have ha : a.toNat < 2 ^ 24 := ha
  have hb : b.toNat < 2 ^ 24 := hb
  exact BitVec.eq_of_toNat_eq (by omega)

theorem injOn_crcRounds (n : Nat) : Set.InjOn (crcRounds n) crcRegisters := by
  rw [crcRounds_eq_iterate]
  exact injOn_crcRound.iterate (fun _ => crcRound_lt) n

/-- The register with a byte xored in. -/
theorem xor_byte_lt {a : Word} (h : a.toNat < 2 ^ 24) (x : Byte) : (a ^^^ x.setWidth 32 <<< 16).toNat < 2 ^ 24 := by
  have hx := x.isLt
  rw [BitVec.toNat_xor, byte_shiftLeft_eq_ofNat, BitVec.toNat_ofNat]
  exact Nat.xor_lt_two_pow h (by omega)

/-- A byte that comes after a difference keeps it. -/
theorem injOn_crcByte (x : Byte) : Set.InjOn (fun a => crcByte a x) crcRegisters := by
  intro a ha b hb h
  exact (BitVec.xor_left_inj _).mp (injOn_crcRounds 8 (xor_byte_lt ha x) (xor_byte_lt hb x) h)

/-- Two bytes that enter the same register differ in what they leave. -/
theorem injective_crcByte {a : Word} (ha : a ∈ crcRegisters) : Function.Injective (crcByte a) := by
  intro x y h
  have hxor := (BitVec.xor_right_inj _).mp (injOn_crcRounds 8 (xor_byte_lt ha x) (xor_byte_lt ha y) h)
  have hval := congrArg BitVec.toNat hxor
  have hx := x.isLt
  have hy := y.isLt
  simp only [byte_shiftLeft_eq_ofNat, BitVec.toNat_ofNat] at hval
  exact BitVec.eq_of_toNat_eq (by omega)

theorem foldl_crcByte_mem {a : Word} (ha : a ∈ crcRegisters) (bs : List Byte) :
    bs.foldl crcByte a ∈ crcRegisters := by
  induction bs generalizing a with
  | nil => exact ha
  | cons b bs ih => exact ih (crcByte_lt b ha)

theorem injOn_foldl_crcByte (bs : List Byte) : Set.InjOn (fun a => bs.foldl crcByte a) crcRegisters := by
  induction bs with
  | nil => exact Set.injOn_id _
  | cons b bs ih => exact ih.comp (injOn_crcByte b) fun _ => crcByte_lt b

theorem injOn_crcValue : Set.InjOn crcValue crcRegisters := by
  intro a ha b hb h
  rw [← BitVec.toNat_inj, ← crcValue_toNat ha, ← crcValue_toNat hb, h]

/-- Settles O44: the bytes before leave one register, the two bytes make two of it, and what comes after keeps them
apart. -/
theorem changingOneByteChangesTheChecksum : Obligations.ChangingOneByteChangesTheChecksum := by
  intro pre post x y hne h
  have hpre := foldl_crcByte_mem crcInit_lt pre
  simp only [crc24, List.foldl_append, List.foldl_cons] at h
  have hx := crcByte_lt x hpre
  have hy := crcByte_lt y hpre
  have hfold := injOn_crcValue (foldl_crcByte_mem hx post) (foldl_crcByte_mem hy post) h
  exact hne (injective_crcByte hpre (injOn_foldl_crcByte post hx hy hfold))

end Sys2Proof.Machine
end

section
/-! PROOFS. CRC and DATA in a checksum job (43_crc24.md, section 2), and what a whole job leaves: `Crc24` of its bytes,
whatever the sink is ready to take, since no word of the job emits. -/

namespace Sys2Proof.Machine

/-! ### CRC (R101) -/

theorem startCrc_eq (n : Word24) (s : State) :
    startCrc n s = { s with
      status := { busy := decide (n ≠ 0#24), done := decide (n = 0#24), op := .crc, err := .none, cmderr := false }
      len := n, remain := n, acc := crcInit
      result := if n = 0#24 then crcValue crcInit else s.result } := by
  by_cases h : n = 0#24
  · subst h; rfl
  · simp [startCrc, startCommon, h]

theorem startCrc_status (n : Word24) (s : State) :
    (startCrc n s).status =
      { busy := decide (n ≠ 0#24), done := decide (n = 0#24), op := .crc, err := .none, cmderr := false } := by
  rw [startCrc_eq]

theorem effect_crc_idle {s : State} (hb : s.status.busy = false) (n : Word24) : effect (.crc n) s = startCrc n s :=
  if_neg (Bool.eq_false_iff.mp hb)

theorem effect_crc_busy {s : State} (hb : s.status.busy = true) (n : Word24) : effect (.crc n) s = rejectCommand s :=
  if_pos hb

/-- Settles O20: an accepted CRC is `startCrc`; the rejections set `CMDERR` alone. -/
theorem crcStartsAChecksumJob : Obligations.CrcStartsAChecksumJob := by
  refine ⟨fun _ => rfl, fun w s ho hr => onWriteCmd_reserved (decode_startBits (.inr (.inr ho)) hr) s,
    fun n s hb => ?_, fun n s t hb ht => ?_, fun n s hb => ?_⟩
  · rw [exec_eq, effect_crc_idle hb, startCrc_eq]
    rfl
  · rw [exec_eq, effect_crc_idle hb, Host.Outcome.next.injEq] at ht
    rw [← ht, startCrc_status]
    by_cases h : n = 0#24
    · subst h; rfl
    · rw [if_neg h, decide_eq_true h, decide_eq_false h]; rfl
  · rw [exec_eq, effect_crc_busy hb]
    rfl

/-! ### DATA in a checksum job (R102) -/

theorem effect_data_crc {s : State} (hb : s.status.busy = true) (ho : s.status.op = .crc) (he : s.status.err = .none)
    (b : Byte) : effect (.data b) s = (crcData b s).counted := by rw [effect_data hb, dataBody_crc he ho]

/-- What the body leaves in `RESULT`. -/
theorem crcData_result (b : Byte) (s : State) :
    (crcData b s).result = if s.remain = 1#24 then crcValue (crcByte s.acc b) else s.result := by
  by_cases h : s.remain = 1#24
  · rw [crcData_of_last h, if_pos h]
  · rw [crcData_of_not_last h, if_neg h]

/-- Settles O26: the body by whether the byte is the job's last. -/
theorem dataInAChecksumJob : Obligations.DataInAChecksumJob := by
  intro b s hb ho he
  rw [exec_eq, effect_data_crc hb ho he]
  by_cases h : s.remain = 1#24
  · rw [crcData_of_last h, if_pos h, crcValue_eq_ofNat]
  · rw [crcData_of_not_last h, if_neg h]

/-! ### A word that emits nothing, with any sink -/

theorem emission_of_isStartWord {w : Word} (hw : isStartWord (decode w) = true) (s : State) : emission w s = [] := by
  rcases emission_cases w s with h | ⟨b, hd, -, -⟩
  · exact h
  · rw [hd] at hw; cases hw

theorem emission_encode_crc (n : Word24) (s : State) : emission (encode (.crc n)) s = [] :=
  emission_of_isStartWord (by rw [decode_encode]; rfl) s

/-- With nothing held, an instruction that emits nothing has its effect at once: the sink is not asked (R48). -/
theorem step_write_silent {s : State} {i : Instr} {is : List Input} (h0 : s.held = none)
    (hn : emission (encode i) s = []) (hi : s.inputs = cmdWrite s.platform (encode i) :: is) :
    step s = .next { effect i s with inputs := is } := by
  obtain ⟨hheld, hsink, -⟩ := effect_outside i s
  have hs : s.sink.untaken (emission (encode i) s) = [] := by rw [hn, SinkReady.untaken_nil]
  rw [step_of_stepNext (.write _ is h0 hi hs), wordEffect_encode, hn, SinkReady.after_nil, ← hsink, ← h0, ← hheld]

/-! ### A whole checksum job (R103) -/

/-- A checksum job of `n` bytes with `left` of them to come, begun with `OUT = o`: `ACC` has taken the bytes that came,
and once all have come `RESULT` has their checksum. -/
structure CrcJobAt (o : List Byte) (n : Nat) (came : List Byte) (left : Nat) (t : State) : Prop
    extends JobAt .crc n left t where
  err : t.status.err = .none
  acc : t.acc = came.foldl crcByte crcInit
  result : left = 0 → t.result = crc24 came
  out : t.out = o

/-- An accepted CRC begins such a job, with no byte come. -/
theorem crcJobAt_startCrc (n : Word24) (s : State) : CrcJobAt s.out n.toNat [] n.toNat (startCrc n s) where
  toJobAt := (started_startCrc n s).jobAt
  err := startCrc_err n s
  acc := startCrc_acc n s
  result h := by rw [startCrc_result, if_pos (toNat_eq_zero_iff.mp h)]; rfl
  out := startCrc_out n s

/-- The job's clauses do not speak of the inputs. -/
theorem CrcJobAt.withInputs {o came : List Byte} {n left : Nat} {t : State} (h : CrcJobAt o n came left t)
    (is : List Input) : CrcJobAt o n came left { t with inputs := is } := { h with }

/-- One more byte. -/
theorem CrcJobAt.data {o came : List Byte} {n m : Nat} {t : State} (h : CrcJobAt o n came (m + 1) t) (b : Byte) :
    CrcJobAt o n (came ++ [b]) m (effect (.data b) t) := by
  have hjob := h.toJobAt.data b
  rw [effect_data_crc h.is_busy h.op h.err] at hjob ⊢
  have hacc : crcByte t.acc b = (came ++ [b]).foldl crcByte crcInit := by
    rw [h.acc, List.foldl_append, List.foldl_cons, List.foldl_nil]
  refine ⟨hjob, ?err, ?acc, fun hm => ?result, ?out⟩
  case err => rw [counted_err, crcData_status, h.err]
  case acc => rw [counted_acc, crcData_acc, hacc]
  case result => rw [counted_result, crcData_result, if_pos (h.remain_eq_one_iff.mpr hm), hacc, crc24]
  case out => rw [counted_out, crcData_out, h.out]

/-- The run over the rest of a job's bytes, one step a byte. -/
theorem CrcJobAt.runSteps_dataWrites {o : List Byte} {n : Nat} {rest : List Input} (xs : List Byte) {came : List Byte}
    {t : State} (h : CrcJobAt o n came xs.length t) (h0 : t.held = none)
    (hi : t.inputs = dataWrites t.platform xs ++ rest) :
    ∃ u, runSteps xs.length t = .next u ∧ CrcJobAt o n (came ++ xs) 0 u ∧ u.inputs = rest ∧ u.held = none := by
  induction xs generalizing came t with
  | nil => exact ⟨t, rfl, by rwa [List.append_nil], hi, h0⟩
  | cons x xs ih =>
    obtain ⟨hheld, -, hplat⟩ := effect_outside (.data x) t
    have hstep := step_write_silent h0 (emission_eq_nil (.inl h.op)) hi
    obtain ⟨u, hrun, hjob, hin, hu⟩ :=
      ih ((h.data x).withInputs (dataWrites t.platform xs ++ rest)) (hheld.trans h0) (by rw [hplat])
    rw [List.append_assoc] at hjob
    exact ⟨u, (runSteps_succ _ hstep).trans hrun, hjob, hin, hu⟩

/-- Settles O48: the start word begins the job, its bytes take it to the end, and `STATUS` is a completed job's. -/
theorem crcJobProducesCrc24 : Obligations.CrcJobProducesCrc24 := by
  intro s b rest h0 hb hlt hi
  obtain ⟨hheld, -, hplat⟩ := effect_outside (.crc (BitVec.ofNat 24 b.length)) s
  have hstart := crcJobAt_startCrc (BitVec.ofNat 24 b.length) s
  rw [BitVec.toNat_ofNat, Nat.mod_eq_of_lt hlt, ← effect_crc_idle hb] at hstart
  have hstep := step_write_silent h0 (emission_encode_crc _ s) hi
  obtain ⟨t, hrun, hjob, hin, ht⟩ :=
    (hstart.withInputs (dataWrites s.platform b ++ rest)).runSteps_dataWrites b (hheld.trans h0) (by rw [hplat])
  have hresult : t.result = crc24 b := hjob.result rfl
  have hword : t.status.word = 0x0E#32 := by rw [hjob.toJobAt.status_completed, hjob.err]; rfl
  refine ⟨t, (runSteps_succ _ hstep).trans hrun, hresult, ?_, hword,
    BitVec.eq_of_toNat_eq hjob.remain, hjob.out, hin, ht⟩
  rw [← hresult, BitVec.ofNat_toNat]
  rfl

end Sys2Proof.Machine
end

section
/-! PROOFS. Command words and the host port between them (44_command_control.md): the one stuck condition, what a read
returns, which words are rejected, what a DATA word leaves alone, and the step as the word's own effect. -/

namespace Sys2Proof.Machine

/-! ### Every instruction and every word completes (R105, R114) -/

/-- Settles O17: `exec` and `onWriteCmd` answer the next states `effect` and `wordEffect`. -/
theorem everyInstructionCompletes : Obligations.EveryInstructionCompletes :=
  ⟨fun i s => ⟨effect i s, exec_eq i s⟩, fun w s => ⟨wordEffect w s, onWriteCmd_eq w s⟩⟩

/-- Settles O16: they are two of the ways a step can go on. -/
theorem nothingHappensBetweenAccesses : Obligations.NothingHappensBetweenAccesses :=
  ⟨fun _ h0 hi => step_of_stepNext (.idle h0 hi), fun _ r rest h0 hi => step_of_stepNext (.sink r rest h0 hi)⟩

/-! ### The step as the written word's own effect (R47, R105) -/

/-- A `CMD` write whose elements the sink takes at once: the word's effect, with only the sink's readiness moved on. -/
theorem step_write_taken {s : State} {w : Word} {rest : List Input} (h0 : s.held = none)
    (hi : s.inputs = cmdWrite s.platform w :: rest) (hs : s.sink.untaken (emission w s) = []) :
    step s = .next { wordEffect w { s with inputs := rest } with sink := s.sink.after (emission w s) } := by
  obtain ⟨hheld, -, -, -, -, -⟩ := wordEffect_outside w s
  rw [step_of_stepNext (.write w rest h0 hi hs), wordEffect_inputs w s rest, ← h0, ← hheld]

/-- The same, of the state the word answers; what the word emits is what it appends to `OUT`. -/
theorem step_write_of_onWriteCmd {s t : State} {w : Word} {rest : List Input} (h0 : s.held = none)
    (hi : s.inputs = cmdWrite s.platform w :: rest) (ht : onWriteCmd w { s with inputs := rest } = .next t)
    (hs : s.sink.untaken (t.out.drop s.out.length) = []) :
    step s = .next { t with sink := s.sink.after (t.out.drop s.out.length) } := by
  rw [onWriteCmd_eq, Host.Outcome.next.injEq] at ht
  subst ht
  have hes : (wordEffect w { s with inputs := rest }).out.drop s.out.length = emission w s := by
    rw [wordEffect_inputs, ← emission_eq_drop]
  rw [hes] at hs ⊢
  exact step_write_taken h0 hi hs

/-- With a sink that is always ready a `CMD` write is the word's own effect. -/
theorem step_write_alwaysReady {s : State} {w : Word} {rest : List Input} (h0 : s.held = none)
    (hi : s.inputs = cmdWrite s.platform w :: rest) (hk : s.sink = .always) :
    step s = onWriteCmd w { s with inputs := rest } := by
  obtain ⟨-, hsink, -, -, -, -⟩ := wordEffect_outside w { s with inputs := rest }
  have hafter : s.sink.after (emission w s) = (wordEffect w { s with inputs := rest }).sink := by
    rw [hsink, hk, SinkReady.after_always]
  rw [step_write_taken h0 hi (by rw [hk, SinkReady.untaken_always]), hafter, onWriteCmd_eq]

theorem onWriteCmd_instr {w : Word} {i : Instr} (h : decode w = .instr i) (s : State) : onWriteCmd w s = exec i s := by
  rw [onWriteCmd_eq, wordEffect_instr h, exec_eq]

theorem wordEffect_reserved {w : Word} {why : Reserved} (h : decode w = .reserved why) (s : State) :
    wordEffect w s = rejectCommand s := by simp only [wordEffect, h]

theorem emission_reserved {w : Word} {why : Reserved} (h : decode w = .reserved why) (s : State) :
    emission w s = [] := by
  rw [emission_eq_drop, wordEffect_reserved h, rejectCommand_out, List.drop_length]

/-- A Reserved word emits nothing, so the sink is not asked: it is rejected at once (R62, R110). -/
theorem step_write_reserved {s : State} {w : Word} {why : Reserved} {rest : List Input} (h0 : s.held = none)
    (hi : s.inputs = cmdWrite s.platform w :: rest) (hd : decode w = .reserved why) :
    step s = .next (rejectCommand { s with inputs := rest }) := by
  have hn := emission_reserved hd s
  rw [step_write_taken h0 hi (by rw [hn, SinkReady.untaken_nil]), hn, SinkReady.after_nil, wordEffect_reserved hd]
  rfl

/-- Settles O8: a word the sink does not delay acts in one step, and a word that decodes to `i` acts as `i`. -/
theorem stepRunsTheDecodedInstruction : Obligations.StepRunsTheDecodedInstruction := by
  refine ⟨fun s t w rest h0 hi ht hs => step_write_of_onWriteCmd h0 hi ht hs,
    fun s w rest h0 hi hk => step_write_alwaysReady h0 hi hk, fun s t w i rest h0 hi hd ht hs => ?_,
    fun s w i rest h0 hi hd hk => ?_, fun s w why rest h0 hi hd => step_write_reserved h0 hi hd⟩
  · exact step_write_of_onWriteCmd h0 hi ((onWriteCmd_instr hd _).trans ht) hs
  · rw [step_write_alwaysReady h0 hi hk, onWriteCmd_instr hd]

/-! ### The one stuck condition (R48, R104) -/

/-- An offer is taken or held, never a fault. -/
theorem offer_ne_fault (w : Word) (es : List Byte) (s : State) (r : Fault) : offer w es s ≠ .fault r := by
  by_cases hs : s.sink.untaken es = []
  · rw [offer_taken hs]; nofun
  · rw [offer_held hs]; nofun

theorem writeReg_ne_fault (q : Reg) (v : Word) (s : State) (r : Fault) : writeReg q v s ≠ .fault r := by
  by_cases hq : q = .cmd
  · subst hq; exact offer_ne_fault v _ s r
  · rw [writeReg_readOnly hq]; nofun

/-- No access faults: it is served, or refused as not admitted. -/
theorem respond_ne_fault (a : Access) (s : State) (r : Fault) : respond a s ≠ .fault r := by
  cases a with
  | read addr size =>
    simp only [respond]
    cases admission s.platform addr size <;> nofun
  | write addr size v =>
    simp only [respond]
    cases admission s.platform addr size with
    | error e => nofun
    | ok q => exact writeReg_ne_fault q v s r

theorem stepFree_ne_fault (s : State) (r : Fault) : stepFree s ≠ .fault r := by
  unfold stepFree
  split
  · nofun
  · exact respond_ne_fault _ _ r
  · nofun
  · nofun

theorem stepHeld_fault_iff (h : HeldWrite) (s : State) (r : Fault) :
    stepHeld h s = .fault r ↔ r = .sinkHold ∧ (s.inputs = [] ∨ ∃ a rest, s.inputs = .access a :: rest) := by
  cases r
  cases hi : s.inputs with
  | nil => simp [stepHeld, hi]
  | cons i rest =>
    cases i with
    | access a => simp [stepHeld, hi]
    | reset => simp [stepHeld, hi]
    | sinkReady k => simp [stepHeld, hi, offer_ne_fault]

/-- Settles O11: with no write held no step faults, and with one it does where neither reset nor the sink comes
next. -/
theorem holdIsTheOnlyStuckCondition : Obligations.HoldIsTheOnlyStuckCondition := by
  intro s r
  cases h0 : s.held with
  | none => simp [step_free h0, stepFree_ne_fault]
  | some h => simp [step_held h0, stepHeld_fault_iff]

/-! ### Reads (R19, R111, R115) -/

/-- The value of `STATUS`, each field at its place (R19). -/
theorem status_word_eq (st : Status) :
    st.word = BitVec.ofNat 32 (st.busy.toNat + 2 * st.done.toNat + 4 * st.op.code.toNat + 16 * st.err.code.toNat
      + 64 * st.cmderr.toNat) := by
  rw [Status.word, ← BitVec.ofNat_toNat]
  simp only [toNat_append_eq_add, BitVec.toNat_ofBool]
  exact congrArg (BitVec.ofNat 32) (by ring)

/-- Settles O13: a read is one of the ways a step can go on, and answers the register's value. -/
theorem readsReturnTheRegisterAndChangeNothing : Obligations.ReadsReturnTheRegisterAndChangeNothing := by
  refine ⟨⟨rfl, rfl, rfl, rfl⟩, ⟨rfl, rfl, rfl⟩, fun s rest h0 =>
    ⟨fun hi => ?_, fun hi => ?_, fun hi => ?_, fun hi => ?_⟩⟩
  · exact step_of_stepNext (.read .cmd rest h0 hi)
  · rw [← status_word_eq]
    exact step_of_stepNext (.read .status rest h0 hi)
  · rw [BitVec.ofNat_toNat]
    exact step_of_stepNext (.read .result rest h0 hi)
  · rw [BitVec.ofNat_toNat]
    exact step_of_stepNext (.read .remain rest h0 hi)

/-! ### Rejection (R110) -/

/-- A word that meets one of R110's three cases is rejected. -/
theorem wordEffect_of_rejects {w : Word} {s : State} (h : Rejects w s) : wordEffect w s = rejectCommand s := by
  have hn := wordNext w s
  generalize wordEffect w s = t at hn ⊢
  cases hn with
  | rejected => rfl
  | enc n hw hb | dec n hw hb | crc n hw hb | data b hw hb => simp [Rejects, hw, hb, isStartWord] at h

/-- An accepted start command clears `CMDERR` (R106). -/
theorem wordEffect_cmderr_of_start {w : Word} {s : State} (hw : isStartWord (decode w) = true)
    (hb : s.status.busy = false) : (wordEffect w s).status.cmderr = false := by
  have hk := wordKind w s
  generalize wordEffect w s = t at hk ⊢
  cases hk with
  | rejected hr =>
    rcases hr with ⟨why, hd⟩ | ⟨-, hb'⟩ | ⟨⟨b, hd⟩, -⟩
    · rw [hd] at hw; cases hw
    · rw [hb] at hb'; cases hb'
    · rw [hd] at hw; cases hw
  | starts op n _ _ _ ht => exact ht.cmderr
  | data b _ hb' => rw [hb] at hb'; cases hb'

/-- An accepted DATA word leaves `CMDERR` (R108). -/
theorem wordEffect_cmderr_of_data {w : Word} {b : Byte} {s : State} (hd : decode w = .instr (.data b))
    (hb : s.status.busy = true) : (wordEffect w s).status.cmderr = s.status.cmderr := by
  rw [wordEffect_instr hd, effect_data hb, counted_cmderr, dataBody_cmderr]

/-- Settles O21: a word in one of the three cases has the effect `rejectCommand`; of the others a start command clears
`CMDERR` and a DATA word keeps it. -/
theorem rejectionInExactlyThreeCases : Obligations.RejectionInExactlyThreeCases := by
  refine ⟨fun w s h => ?_, fun w s t ht => ?_⟩
  · rw [onWriteCmd_eq, wordEffect_of_rejects h]
    rfl
  · rw [onWriteCmd_eq, Host.Outcome.next.injEq] at ht
    subst ht
    exact ⟨fun ⟨hw, hb⟩ => wordEffect_cmderr_of_start hw hb,
      fun ⟨⟨_, hd⟩, hb⟩ => wordEffect_cmderr_of_data hd hb⟩

/-! ### DATA in a draining job (R109) -/

theorem counted_of_last {s : State} (h : s.remain = 1#24) :
    s.counted = { s with remain := 0#24, status := { s.status with busy := false, done := true } } := by
  simp [State.counted, h]

theorem counted_of_not_last {s : State} (h : s.remain ≠ 1#24) : s.counted = { s with remain := s.remain - 1#24 } := by
  simp [State.counted, h]

/-- Settles O27: the body does nothing, and what is left is the count. -/
theorem drainingJobsOnlyCount : Obligations.DrainingJobsOnlyCount := by
  intro b s hb he
  rw [exec_eq, effect_data hb, dataBody_drain he]
  exact ⟨fun h => by rw [counted_of_not_last h], fun h => by rw [counted_of_last h]⟩

/-! ### DATA's frame (R80, R93, R102, R108) -/

theorem encData_pend (b : Byte) (s : State) : (encData b s).pend = s.pend := by
  obtain ⟨_, h, -⟩ := encData_form b s; rw [h]; rfl

theorem encData_acc (b : Byte) (s : State) : (encData b s).acc = s.acc := by
  obtain ⟨_, h, -⟩ := encData_form b s; rw [h]; rfl

/-- An encode group holds three bytes. -/
theorem encSlot_ne_three (s : State) : s.encSlot ≠ 3 := fun h => by
  have hval : s.pos % 3 = 3 := congrArg Fin.val h
  omega

/-- So `G[3]` is not written. -/
theorem encData_g3 (b : Byte) (s : State) : (encData b s).g.g3 = s.g.g3 := by
  rw [encData_g]
  exact GroupBuffer.get_set_other s.g 3 s.encSlot b (encSlot_ne_three s).symm

theorem decPlain_acc (c : Byte) (s : State) : (decPlain c s).acc = s.acc := by
  cases hc : charToIndex c with
  | none => rw [decPlain_none hc]; rfl
  | some r => rw [decPlain_some hc]; split <;> rfl

theorem decFinal_acc (c : Byte) (s : State) : (decFinal c s).acc = s.acc := by
  apply decFinal_cases (P := fun t => t.acc = s.acc) c s
  all_goals intros; rfl

theorem decData_acc (c : Byte) (s : State) : (decData c s).acc = s.acc := by
  rcases decPlace_cases s with h | ⟨hf, hk⟩ | ⟨hf, hk⟩
  · rw [decData_plain h]; exact decPlain_acc c s
  · rw [decData_deferred hf hk]
  · rw [decData_final hf hk]; exact decFinal_acc c s

theorem crcData_eq (b : Byte) (s : State) :
    crcData b s = { s with
      acc := crcByte s.acc b
      result := if s.remain = 1#24 then crcValue (crcByte s.acc b) else s.result } := by
  by_cases h : s.remain = 1#24
  · rw [crcData_of_last h, if_pos h]
  · rw [crcData_of_not_last h, if_neg h]

theorem crcData_g (b : Byte) (s : State) : (crcData b s).g = s.g := by rw [crcData_eq]

theorem crcData_pend (b : Byte) (s : State) : (crcData b s).pend = s.pend := by rw [crcData_eq]

section JobFrames
variable {b : Byte} {s : State}

/-- What the body leaves alone in an encode job, with or without error (R80, R109). -/
theorem dataBody_enc_frame (ho : s.status.op = .enc) :
    (dataBody b s).status.err = s.status.err ∧ (dataBody b s).pend = s.pend ∧ (dataBody b s).acc = s.acc ∧
      (dataBody b s).result = s.result ∧ (dataBody b s).g.g3 = s.g.g3 := by
  by_cases he : s.status.err = .none
  · rw [dataBody_enc he ho, encData_status]
    exact ⟨rfl, encData_pend b s, encData_acc b s, encData_result b s, encData_g3 b s⟩
  · rw [dataBody_drain he]
    exact ⟨rfl, rfl, rfl, rfl, rfl⟩

/-- In a decode job (R93, R109). -/
theorem dataBody_dec_frame (ho : s.status.op = .dec) :
    (dataBody b s).acc = s.acc ∧ (dataBody b s).result = s.result := by
  by_cases he : s.status.err = .none
  · rw [dataBody_dec he ho]
    exact ⟨decData_acc b s, decData_result b s⟩
  · rw [dataBody_drain he]
    exact ⟨rfl, rfl⟩

/-- In a checksum job (R102, R109). -/
theorem dataBody_crc_frame (ho : s.status.op = .crc) :
    (dataBody b s).status.err = s.status.err ∧ (dataBody b s).g = s.g ∧ (dataBody b s).pend = s.pend ∧
      (dataBody b s).out = s.out := by
  by_cases he : s.status.err = .none
  · rw [dataBody_crc he ho, crcData_status]
    exact ⟨rfl, crcData_g b s, crcData_pend b s, crcData_out b s⟩
  · rw [dataBody_drain he]
    exact ⟨rfl, rfl, rfl, rfl⟩

end JobFrames

/-- Settles O28: DATA is the job's body and the count, and each has its frame. -/
theorem dataFrame : Obligations.DataFrame := by
  intro b s t hb ht
  rw [exec_eq, effect_data hb, Host.Outcome.next.injEq] at ht
  subst ht
  refine ⟨?_, fun ho => ?_, fun ho => ?_, fun ho => ?_⟩
  · obtain ⟨g, p, a, r, e, es, hbody⟩ := bodyForm_dataBody b s
    rw [hbody]
    exact ⟨rfl, counted_op _, counted_cmderr _, rfl, rfl, rfl, rfl, rfl, rfl, rfl, es, rfl⟩
  · rw [counted_err]
    exact dataBody_enc_frame ho
  · exact dataBody_dec_frame ho
  · rw [counted_err]
    exact dataBody_crc_frame ho

end Sys2Proof.Machine
end

section
/-! PROOFS. Where an InvalidCharacter stood (60_exceptions.md, section 1): which characters make a decode job's body raise
it, and the position of the word that does. -/

namespace Sys2Proof.Machine

/-! ### Places in a job that runs (R17, R92) -/

theorem State.Inv.remain_ne_zero {s : State} (hi : s.Inv) (hb : s.status.busy = true) : s.remain ≠ 0#24 :=
  hi.busy_iff.mp hb

/-- The next element of a running job stands inside it (R17). -/
theorem State.Inv.pos_lt_len {s : State} (hi : s.Inv) (hb : s.status.busy = true) : s.pos < s.len.toNat := by
  have h0 : s.remain.toNat ≠ 0 := fun e => hi.remain_ne_zero hb (BitVec.eq_of_toNat_eq e)
  have hle := hi.remain_le
  rw [State.pos]
  omega

/-- A decode job that has met no error has whole groups (R83, R92). -/
theorem State.Inv.wholeGroups {s : State} (hi : s.Inv) (ho : s.status.op = .dec) (he : s.status.err = .none) :
    s.len.toNat % 4 = 0 := by
  by_contra hm
  have hbad : s.status.err = .invalidInputLength := (hi.err_length ho).mpr hm
  rw [he] at hbad
  cases hbad

/-! ### Which character raises InvalidCharacter (R93) -/

section RaisedByDecodeBody
variable {c : Byte} {s : State} (he : s.status.err = .none)
include he

theorem decPlain_raises (ht : (decPlain c s).status.err = .invalidCharacter) : charToIndex c = none := by
  cases hc : charToIndex c with
  | none => rfl
  | some r =>
    rw [decPlain_some_status hc, he] at ht
    cases ht

theorem decFinal_raises : (decFinal c s).status.err = .invalidCharacter →
    charToIndex c = none ∨ charToIndex s.pend = none := by
  have hkept : s.status.err ≠ .invalidCharacter := by rw [he]; nofun
  apply decFinal_cases
    (P := fun t => t.status.err = .invalidCharacter → charToIndex c = none ∨ charToIndex s.pend = none) c s
  case twoPads => exact fun _ _ ht => absurd ht hkept
  case badPend => exact fun _ hp _ => .inr hp
  case onePad => exact fun _ _ _ ht => absurd ht hkept
  case badChar => exact fun _ _ _ hc _ => .inl hc
  case full => exact fun _ _ _ _ ht => absurd ht hkept

/-- The body of a decode job raises the error for its own character, or, at the last place of the final group, for the
deferred one. -/
theorem decData_raises (ht : (decData c s).status.err = .invalidCharacter) :
    charToIndex c = none ∨ (¬ s.pos < s.len.toNat - 4 ∧ s.pos % 4 = 3 ∧ charToIndex s.pend = none) := by
  rcases decPlace_cases s with hp | ⟨hf, hk⟩ | ⟨hf, hk⟩
  · rw [decData_plain hp] at ht
    exact .inl (decPlain_raises he ht)
  · rw [decData_deferred hf hk, he] at ht
    cases ht
  · rw [decData_final hf hk] at ht
    exact (decFinal_raises he ht).imp_right fun hp => ⟨hf, hk, hp⟩

end RaisedByDecodeBody

/-- The body of DATA raises InvalidCharacter in a decode job only (R93, R118). -/
theorem dataBody_raises_op {c : Byte} {s : State} (he : s.status.err = .none)
    (ht : (dataBody c s).status.err = .invalidCharacter) : s.status.op = .dec := by
  rcases dataBody_err c s with hkept | ⟨-, ho, -⟩
  · rw [hkept, he] at ht
    cases ht
  · exact ho

/-! ### Its position, from the registers as read after the word (R117) -/

/-- Settles O57: the word moves `POS` on by one, its error is the decode body's, and in a job of whole groups the place
where the deferred character is judged is the last. -/
theorem errorPositionFromRemain : Obligations.ErrorPositionFromRemain := by
  intro s t c hi hb he hexec ht
  rw [exec_eq, effect_data hb, Host.Outcome.next.injEq] at hexec
  subst hexec
  have hpos : (dataBody c s).counted.pos = s.pos + 1 := by
    rw [counted_pos (by rw [dataBody_remain]; exact hi.remain_ne_zero hb)
      (by rw [dataBody_remain, dataBody_len]; exact hi.remain_le), dataBody_pos]
  rw [counted_err] at ht
  have ho : s.status.op = .dec := dataBody_raises_op he ht
  rw [dataBody_dec he ho] at ht
  refine ⟨Nat.sub_eq_of_eq_add hpos, ho, (decData_raises he ht).imp_right fun ⟨hf, hk, hp⟩ => ⟨?_, hp⟩⟩
  have hlt := hi.pos_lt_len hb
  have hgroups := hi.wholeGroups ho he
  omega

end Sys2Proof.Machine
end

section
/-! PROOFS. Reset, and what a job takes and gives (70_reset_and_hazards.md): the state the reset input leaves, the
number of DATA words a job takes, and the number of bytes a valid text decodes to. -/

namespace Sys2Proof.Machine

/-! ### A job takes exactly its words (R109, R136) -/

/-- A start command accepted while no job runs begins a job with all its elements to come. -/
theorem exists_jobAt_start {s : State} {start : Instr} {n : Word24} (hb : s.status.busy = false)
    (hstart : start = .enc n ∨ start = .dec n ∨ start = .crc n) :
    ∃ op, JobAt op n.toNat n.toNat (effect start s) := by
  rcases hstart with rfl | rfl | rfl
  · rw [effect_enc_idle hb]; exact ⟨_, (started_startEnc n s).jobAt⟩
  · rw [effect_dec_idle hb]; exact ⟨_, (started_startDec n s).jobAt⟩
  · rw [effect_crc_idle hb]; exact ⟨_, (started_startCrc n s).jobAt⟩

theorem effect_data_idle {s : State} (hb : s.status.busy = false) (b : Byte) :
    effect (.data b) s = rejectCommand s := if_neg (Bool.eq_false_iff.mp hb)

theorem deliver_append (xs ys : List Byte) (s : State) : deliver (xs ++ ys) s = deliver ys (deliver xs s) :=
  List.foldl_append

section SomeElements
variable {op : JobOp} {n left : Nat} {t : State}

/-- Each DATA word takes the job one element on, whatever its byte and whether or not the job has failed. -/
theorem JobAt.deliver (xs : List Byte) (h : JobAt op n (left + xs.length) t) :
    JobAt op n left (Machine.deliver xs t) := by
  induction xs generalizing t with
  | nil => exact h
  | cons x xs ih => exact ih (h.data x)

theorem JobAt.not_done (h : JobAt op n left t) (hleft : left ≠ 0) : t.status.done = false :=
  Bool.eq_false_iff.mpr fun e => hleft (h.done.mp e)

theorem JobAt.not_busy (h : JobAt op n 0 t) : t.status.busy = false := congrArg Status.busy h.status_completed

end SomeElements

/-- Settles O49: each DATA word takes the started job one element on, and the word after the last finds no job
running. -/
theorem jobsTakeExactlyTheirWords : Obligations.JobsTakeExactlyTheirWords := by
  intro s b start extra rest h0 hk hb hlt hstart hi
  obtain ⟨op, hjob⟩ := exists_jobAt_start hb hstart
  rw [BitVec.toNat_ofNat, Nat.mod_eq_of_lt hlt] at hjob
  have hi' : s.inputs = jobInputs s.platform start (b ++ [extra]) ++ rest := by
    rw [hi, jobInputs_append, List.cons_append, List.append_assoc]; rfl
  have hrun {xs more : List Byte} (hsplit : xs ++ more = b ++ [extra]) := runSteps_job h0 hk (hsplit ▸ hi')
  refine ⟨fun k hk' => ?running, ?completed⟩
  case running =>
    have htake : (b.take k).length = k := List.length_take_of_le hk'.le
    have hleft : b.length - k ≠ 0 := Nat.sub_ne_zero_of_lt hk'
    have hjobk : JobAt op b.length (b.length - k) (deliver (b.take k) (effect start s)) :=
      JobAt.deliver _ (by rwa [htake, Nat.sub_add_cancel hk'.le])
    have hfirst := hrun (xs := b.take k) (more := b.drop k ++ [extra])
      (by rw [← List.append_assoc, List.take_append_drop])
    rw [htake] at hfirst
    exact ⟨_, hfirst, hjobk.busy.mpr hleft, hjobk.not_done hleft, hjobk.cmderr, hjobk.remain⟩
  case completed =>
    have hdone : JobAt op b.length 0 (deliver b (effect start s)) := JobAt.deliver b (by rwa [Nat.zero_add])
    have hextra := hrun (List.append_nil (b ++ [extra]))
    rw [List.length_append, deliver_append, deliver_cons, deliver_nil, effect_data_idle hdone.not_busy] at hextra
    exact ⟨_, hrun rfl, hdone.not_busy, hdone.done.mpr rfl, hdone.cmderr,
      BitVec.eq_of_toNat_eq hdone.remain, hextra⟩

/-! ### The number of bytes a valid text decodes to (R87, R141) -/

/-- Two, three or four indices give one byte fewer, and no index none (R87). -/
theorem length_reassemble {is : List Index} (hle : is.length ≤ 4) (hne : is.length ≠ 1) :
    (reassemble is).length = is.length - 1 := by
  match is with
  | [] => rfl
  | [_] => exact absurd rfl hne
  | [_, _] => rfl
  | [_, _, _] => rfl
  | [_, _, _, _] => rfl
  | _ :: _ :: _ :: _ :: _ :: rest => exact absurd hle (by simp only [List.length_cons]; omega)

/-- A group without error gives three bytes for four characters, two for three and one for two. -/
theorem length_decodeGroup {g : List Byte} (hok : (decodeGroup g).2 = .none) (hle : g.length ≤ 4)
    (hne : g.length ≠ 1) : (decodeGroup g).1.length = 3 * g.length / 4 := by
  cases hg : g.mapM charToIndex with
  | none => simp [decodeGroup, hg] at hok
  | some is =>
    have his := mapM_eq_some_iff.mp hg
    have hlen : g.length = is.length := his.length_eq
    rw [hlen] at hle hne ⊢
    rw [decodeGroup_of_haveIndices his, length_reassemble hle hne]
    omega

theorem decodeThen_err_eq_none {x y : List Byte × CodecError} :
    (decodeThen x y).2 = .none ↔ x.2 = .none ∧ y.2 = .none := by
  by_cases hx : x.2 = .none
  · simp [decodeThen, hx]
  · simp [decodeThen, hx]

/-- Characters decoded without error, in groups of which none holds one character, give three bytes for every four. -/
theorem length_decodeGroups : ∀ {cs : List Byte}, (decodeGroups cs).2 = .none → cs.length % 4 ≠ 1 →
    (decodeGroups cs).1.length = 3 * cs.length / 4
  | c0 :: c1 :: c2 :: c3 :: rest, hok, hne => by
    rw [decodeGroups_group, decodeThen_err_eq_none] at hok
    obtain ⟨hgroup, hrest⟩ := hok
    have hlen : (c0 :: c1 :: c2 :: c3 :: rest).length = rest.length + 4 := rfl
    have ih := length_decodeGroups hrest (by omega)
    have hthree : (decodeGroup [c0, c1, c2, c3]).1.length = 3 := by
      simp [length_decodeGroup hgroup]
    rw [decodeGroups_group, decodeThen, if_pos hgroup, List.length_append, hthree, ih, hlen]
    omega
  | [], _, _ => rfl
  | [_], _, hne => absurd rfl hne
  | [_, _], hok, _ => length_decodeGroup hok (by simp) nofun
  | [_, _, _], hok, _ => length_decodeGroup hok (by simp) nofun

/-- Settles O41: the effective range gives three bytes for every four characters, and the pads are what it leaves out
of the last group. -/
theorem decodedLengthCountsPads : Obligations.DecodedLengthCountsPads := by
  intro t out hdecode
  have hwhole : t.length % 4 = 0 := by
    by_contra hbad
    rw [radix64Decode_of_badLength hbad] at hdecode
    cases hdecode
  by_cases hne : t = []
  · subst hne
    cases hdecode
    rfl
  · obtain ⟨hmod, hge, hle⟩ := lastGroupNeverHoldsOneCharacter t hne hwhole
    have hrange : (t.take (effectiveLength t)).length = effectiveLength t := List.length_take_of_le hle
    rw [radix64Decode_of_wholeGroups hwhole] at hdecode
    have hlen := length_decodeGroups (congrArg Prod.snd hdecode) (by rwa [hrange])
    rw [hdecode, hrange] at hlen
    change out.length = 3 * effectiveLength t / 4 at hlen
    omega

/-! ### The reset input (R35, R130) -/

/-- Settles O15: with a write held or not, the step is `resetCore`, which leaves its free values in the scratch
registers. -/
theorem resetInputLeavesTheResetState : Obligations.ResetInputLeavesTheResetState :=
  fun _ rest hi => ⟨_, _, _, _, step_of_stepNext (.reset rest hi), rfl⟩

end Sys2Proof.Machine
end
